-- ==== Sys2Proof/Word.lean ====
section
/-! DEFINITION. The word types of the core: bytes of the input, symbols of the output, code values, host register words. -/

namespace Sys2Proof

/-- One element of the input buffer `IN` (00_scope.md R3: `BYTE_BITS = 8`). -/
abbrev Byte := BitVec 8

/-- One output symbol (00_scope.md R3: `SYM_BITS = 16`, unsigned). -/
abbrev Symbol := BitVec 16

/-- A code value, zero-extended to the widest format `CODE12` (30_encoding.md R55, R57). -/
abbrev Code := BitVec 12

/-- The contents of one host register (10_state.md R31: 32 bits). -/
abbrev Word := BitVec 32

/-- One Code Table Entry: "a sequence of output symbols" (10_state.md R20). -/
abbrev Entry := List Symbol

end Sys2Proof
end

