-- ==== Sys2Proof/Config.lean ====
section
/-! DEFINITION. What an implementation fixes: the constants of 00_scope.md R3, the open parameters of R4, and the free
values. -/

namespace Sys2Proof

/-- Smallest legal initial code size (00_scope.md R3, `ICS_MIN`). -/
def Config.icsMin : Nat := 2

/-- Largest legal initial code size (00_scope.md R3, `ICS_MAX`). -/
def Config.icsMax : Nat := 8

/-- Largest code width in bits (00_scope.md R3, `MAX_WIDTH`). -/
def Config.maxWidth : Nat := 12

/-- Largest number of Code Table entries (00_scope.md R3, `MAX_ENTRIES`). -/
def Config.maxEntries : Nat := 4096

/-- Bytes of one symbol, the element size of every symbol buffer (40_buffer_ops.md R72). -/
def Config.symbolBytes : Nat := 2

/-- Capacity of the scratch sequence and of the cached previous sequence (40_buffer_ops.md R72). -/
def Config.scratchCap : Nat := 4091

/-- Whether `END` is accepted as the first code after a `CLEAR` (00_scope.md R4 `END_AFTER_CLEAR`). The spec decides
`accept` (90_conflicts.md C1, 92_eei_decisions.md D6) and lets a model carry `reject` as the alternative. -/
inductive EndAfterClear where
  | accept
  | reject
deriving DecidableEq, Repr

/-- The parameters the spec leaves to an implementation (00_scope.md R4). They are carried in State as plain data that
no step changes, so that a statement about every state is a statement about every configuration (log entry 3). -/
structure Params where
  /-- `IN_AW`: the width of `HR[3].LEN` and of the input length (D5). -/
  inAw : Nat
  /-- `OUT_CAP`: the capacity of the output store in symbols (D8). -/
  outCap : Nat
  /-- `MIN_FLOOR`: the floor of a growable creation (D12). -/
  minFloor : Nat
  /-- What `GROW` adds beyond `cap + max(count, len)` (D13: any value at least that; the decided default adds 0). -/
  growSlack : Nat
  /-- Element size in bytes of the Code Table's buffer; the spec names the element "entry" and gives no size. -/
  entryBytes : Nat
  /-- `END_AFTER_CLEAR` (D6). -/
  endAfterClear : EndAfterClear
deriving DecidableEq, Repr

/-- The ranges 92_eei_decisions.md gives the parameters: `IN_AW >= 1` (D5), `1 <= OUT_CAP < 2^32` (D8), and an element
size of at least one byte (40_buffer_ops.md R66). -/
abbrev Params.ok (p : Params) : Prop := 1 ≤ p.inAw ∧ 1 ≤ p.outCap ∧ p.outCap < 2 ^ 32 ∧ 1 ≤ p.entryBytes

/-- The parameters of the machine `State.reset` describes. DESIGN CHOICE (log entry 3), except `endAfterClear` (D6) and
`growSlack` (the decided default of D13). -/
def Config.params : Params where
  inAw := 32
  outCap := 4294967295
  minFloor := 0
  growSlack := 0
  entryBytes := 1
  endAfterClear := .accept

/-- The free values (log entry 6): a value the spec leaves unspecified is this constant at the state's counter and at a
number that tells the values of one step apart. It has no body: nothing can be proved of what it is. -/
opaque Config.freeValue : Nat → Nat → Nat

end Sys2Proof
end

