-- ==== Sys2Proof/Syntax.lean ====
section
/-! DEFINITION. The instructions: one constructor per row of spec/opcode_table.json, and the operand types they take. -/

namespace Sys2Proof

/-- The Decoder State (10_state.md R16): `R`, `F`, `S`, `T` of the spec. -/
inductive Phase where
  /-- `R`, AwaitingReset. -/
  | awaitingReset
  /-- `F`, AwaitingFirstCode. -/
  | awaitingFirst
  /-- `S`, Streaming. -/
  | streaming
  /-- `T`, TableFull. -/
  | tableFull
deriving DecidableEq, Repr

/-- The decode errors (60_exceptions.md R120), `ERR` codes 1 to 5 in order. -/
inductive DecodeError where
  /-- 1, MalformedStream "expected initial clear code". -/
  | expectedInitialClear
  /-- 2, MalformedStream "first code after clear must be literal". -/
  | firstCodeNotLiteral
  /-- 3, MalformedStream "invalid code". -/
  | invalidCode
  /-- 4, TruncatedStream. -/
  | truncatedStream
  /-- 5, AllocationError. -/
  | allocationError
deriving DecidableEq, Repr

/-- The buffers of symbols the core owns (40_buffer_ops.md R72): the output store, the scratch current sequence, the
cached previous sequence. -/
inductive SymBuf where
  | out
  | curSeq
  | prevSeq
deriving DecidableEq, Repr

/-- A Growable Buffer of the core (40_buffer_ops.md R72): the Code Table, whose elements are entries, or a symbol buffer. -/
inductive BufId where
  | table
  | sym (b : SymBuf)
deriving DecidableEq, Repr

/-- The source elements of an append (40_buffer_ops.md R67 `src[0 .. count-1]`): `count` is the list's length. -/
inductive Elems where
  | entries (es : List Entry)
  | symbols (xs : List Symbol)
deriving DecidableEq, Repr

/-- The source of a copy (40_buffer_ops.md R68; R72 copies from `T[prevCode]`): a buffer, or the entry in a table slot. -/
inductive BufSource where
  | buf (b : BufId)
  | entry (i : Code)
deriving DecidableEq, Repr

/-- The rows of spec/opcode_table.json. A code's operand is its value `c` (30_encoding.md R57). -/
inductive Instr where
  /-- `CLR.R` -/
  | clrR (c : Code)
  /-- `ILL.R` -/
  | illR (c : Code)
  /-- `LIT.F` -/
  | litF (c : Code)
  /-- `END.F` -/
  | endF (c : Code)
  /-- `ILL.F` -/
  | illF (c : Code)
  /-- `END.S` -/
  | endS (c : Code)
  /-- `END.T` -/
  | endT (c : Code)
  /-- `CLR.S` -/
  | clrS (c : Code)
  /-- `CLR.T` -/
  | clrT (c : Code)
  /-- `LIT.S` -/
  | litS (c : Code)
  /-- `REF.S` -/
  | refS (c : Code)
  /-- `KWK.S` -/
  | kwkS (c : Code)
  /-- `ILL.S` -/
  | illS (c : Code)
  /-- `LIT.T` -/
  | litT (c : Code)
  /-- `REF.T` -/
  | refT (c : Code)
  /-- `START` -/
  | start
  /-- `BUF.CREATE` -/
  | bufCreate (b : BufId) (elementSize initialLength : Nat) (fixedCapacity : Bool)
  /-- `BUF.APPEND` -/
  | bufAppend (b : BufId) (src : Elems)
  /-- `BUF.COPYFROM` -/
  | bufCopyFrom (dest : BufId) (source : BufSource)
  /-- `BUF.CLEAR` -/
  | bufClear (b : BufId)
  /-- `BUF.RELEASE` -/
  | bufRelease (b : BufId)
  /-- `Fetch` -/
  | fetch
  /-- `Grow` -/
  | grow (s : Entry)
  /-- `WidthStep` -/
  | widthStep
  /-- `ResetDict` -/
  | resetDict
  /-- `Emit` -/
  | emit (s : List Symbol)
  /-- `Finish` -/
  | finish
  /-- `raise` -/
  | raise (e : DecodeError)
deriving DecidableEq, Repr

end Sys2Proof
end

