-- ==== Sys2Proof/WellFormed.lean ====
section
/-! DEFINITION. The context a code is read in, and when an instruction is well formed in it: the conditions of the code
map (30_encoding.md R58) and the operand conditions of the internal operations. -/

namespace Sys2Proof

/-- What decides how the bits at the cursor are read (30_encoding.md R56, R58, R61): the decode constant `ics`, the
phase, the table length, the width of the next code, its bit offset, and the configuration `END_AFTER_CLEAR`. -/
structure Ctx where
  ics : Nat
  phase : Phase
  tableLen : Nat
  codeWidth : Nat
  bitOff : Nat
  endAfterClear : EndAfterClear
deriving DecidableEq, Repr

/-- `CLEAR = 1 << ics` (10_state.md R11). -/
def Ctx.clear (x : Ctx) : Nat := 1 <<< x.ics

/-- `END = CLEAR + 1` (10_state.md R11). -/
def Ctx.endCode (x : Ctx) : Nat := x.clear + 1

/-- A code of format `CODEw` has `w` bits (30_encoding.md R55). -/
def Ctx.fits (x : Ctx) (c : Code) : Bool := decide (c.toNat < 1 <<< x.codeWidth)

/-- The row's phase and the row's width (30_encoding.md R58, first column). -/
def Ctx.inPhase (x : Ctx) (p : Phase) (c : Code) : Bool := decide (x.phase = p) && x.fits c

/-- When an instruction may stand in a context. For the fifteen codes this is the row of 30_encoding.md R58: its phase
and its condition on `c`, with R84's extension under `END_AFTER_CLEAR = reject`. For the internal operations it is the
operand condition of the rule. -/
def wellFormed (x : Ctx) : Instr → Bool
  | .clrR c => x.inPhase .awaitingReset c && decide (c.toNat = x.clear)
  | .illR c => x.inPhase .awaitingReset c && decide (c.toNat ≠ x.clear)
  | .litF c => x.inPhase .awaitingFirst c && decide (c.toNat < x.clear)
  | .endF c => x.inPhase .awaitingFirst c && decide (c.toNat = x.endCode) && decide (x.endAfterClear = .accept)
  | .illF c => x.inPhase .awaitingFirst c &&
      (decide (c.toNat = x.clear) || decide (x.endCode < c.toNat) ||
        (decide (c.toNat = x.endCode) && decide (x.endAfterClear = .reject)))
  | .endS c => x.inPhase .streaming c && decide (c.toNat = x.endCode)
  | .endT c => x.inPhase .tableFull c && decide (c.toNat = x.endCode)
  | .clrS c => x.inPhase .streaming c && decide (c.toNat = x.clear)
  | .clrT c => x.inPhase .tableFull c && decide (c.toNat = x.clear)
  | .litS c => x.inPhase .streaming c && decide (c.toNat < x.clear)
  | .refS c => x.inPhase .streaming c && decide (x.endCode < c.toNat ∧ c.toNat < x.tableLen)
  | .kwkS c => x.inPhase .streaming c && decide (x.endCode < c.toNat ∧ c.toNat = x.tableLen)
  | .illS c => x.inPhase .streaming c && decide (x.endCode < c.toNat ∧ x.tableLen < c.toNat)
  | .litT c => x.inPhase .tableFull c && decide (c.toNat < x.clear)
  | .refT c => x.inPhase .tableFull c && decide (x.endCode < c.toNat)
  | .start => true
  | .bufCreate _ elementSize _ _ => decide (1 ≤ elementSize)
  | .bufAppend .table (.entries _) => true
  | .bufAppend (.sym _) (.symbols _) => true
  | .bufAppend .table (.symbols xs) => decide (xs = [])
  | .bufAppend (.sym _) (.entries es) => decide (es = [])
  | .bufCopyFrom (.sym d) (.buf (.sym b)) => decide (d ≠ b)
  | .bufCopyFrom (.sym _) (.entry _) => true
  | .bufCopyFrom (.sym _) (.buf .table) => false
  | .bufCopyFrom .table (.buf _) => false
  | .bufCopyFrom .table (.entry _) => false
  | .bufClear _ => true
  | .bufRelease _ => true
  | .fetch => true
  | .grow s => decide (s ≠ []) && decide (x.phase = .streaming)
  | .widthStep => true
  | .resetDict => true
  | .emit s => decide (s ≠ []) && s.all (fun v => decide (v.toNat < x.clear))
  | .finish => true
  | .raise _ => true

/-- The value of a code instruction; the host command and the internal operations have none. -/
def Instr.code : Instr → Option Code
  | .clrR c => some c
  | .illR c => some c
  | .litF c => some c
  | .endF c => some c
  | .illF c => some c
  | .endS c => some c
  | .endT c => some c
  | .clrS c => some c
  | .clrT c => some c
  | .litS c => some c
  | .refS c => some c
  | .kwkS c => some c
  | .illS c => some c
  | .litT c => some c
  | .refT c => some c
  | .start => none
  | .bufCreate _ _ _ _ => none
  | .bufAppend _ _ => none
  | .bufCopyFrom _ _ => none
  | .bufClear _ => none
  | .bufRelease _ => none
  | .fetch => none
  | .grow _ => none
  | .widthStep => none
  | .resetDict => none
  | .emit _ => none
  | .finish => none
  | .raise _ => none

end Sys2Proof
end

