-- ==== Sys2Proof/Decode.lean ====
section
/-! DEFINITION. From bits to instructions and back: the accumulator arithmetic of the bit-unpacker, the classification of
a code, the decoder and the encoder of a code at a bit offset, the host command, and `Pack`. -/

namespace Sys2Proof

/-- Bytes a code of width `w` at bit offset `o` occupies: `ceil((o + w) / 8)` (20_memory.md R46, 41_bit_unpacker.md R74
`nbytes`). -/
def bytesNeeded (o w : Nat) : Nat := (o + w + 7) / 8

/-- The accumulator fill of 41_bit_unpacker.md R74: the byte at the lowest index gives the lowest bits (20_memory.md R44). -/
def assemble : List Byte → BitVec 24
  | [] => 0
  | b :: bs => b.setWidth 24 ||| (assemble bs <<< 8)

/-- `codeMask = (1 << codeWidth) - 1`, 12 bits (10_state.md R12). -/
def maskOf (w : Nat) : Code := BitVec.ofNat 12 ((1 <<< w) - 1)

/-- `c = (acc >> bitOff) & codeMask` (30_encoding.md R57, 41_bit_unpacker.md R74). -/
def extractCode (acc : BitVec 24) (o w : Nat) : Code := (acc >>> o).setWidth 12 &&& maskOf w

/-- The low `n` bytes of a number, lowest first (30_encoding.md R63, last line). -/
def bytesOf (n v : Nat) : List Byte := (List.range n).map fun a => BitVec.ofNat 8 (v >>> (8 * a))

/-- The tests of phase `F` in the order of 42_code_lookup.md R79, with `END` judged by the configuration (R83). -/
def classifyFirst (x : Ctx) (c : Code) : Instr :=
  if c.toNat < x.clear then .litF c
  else if c.toNat = x.endCode then
    match x.endAfterClear with
    | .accept => .endF c
    | .reject => .illF c
  else .illF c

/-- The tests of phase `S` in the order of 42_code_lookup.md R79. -/
def classifyStreaming (x : Ctx) (c : Code) : Instr :=
  if c.toNat = x.endCode then .endS c
  else if c.toNat = x.clear then .clrS c
  else if c.toNat < x.clear then .litS c
  else if c.toNat < x.tableLen then .refS c
  else if c.toNat = x.tableLen then .kwkS c
  else .illS c

/-- The tests of phase `T` (42_code_lookup.md R79, R92: every code above `END` names an entry). -/
def classifyFull (x : Ctx) (c : Code) : Instr :=
  if c.toNat = x.endCode then .endT c
  else if c.toNat = x.clear then .clrT c
  else if c.toNat < x.clear then .litT c
  else .refT c

/-- The one instruction a fetched code selects: by phase first and value second (30_encoding.md R58, 42_code_lookup.md
R79). -/
def classify (x : Ctx) (c : Code) : Instr :=
  match x.phase with
  | .awaitingReset => if c.toNat = x.clear then .clrR c else .illR c
  | .awaitingFirst => classifyFirst x c
  | .streaming => classifyStreaming x c
  | .tableFull => classifyFull x c

/-- What decoding the bytes at the cursor gives: an instruction, with the number of whole bytes the cursor moves on and
its new bit offset; or a rejection, by the name of the error. -/
inductive DecodeResult where
  | instr (i : Instr) (byteAdvance newBitOff : Nat)
  | rejected (e : DecodeError)
deriving DecidableEq, Repr

/-- Decode the code at bit offset `x.bitOff` of the first of the bytes `bs`, the bytes of `IN` from the cursor to its end
(30_encoding.md R56, 41_bit_unpacker.md R74). Total; fewer bytes than the code needs are rejected as `TruncatedStream`. -/
def decode (x : Ctx) (bs : List Byte) : DecodeResult :=
  if bs.length < bytesNeeded x.bitOff x.codeWidth then .rejected .truncatedStream
  else
    .instr
      (classify x (extractCode (assemble (bs.take (bytesNeeded x.bitOff x.codeWidth))) x.bitOff x.codeWidth))
      ((x.bitOff + x.codeWidth) / 8) ((x.bitOff + x.codeWidth) % 8)

/-- A host write of `v` to register `n` that is a command: `HR[0]` with bit 0 set is `START` (10_state.md R32); bits 31:1
are ignored and any other write is none. -/
def decodeHostWrite (n : Nat) (v : Word) : Option Instr :=
  match n with
  | 0 => if v.getLsbD 0 then some .start else none
  | _ => none

/-- How an instruction reaches the machine: bits of the stream, a host write, or no encoding at all (`UOP`). -/
inductive Encoding where
  | stream (bytes : List Byte)
  | hostWrite (register : Nat) (value : Word)
  | internal
deriving DecidableEq, Repr

/-- The bytes of a code of width `w` at bit offset `o`, with every other bit 0 (30_encoding.md R56: bit `j` of the code is
stream bit `o + j`). -/
def encodeCode (o w : Nat) (c : Code) : List Byte := bytesOf (bytesNeeded o w) (c.toNat <<< o)

/-- The encoder: a code instruction is its value at the context's width and offset (30_encoding.md R55), `START` is the
write of 1 to `HR[0]` (10_state.md R32), an internal operation has no encoding (opcode_table.json format `UOP`). -/
def encode (x : Ctx) (i : Instr) : Encoding :=
  match i.code, i with
  | some c, _ => .stream (encodeCode x.bitOff x.codeWidth c)
  | none, .start => .hostWrite 0 1
  | none, _ => .internal

/-- The width bookkeeping of `Pack` (30_encoding.md R63): `w`, `tl`, `ph` and the bits `v`, `n` laid down so far. -/
def packFrom (ics w tl : Nat) (ph : Phase) (v n : Nat) : List Nat → Option (Nat × Nat)
  | [] => some (v, n)
  | c :: cs =>
    if c < 1 <<< w then
      let v' := v ||| (c <<< n)
      let n' := n + w
      match ph with
      | .awaitingReset => packFrom ics w tl .awaitingFirst v' n' cs
      | .awaitingFirst => packFrom ics w tl (if c < 1 <<< ics then .streaming else .awaitingFirst) v' n' cs
      | .streaming =>
        if c = 1 <<< ics then packFrom ics (ics + 1) ((1 <<< ics) + 2) .awaitingFirst v' n' cs
        else if c = (1 <<< ics) + 1 then packFrom ics w tl .streaming v' n' cs
        else if tl + 1 = 1 <<< w then
          (if w < Config.maxWidth then packFrom ics (w + 1) (tl + 1) .streaming v' n' cs
           else packFrom ics w (tl + 1) .tableFull v' n' cs)
        else packFrom ics w (tl + 1) .streaming v' n' cs
      | .tableFull =>
        if c = 1 <<< ics then packFrom ics (ics + 1) ((1 <<< ics) + 2) .awaitingFirst v' n' cs
        else packFrom ics w tl .tableFull v' n' cs
    else none

/-- `Pack(ics, [c1..ck])`, the bytes a code list stands for (30_encoding.md R63); none where a code does not fit its width. -/
def pack (ics : Nat) (cs : List Nat) : Option (List Byte) :=
  (packFrom ics (ics + 1) ((1 <<< ics) + 2) .awaitingReset 0 0 cs).map fun vn => bytesOf ((vn.2 + 7) / 8) vn.1

/-- The context right after `START` (10_state.md R38): phase `R`, the starting width and table length, the first bit. -/
def Ctx.afterStart (ics : Nat) (e : EndAfterClear) : Ctx where
  ics := ics
  phase := .awaitingReset
  tableLen := (1 <<< ics) + 2
  codeWidth := ics + 1
  bitOff := 0
  endAfterClear := e

/-- Whether the host's table word is a host register write: the one row to which the table gives a bit is `START`, one
byte; a whole host register is 32 bits (log entry 7). -/
def isHostWord (nbits : Nat) : Bool := decide (nbits = 8 ∨ nbits = 32)

/-- The instruction the decoder reads from a table word (log entry 7). A word of 8 or 32 bits is a write to `HR[0]`, the
only command the table gives bits; any other is a stream code, read as the first code of a decode with `ics = 8`. -/
def decodeTableWord (nbits w : Nat) : Option Instr :=
  if isHostWord nbits then decodeHostWrite 0 (BitVec.ofNat 32 w)
  else
    match decode (Ctx.afterStart 8 .accept) (bytesOf 3 w) with
    | .instr i _ _ => some i
    | .rejected _ => none

end Sys2Proof
end

