-- ==== Sys2Proof/Machine/State.lean ====
section
/-! DEFINITION. The state of the machine as plain data, the reasons a step can stop, and the state after reset. -/

namespace Sys2Proof.Machine

/-- A store: the listed elements by index, indices strictly rising, none equal to what an unlisted index reads as. -/
abbrev Memory (α : Type) := List (Nat × α)

/-- The canonical form of a store whose unlisted indices read as `z`. -/
abbrev Memory.wf {α : Type} [DecidableEq α] (z : α) (m : Memory α) : Prop :=
  m.Pairwise (fun a b => a.1 < b.1) ∧ ∀ p ∈ m, p.2 ≠ z

/-- What an unlisted byte of `IN` reads as. DESIGN CHOICE (log entry 2): the spec leaves the contents after reset open. -/
def blankByte : Byte := 0

/-- What an unlisted symbol of a buffer reads as: creation "zero-initializes storage" (40_buffer_ops.md R66). -/
def blankSymbol : Symbol := 0

/-- What an unlisted slot of the Code Table holds: no value, for which 10_state.md R22 allows the empty sequence. No
lookup gives it out (`Sys2Proof.Machine.lookup`). -/
def blankEntry : Entry := []

/-- A Growable Buffer (40_buffer_ops.md R65). `data` is its storage `data[0 .. cap-1]`, of which `data[0 .. len-1]` are
valid. -/
structure Buffer (α : Type) where
  /-- "element size (bytes, fixed at creation)" -/
  elemSize : Nat
  /-- "logical length (elements currently valid)" -/
  len : Nat
  /-- "allocated capacity (elements)" -/
  cap : Nat
  /-- "ownership of its backing storage" -/
  owned : Bool
  /-- created with a fixed capacity, "no further growth permitted" -/
  isFixed : Bool
  /-- the storage, by element index -/
  data : Memory α
deriving DecidableEq, Repr

/-- The run status, field `RUN` of `HR[1]` (10_state.md R33). -/
inductive RunStatus where
  | idle
  | busy
  | done
  | error
deriving DecidableEq, Repr

/-- An access of the host, the machine's environment (10_state.md R10, R31; 20_memory.md R40; 70_reset_and_hazards.md
R140). -/
inductive HostAccess where
  /-- Write a whole host register; the register takes the bits it has of the value. -/
  | writeReg (n : Nat) (v : Nat)
  /-- Read a whole host register; the value is left in `hostData`. -/
  | readReg (n : Nat)
  /-- Write one byte of `IN`. -/
  | writeIn (a : Nat) (v : Byte)
  /-- Read one symbol of `OUT`; the value is left in `hostData`. -/
  | readOut (i : Nat)
  /-- The hardware reset event. -/
  | hardReset
deriving DecidableEq, Repr

/-- Whose move is next (log entry 5). -/
inductive Turn where
  | core
  | host (a : HostAccess)
deriving DecidableEq, Repr

/-- The state of the machine: the host registers, the working registers, the stores, and the model's own fields. -/
structure State where
  /-- The implementation parameters (00_scope.md R4). No step changes them. -/
  params : Params
  /-- `HR[1].RUN` (10_state.md R33). -/
  run : RunStatus
  /-- `HR[1].ERR` (10_state.md R33): the error of the last decode; `none` is code 0. -/
  err : Option DecodeError
  /-- `HR[2].ICS` (10_state.md R34). -/
  hrIcs : BitVec 4
  /-- `HR[3].LEN` (10_state.md R35), `IN_AW` bits. Its width is a parameter, and above 32 it is wider
  than the other registers (log entry 22), so it is a number, which the invariant bounds. -/
  hrInLen : Nat
  /-- `HR[4].LEN` (10_state.md R36). -/
  hrOutLen : Word
  /-- MODEL'S OWN (log entry 4): the host has written `HR[2]` since the hardware reset. -/
  icsWritten : Bool
  /-- MODEL'S OWN (log entry 4): the host has written `HR[3]` since the hardware reset. -/
  inLenWritten : Bool
  /-- The latched initial code size (10_state.md R11). -/
  ics : Nat
  /-- The length of the input in bytes (10_state.md R13). -/
  inLen : Nat
  /-- Bits the next `Fetch` consumes (10_state.md R12). -/
  codeWidth : Nat
  /-- The byte index of the Bit Cursor (10_state.md R14). -/
  byteIdx : Nat
  /-- The bit offset of the Bit Cursor (10_state.md R14). -/
  bitOff : Nat
  /-- The Decoder State (10_state.md R16). -/
  phase : Phase
  /-- The previous code, or no value (10_state.md R17). -/
  prevCode : Option Code
  /-- The accumulator of the bit-unpacker (10_state.md R25). -/
  acc : BitVec 24
  /-- MODEL'S OWN: the code `Fetch` returned (41_bit_unpacker.md R74), held until its action. -/
  codeReg : Code
  /-- The Code Table `T` (10_state.md R20); its logical length is `tableLen` (R15). -/
  table : Buffer Entry
  /-- The output store `OUT` (10_state.md R24); its logical length is `outLen`. -/
  out : Buffer Symbol
  /-- The scratch current sequence (10_state.md R26). -/
  curSeq : Buffer Symbol
  /-- The cached previous sequence (10_state.md R26). -/
  prevSeq : Buffer Symbol
  /-- The input store `IN` (20_memory.md R41). -/
  input : List Host.Cell
  /-- MODEL'S OWN (log entry 5): the moves to come; when none is listed the core moves. -/
  agenda : List Turn
  /-- MODEL'S OWN (log entry 5): the value the last host read returned. -/
  hostData : Nat
  /-- MODEL'S OWN (log entry 6): how many times free values have been drawn. -/
  freeCtr : Nat
deriving DecidableEq, Repr

/-- The reasons a step stops at a state the spec calls `stuck` or at an address that does not exist. -/
inductive Fault where
  /-- A lookup of a Code Table slot that has no value: at or above `tableLen`, or a sentinel slot
  (93_implementation_defined.md U8, U14). Raised by `REF.S`, `REF.T`, `LIT.S`, `KWK.S`, for which an empty entry has no
  value either (log entry 8), and by a copy from an entry. Safe. -/
  | slotHasNoValue
  /-- `T[prevCode]` while `prevCode` has no value (93_implementation_defined.md U14). Raised by `LIT.S`, `REF.S`,
  `KWK.S`. Safe. -/
  | prevCodeHasNoValue
  /-- `Grow` outside phase `S`, against its precondition (43_dictionary_grow.md R97, R100). Raised by `Grow` and the
  data codes of phase `S`. Safe. -/
  | growOutsideStreaming
  /-- `Grow` with 4096 entries in the table, which 43_dictionary_grow.md R100 says never happens. Raised by `Grow` and
  the data codes of phase `S`. Safe. -/
  | growOfFullTable
  /-- A host write to an index of `IN` at or above 2^`IN_AW` (20_memory.md R40, log entry 15). Raised by the host access.
  Safe. -/
  | inputIndexOutOfRange
  /-- A host read of an index of `OUT` at or above `OUT_CAP` (20_memory.md R40). Raised by the host access. Safe. -/
  | outputIndexOutOfRange
deriving DecidableEq, Repr

/-- The reasons the model gives an operation no meaning. -/
inductive Refusal where
  /-- An instruction without a meaning yet. Raised by an arm of `exec`. Safe. -/
  | notModelled (mnemonic : String)
  /-- `START` with `HR[2].ICS` outside 2..8 (45_host_operations.md R112, 93_implementation_defined.md U1). Safe. -/
  | illegalInitialCodeSize
  /-- `START` before the host has written `HR[2]` and `HR[3]` (93_implementation_defined.md U2). Safe. -/
  | startBeforeBoot
  /-- A host write to `IN` while `RUN = BUSY` (93_implementation_defined.md U7). The refusal leaves out a move a host
  could make: an assumption about the host, unsafe if a host breaks it. -/
  | inputWriteWhileBusy
  /-- A host access to a register number above 4 (93_implementation_defined.md U11). Safe. -/
  | noSuchHostRegister
  /-- A buffer copied to itself (93_implementation_defined.md U13). Raised by `BUF.COPYFROM`. Safe. -/
  | copyToItself
  /-- Elements of another size than the destination's (93_implementation_defined.md U13, 40_buffer_ops.md R67). Raised by
  `BUF.APPEND` where the source is not empty (log entry 25) and by `BUF.COPYFROM`. Safe. -/
  | elementSizeMismatch
  /-- An element size of 0, which 40_buffer_ops.md R66 excludes. Raised by `BUF.CREATE`. Safe. -/
  | elementSizeZero
deriving DecidableEq, Repr

/-- The result of an instruction or of a step. -/
abbrev Result := Host.Outcome State Fault Refusal

/-- A buffer after release (40_buffer_ops.md R70): the "empty, zero-capacity state". Its other attributes are the ones
`START` gives (R72). -/
def Buffer.released {α : Type} (elemSize : Nat) : Buffer α where
  elemSize := elemSize
  len := 0
  cap := 0
  owned := true
  isFixed := true
  data := []

/-- The machine right after hardware reset (10_state.md R39): `RUN = IDLE`, `ERR = 0`, `HR[4] = 0`, `outLen = 0`,
`prevCode` and every table slot no value. Every other field has the value log entries 1 to 6 name. -/
def State.reset : State where
  params := Config.params
  run := .idle
  err := none
  hrIcs := 0
  hrInLen := 0
  hrOutLen := 0
  icsWritten := false
  inLenWritten := false
  ics := 0
  inLen := 0
  codeWidth := 0
  byteIdx := 0
  bitOff := 0
  phase := .awaitingReset
  prevCode := none
  acc := 0
  codeReg := 0
  table := Buffer.released Config.params.entryBytes
  out := Buffer.released Config.symbolBytes
  curSeq := Buffer.released Config.symbolBytes
  prevSeq := Buffer.released Config.symbolBytes
  input := []
  agenda := []
  hostData := 0
  freeCtr := 0

end Sys2Proof.Machine
end

