-- ==== Sys2Proof/Machine/Flags.lean ====
section
/-! DEFINITION. The condition state and the status word: the encodings of `phase`, `RUN` and `ERR`, and `HR[1]` as the host
reads it. The core has no other flags (10_state.md R16). -/

namespace Sys2Proof.Machine

/-- The encoding of `phase`: `R = 0`, `F = 1`, `S = 2`, `T = 3` (10_state.md R16). -/
def phaseBits (p : Phase) : BitVec 2 :=
  match p with
  | .awaitingReset => 0
  | .awaitingFirst => 1
  | .streaming => 2
  | .tableFull => 3

/-- The phase two bits stand for, the inverse of `phaseBits`. -/
def phaseOfNat (n : Nat) : Phase :=
  match n % 4 with
  | 0 => .awaitingReset
  | 1 => .awaitingFirst
  | 2 => .streaming
  | _ => .tableFull

/-- The encoding of `RUN` (10_state.md R33). -/
def runBits (r : RunStatus) : BitVec 2 :=
  match r with
  | .idle => 0
  | .busy => 1
  | .done => 2
  | .error => 3

/-- The error codes of 60_exceptions.md R120; 0 is no error, 6 and 7 are never written. -/
def errBits (e : Option DecodeError) : BitVec 3 :=
  match e with
  | none => 0
  | some .expectedInitialClear => 1
  | some .firstCodeNotLiteral => 2
  | some .invalidCode => 3
  | some .truncatedStream => 4
  | some .allocationError => 5

/-- `HR[1] STATUS` as the host reads it (10_state.md R33): `RUN` in bits 1:0, `ERR` in bits 6:4, every other bit 0. -/
def statusWord (s : State) : Word := (runBits s.run).setWidth 32 ||| ((errBits s.err).setWidth 32 <<< 4)

end Sys2Proof.Machine
end

