-- ==== Sys2Proof/Machine/Ops.lean ====
section
/-! DEFINITION. The named operations: reading and writing a store, the five Growable Buffer operations, the views of the
working registers, the free values, and the entry of an error. -/

namespace Sys2Proof.Machine

/-! ### Stores -/

/-- Read one element; an unlisted index reads as `z`. -/
def Memory.read {α : Type} (z : α) : Memory α → Nat → α
  | [], _ => z
  | (k, x) :: m, a => if k = a then x else Memory.read z m a

/-- Take an index out of a store. -/
def Memory.erase {α : Type} (m : Memory α) (a : Nat) : Memory α := m.filter fun p => decide (p.1 ≠ a)

/-- List an element before the first larger index. -/
def Memory.enter {α : Type} (a : Nat) (v : α) : Memory α → Memory α
  | [] => [(a, v)]
  | (k, x) :: m => if a < k then (a, v) :: (k, x) :: m else (k, x) :: Memory.enter a v m

/-- Write one element. Writing what an unlisted index reads as takes the index out, so equal stores are equal lists. -/
def Memory.write {α : Type} [DecidableEq α] (z : α) (m : Memory α) (a : Nat) (v : α) : Memory α :=
  if v = z then Memory.erase m a else Memory.enter a v (Memory.erase m a)

/-- Write a run of elements at rising indices (20_memory.md R42: in increasing order). -/
def Memory.writeSeq {α : Type} [DecidableEq α] (z : α) (m : Memory α) (a : Nat) : List α → Memory α
  | [] => m
  | v :: vs => Memory.writeSeq z (Memory.write z m a v) (a + 1) vs

/-! ### Growable Buffers (40_buffer_ops.md) -/

/-- What a buffer operation ends with: the buffer after it, or the buffer it leaves when it raises `AllocationError`. -/
inductive BufResult (α : Type) where
  | done (b : Buffer α)
  | failed (b : Buffer α)
deriving DecidableEq, Repr

/-- `AllocOK(b, n)`: `n <= ceiling(b)`; `none` is a ceiling that is never exceeded (40_buffer_ops.md R71). -/
def allocOk (ceiling : Option Nat) (n : Nat) : Bool :=
  match ceiling with
  | none => true
  | some c => decide (n ≤ c)

/-- `GROW(cap, len, count)` (40_buffer_ops.md R67, 92_eei_decisions.md D13). -/
def growCap (p : Params) (cap len count : Nat) : Nat := cap + max count len + p.growSlack

/-- The valid elements `data[0 .. len-1]` of a buffer (40_buffer_ops.md R65), in order. -/
def Buffer.seq {α : Type} (z : α) (b : Buffer α) : List α := (List.range b.len).map fun k => Memory.read z b.data k

/-- The "degrade to empty rather than corrupt" effect of a failed allocation (40_buffer_ops.md R66, R67). -/
def Buffer.degrade {α : Type} (b : Buffer α) : Buffer α := { b with len := 0, cap := 0, data := [] }

/-- The copy of an append that fits (40_buffer_ops.md R67, last two lines). -/
def Buffer.put {α : Type} [DecidableEq α] (z : α) (b : Buffer α) (xs : List α) : Buffer α :=
  { b with data := Memory.writeSeq z b.data b.len xs, len := b.len + xs.length }

/-- `create(elementSize, initialLength, fixedCapacity)` (40_buffer_ops.md R66). DESIGN CHOICE (log entry 8): a zeroed element
of the Code Table, whose entries have no byte form (93_implementation_defined.md U9), is the empty sequence. -/
def Buffer.create {α : Type} (p : Params) (ceiling : Option Nat) (elementSize initialLength : Nat) (fixedCapacity : Bool)
    (b : Buffer α) : BufResult α :=
  let cap0 := if fixedCapacity then initialLength else max initialLength p.minFloor
  if allocOk ceiling cap0 then
    .done { elemSize := elementSize, len := 0, cap := cap0, owned := true, isFixed := fixedCapacity, data := [] }
  else .failed b.degrade

/-- `append(buffer, count, sourcePointer)` (40_buffer_ops.md R67). DESIGN CHOICE (log entry 23): the rule's reallocation
preserves the valid elements and says nothing of the storage behind them; the model keeps that too. -/
def Buffer.append {α : Type} [DecidableEq α] (z : α) (p : Params) (ceiling : Option Nat) (b : Buffer α) (xs : List α) :
    BufResult α :=
  if b.len + xs.length > b.cap then
    if b.isFixed then .failed b.degrade
    else if allocOk ceiling (growCap p b.cap b.len xs.length) then
      .done (Buffer.put z { b with cap := growCap p b.cap b.len xs.length } xs)
    else .failed b.degrade
  else .done (b.put z xs)

/-- `clear(buffer)` (40_buffer_ops.md R69): capacity and storage untouched. -/
def Buffer.clear {α : Type} (b : Buffer α) : Buffer α := { b with len := 0 }

/-- `copyFrom(dest, source)` (40_buffer_ops.md R68): a no-op on an empty source, which does not clear `dest`. -/
def Buffer.copyFrom {α : Type} [DecidableEq α] (z : α) (p : Params) (ceiling : Option Nat) (dest : Buffer α)
    (source : List α) : BufResult α :=
  if source = [] then .done dest else dest.clear.append z p ceiling source

/-- `release(buffer)` (40_buffer_ops.md R70): idempotent; the storage is freed only where the buffer owns it. -/
def Buffer.release {α : Type} (b : Buffer α) : Buffer α :=
  if b.cap = 0 ∧ b.len = 0 then b
  else if b.owned then { b with len := 0, cap := 0, data := [] }
  else { b with len := 0, cap := 0 }

/-- A successful fixed-capacity creation (40_buffer_ops.md R66), as `START` makes its buffers (R72). -/
def Buffer.fresh {α : Type} (elemSize cap : Nat) : Buffer α where
  elemSize := elemSize
  len := 0
  cap := cap
  owned := true
  isFixed := true
  data := []

/-- Replace the contents of a buffer the spec sizes for every sequence (40_buffer_ops.md R72: the scratch sequence and the
cache never raise). DESIGN CHOICE: neither the capacity (log entry 26) nor the element size (log entry 27) is tested, so a
buffer that `BUF.CREATE` or `BUF.RELEASE` left too small, or with another element size, takes the sequence too. -/
def Buffer.load {α : Type} [DecidableEq α] (z : α) (b : Buffer α) (xs : List α) : Buffer α := b.clear.put z xs

/-- The ceiling of a symbol buffer: `OUT_CAP` for the output buffer, "enough" for every other (40_buffer_ops.md R71). -/
def symCeiling (p : Params) (b : SymBuf) : Option Nat :=
  match b with
  | .out => some p.outCap
  | .curSeq => none
  | .prevSeq => none

/-- The symbol buffer of that name. -/
def State.symBuf (s : State) (b : SymBuf) : Buffer Symbol :=
  match b with
  | .out => s.out
  | .curSeq => s.curSeq
  | .prevSeq => s.prevSeq

/-- Put a symbol buffer back under its name. -/
def State.setSymBuf (s : State) (b : SymBuf) (v : Buffer Symbol) : State :=
  match b with
  | .out => { s with out := v }
  | .curSeq => { s with curSeq := v }
  | .prevSeq => { s with prevSeq := v }

/-! ### Views of the working registers -/

/-- `CLEAR = 1 << ics` (10_state.md R11). -/
def State.clear (s : State) : Nat := 1 <<< s.ics

/-- `END = CLEAR + 1` (10_state.md R11). -/
def State.endCode (s : State) : Nat := s.clear + 1

/-- `startWidth = ics + 1` (10_state.md R11). -/
def State.startWidth (s : State) : Nat := s.ics + 1

/-- `codeMask = (1 << codeWidth) - 1`, "not independent state" (10_state.md R12). -/
def State.codeMask (s : State) : Code := maskOf s.codeWidth

/-- `bitPos = 8 * byteIdx + bitOff` (10_state.md R14). -/
def State.bitPos (s : State) : Nat := 8 * s.byteIdx + s.bitOff

/-- `MemRead(IN:a, 1)` (20_memory.md R41). -/
def State.inByte (s : State) (a : Nat) : Byte := Memory.read blankByte s.input a

/-- The symbol `OUT` holds at an index (20_memory.md R42). -/
def State.outSymbol (s : State) (i : Nat) : Symbol := Memory.read blankSymbol s.out.data i

/-- What the Code Table's storage holds in a slot; empty where the slot has no value (10_state.md R20, R22). -/
def State.slot (s : State) (i : Nat) : Entry := Memory.read blankEntry s.table.data i

/-- The decoded sequence so far, `OUT[0 .. outLen-1]` (10_state.md R24). -/
def State.outSeq (s : State) : List Symbol := s.out.seq blankSymbol

/-! ### Free values and the ends of a decode -/

/-- The working registers become unspecified when a decode has ended (44_output_bufferer.md R107, 60_exceptions.md R122,
93_implementation_defined.md U4): each is a free value of its width (log entry 6). -/
def forgetWork (s : State) : State :=
  { s with
    ics := Config.freeValue s.freeCtr 0 % 16
    inLen := Config.freeValue s.freeCtr 1 % 2 ^ s.params.inAw
    codeWidth := Config.freeValue s.freeCtr 2 % 16
    byteIdx := Config.freeValue s.freeCtr 3 % 2 ^ (s.params.inAw + 1)
    bitOff := Config.freeValue s.freeCtr 4 % 8
    phase := phaseOfNat (Config.freeValue s.freeCtr 5)
    prevCode :=
      if Config.freeValue s.freeCtr 6 % 2 = 0 then none else some (BitVec.ofNat 12 (Config.freeValue s.freeCtr 7))
    acc := BitVec.ofNat 24 (Config.freeValue s.freeCtr 8)
    codeReg := BitVec.ofNat 12 (Config.freeValue s.freeCtr 9)
    freeCtr := s.freeCtr + 1 }

/-- Release the Code Table with its entries, the scratch sequence and the cached sequence (44_output_bufferer.md R107,
40_buffer_ops.md R72). -/
def releaseDictionary (s : State) : State :=
  { s with table := s.table.release, curSeq := s.curSeq.release, prevSeq := s.prevSeq.release }

/-- Taking an error, the one entry of every decode error (60_exceptions.md R121): everything is released, `out` too,
`HR[4] <- 0`, `ERR` and `RUN` are written. There is no vector, no saved state and no return (R121, R126): the way on is
`START`. -/
def raiseError (e : DecodeError) (s : State) : State :=
  forgetWork
    { releaseDictionary s with
      out := s.out.release
      hrOutLen := 0
      err := some e
      run := .error }

/-- The successful end of a decode (44_output_bufferer.md R107): `HR[4] <- outLen`, the dictionary and the scratch
sequence are released, `out` is kept, `ERR <- 0`, `RUN <- DONE`. -/
def finishDecode (s : State) : State :=
  forgetWork
    { releaseDictionary s with
      hrOutLen := BitVec.ofNat 32 s.out.len
      err := none
      run := .done }

/-- A host read of `w` bits that returns an unspecified value (93_implementation_defined.md U3, U5, U6; log entry 6). -/
def readUnspecified (w : Nat) (s : State) : State :=
  { s with hostData := Config.freeValue s.freeCtr 10 % 2 ^ w, freeCtr := s.freeCtr + 1 }

end Sys2Proof.Machine
end

