-- ==== Sys2Proof/Machine/Operands.lean ====
section
/-! DEFINITION. The operands of a code: the context it is read in, the bytes it is assembled from, the symbol a literal
stands for, and the sequences it names in the Code Table. -/

namespace Sys2Proof.Machine

/-- The context the next code is read in (30_encoding.md R56, R58, R61). -/
def State.ctx (s : State) : Ctx where
  ics := s.ics
  phase := s.phase
  tableLen := s.table.len
  codeWidth := s.codeWidth
  bitOff := s.bitOff
  endAfterClear := s.params.endAfterClear

/-- The `n` bytes of `IN` from the cursor on (41_bit_unpacker.md R74: `MemRead(IN:byteIdx + k, 1)`). -/
def State.bytesAt (s : State) (n : Nat) : List Byte := (List.range n).map fun k => s.inByte (s.byteIdx + k)

/-- Every byte of `IN` from the cursor to the end of the input. -/
def State.restOfInput (s : State) : List Byte := s.bytesAt (s.inLen - s.byteIdx)

/-- The symbol of a literal code, `zext_16(c)` (30_encoding.md R57). -/
def literalSymbol (c : Code) : Symbol := c.setWidth 16

/-- The entry of a slot that is part of the table and holds a sequence, as its first symbol and the rest (10_state.md R20,
42_code_lookup.md R79: validity is `c < tableLen` alone). An empty entry has no first symbol (93_implementation_defined.md
U14) and is none a code may name (10_state.md R37; log entry 8). -/
def lookup (s : State) (c : Code) : Option (Symbol × List Symbol) :=
  if c.toNat < s.table.len then
    match s.slot c.toNat with
    | [] => none
    | x :: xs => some (x, xs)
  else none

/-- Go on with `T[c]`, its first symbol beside it; a lookup that reaches no value is stuck (93_implementation_defined.md
U8, U14). -/
def lookupThen (c : Code) (s : State) (k : Symbol → Entry → Result) : Result :=
  match lookup s c with
  | none => .fault .slotHasNoValue
  | some (x, xs) => k x (x :: xs)

/-- Whether slot `i` of the Code Table is a valid element of its buffer (40_buffer_ops.md R65): it is below `tableLen` and
not a sentinel slot without a value (10_state.md R22). A valid element may be the empty sequence (log entry 8). -/
abbrev State.HasEntry (s : State) (i : Nat) : Prop :=
  i < s.table.len ∧ (s.slot i ≠ [] ∨ (i ≠ s.clear ∧ i ≠ s.endCode))

/-- Go on with the entry of a slot as a buffer of symbols, empty or not (10_state.md R27: each entry is a buffer); a slot
without a value is stuck (93_implementation_defined.md U8, U14). -/
def entryThen (i : Code) (s : State) (k : Entry → Result) : Result :=
  if s.HasEntry i.toNat then k (s.slot i.toNat) else .fault .slotHasNoValue

/-- Go on with `T[prevCode]`, its first symbol beside it (42_code_lookup.md R87 to R89). -/
def prevThen (s : State) (k : Symbol → Entry → Result) : Result :=
  match s.prevCode with
  | none => .fault .prevCodeHasNoValue
  | some p => lookupThen p s k

end Sys2Proof.Machine
end

