-- ==== Sys2Proof/Machine/BufferOps.lean ====
section
/-! DEFINITION. The five Growable Buffer operations as instructions on the core's own buffers (40_buffer_ops.md). -/

namespace Sys2Proof.Machine

/-- Put back a symbol buffer an operation has ended with; a failed one is left degraded and `AllocationError` is raised
(40_buffer_ops.md R66, R67). -/
def storeSym (b : SymBuf) (r : BufResult Symbol) (s : State) : Result :=
  match r with
  | .done v => .next (s.setSymBuf b v)
  | .failed v => .next (raiseError .allocationError (s.setSymBuf b v))

/-- Put back the Code Table's buffer an operation has ended with. -/
def storeTable (r : BufResult Entry) (s : State) : Result :=
  match r with
  | .done v => .next { s with table := v }
  | .failed v => .next (raiseError .allocationError { s with table := v })

/-- `BUF.CREATE` (40_buffer_ops.md R66). An element size of 0 is outside the rule's operands. -/
def execBufCreate (b : BufId) (elementSize initialLength : Nat) (fixedCapacity : Bool) (s : State) : Result :=
  if elementSize = 0 then .refused .elementSizeZero
  else
    match b with
    | .table => storeTable (s.table.create s.params none elementSize initialLength fixedCapacity) s
    | .sym d =>
      storeSym d ((s.symBuf d).create s.params (symCeiling s.params d) elementSize initialLength fixedCapacity) s

/-- Append entries to the Code Table's buffer. DESIGN CHOICE (log entry 24): the spec gives an entry no size in bytes, so an
entry is an element of that buffer whatever element size it was created with. -/
def appendEntries (es : List Entry) (s : State) : Result :=
  storeTable (s.table.append blankEntry s.params none es) s

/-- Append symbols to a symbol buffer whose elements are symbols (40_buffer_ops.md R67: a source "of size `b.elemSize`").
DEDUCED (log entry 25): an empty source has no element of another size, so it fits every buffer (R67: "`count = 0` changes
nothing and cannot fail"). -/
def appendSymbols (d : SymBuf) (xs : List Symbol) (s : State) : Result :=
  if xs = [] ∨ (s.symBuf d).elemSize = Config.symbolBytes then
    storeSym d ((s.symBuf d).append blankSymbol s.params (symCeiling s.params d) xs) s
  else .refused .elementSizeMismatch

/-- `BUF.APPEND` (40_buffer_ops.md R67). Entries are elements of the Code Table, whatever its element size (log entry 24),
symbols of the other buffers; an empty source is one of either kind (log entry 25). -/
def execBufAppend (b : BufId) (src : Elems) (s : State) : Result :=
  match b, src with
  | .table, .entries es => appendEntries es s
  | .sym d, .symbols xs => appendSymbols d xs s
  | .table, .symbols xs => if xs = [] then appendEntries [] s else .refused .elementSizeMismatch
  | .sym d, .entries es => if es = [] then appendSymbols d [] s else .refused .elementSizeMismatch

/-- Copy a sequence of symbols over a symbol buffer (40_buffer_ops.md R68), the two of one element size
(93_implementation_defined.md U13). -/
def copySymbols (d : SymBuf) (elemSize : Nat) (source : List Symbol) (s : State) : Result :=
  if (s.symBuf d).elemSize = elemSize then
    storeSym d ((s.symBuf d).copyFrom blankSymbol s.params (symCeiling s.params d) source) s
  else .refused .elementSizeMismatch

/-- `BUF.COPYFROM` (40_buffer_ops.md R68). An entry of the table is a buffer of symbols, and a valid one that is empty leaves
the destination as it is. A copy of a buffer to itself, or between entries and symbols, has no meaning
(93_implementation_defined.md U13); a copy from a slot without a value is stuck (U8, U14). -/
def execBufCopyFrom (dest : BufId) (source : BufSource) (s : State) : Result :=
  match dest, source with
  | .sym d, .buf (.sym b) =>
    if d = b then .refused .copyToItself
    else copySymbols d (s.symBuf b).elemSize ((s.symBuf b).seq blankSymbol) s
  | .sym d, .entry i => entryThen i s fun e => copySymbols d Config.symbolBytes e s
  | .table, .buf .table => .refused .copyToItself
  | .sym _, .buf .table => .refused .elementSizeMismatch
  | .table, .buf (.sym _) => .refused .elementSizeMismatch
  | .table, .entry _ => .refused .elementSizeMismatch

/-- `BUF.CLEAR` (40_buffer_ops.md R69). -/
def execBufClear (b : BufId) (s : State) : Result :=
  match b with
  | .table => .next { s with table := s.table.clear }
  | .sym d => .next (s.setSymBuf d (s.symBuf d).clear)

/-- `BUF.RELEASE` (40_buffer_ops.md R70). -/
def execBufRelease (b : BufId) (s : State) : Result :=
  match b with
  | .table => .next { s with table := s.table.release }
  | .sym d => .next (s.setSymBuf d (s.symBuf d).release)

end Sys2Proof.Machine
end

