-- ==== Sys2Proof/Machine/Grow.lean ====
section
/-! DEFINITION. The dictionary grow engine (43_dictionary_grow.md): `Grow`, `WidthStep`, `ResetDict`. -/

namespace Sys2Proof.Machine

/-- `WidthStep()` (43_dictionary_grow.md R98). -/
def widthStep (s : State) : State :=
  if s.table.len = 1 <<< s.codeWidth then
    if s.codeWidth < Config.maxWidth then { s with codeWidth := s.codeWidth + 1 }
    else { s with phase := .tableFull }
  else s

/-- `T[tableLen] <- s; tableLen <- tableLen + 1` (43_dictionary_grow.md R97). -/
def appendEntry (e : Entry) (s : State) : State := { s with table := s.table.put blankEntry [e] }

/-- `Grow(s)` (43_dictionary_grow.md R97), then go on. Its precondition is phase `S` and a table that is not full (R97,
R100); outside it the rule gives no effect. DESIGN CHOICE (log entry 21): the rule's operand is a non-empty sequence, and the
model takes an empty one as it takes the others: it is stored, as an empty entry, and counted.
DESIGN CHOICE (log entry 26): R97 tests no capacity, and the model tests none, though R72 calls this an append (R67). -/
def growThen (e : Entry) (s : State) (k : State → Result) : Result :=
  if s.phase ≠ .streaming then .fault .growOutsideStreaming
  else if Config.maxEntries ≤ s.table.len then .fault .growOfFullTable
  else k (widthStep (appendEntry e s))

/-- The scratch sequence `curSeq` holds `e` (10_state.md R26: "the sequence a data-code rule resolves"). DESIGN CHOICE (log
entries 26, 27): untested, whatever its capacity and element size. -/
def holdSeq (e : Entry) (s : State) : State := { s with curSeq := s.curSeq.load blankSymbol e }

/-- A new entry is formed in the scratch sequence: `copyFrom(curSeq, p)`, then `append(curSeq, 1, [x])` (40_buffer_ops.md
R72). DESIGN CHOICE (log entries 26, 27): where R67 and R68 would raise for the capacity, or the element size differs, the
model writes all the same. -/
def formEntry (p : Entry) (x : Symbol) (s : State) : State :=
  { holdSeq p s with curSeq := (holdSeq p s).curSeq.put blankSymbol [x] }

/-- Form the entry `p ++ [x]`, `Grow` it, then go on. -/
def formThenGrow (p : Entry) (x : Symbol) (s : State) (k : State → Result) : Result :=
  growThen ((formEntry p x s).curSeq.seq blankSymbol) (formEntry p x s) k

/-- `ResetDict()` (43_dictionary_grow.md R99): the logical length shrinks, the storage stays. -/
def resetDict (s : State) : State :=
  { s with table := { s.table with len := s.clear + 2 }, codeWidth := s.startWidth }

/-- `Grow` (43_dictionary_grow.md R97). -/
def execGrow (e : Entry) (s : State) : Result := growThen e s fun s' => .next s'

/-- `WidthStep` (43_dictionary_grow.md R98). -/
def execWidthStep (s : State) : Result := .next (widthStep s)

/-- `ResetDict` (43_dictionary_grow.md R99). -/
def execResetDict (s : State) : Result := .next (resetDict s)

end Sys2Proof.Machine
end

