-- ==== Sys2Proof/Machine/Output.lean ====
section
/-! DEFINITION. The output bufferer (44_output_bufferer.md): `Emit`, `Finish`; and `raise` (60_exceptions.md R121). -/

namespace Sys2Proof.Machine

/-- `MemWrite(OUT:outLen + k, 2, s[k])` for every `k`, then `outLen <- outLen + n` (44_output_bufferer.md R105). -/
def putOut (xs : List Symbol) (s : State) : State := { s with out := s.out.put blankSymbol xs }

/-- `Emit(s)` (44_output_bufferer.md R105), then go on. The capacity is tested on the whole sequence before any symbol is
written (R106); an error ends the decode and nothing after it runs. DESIGN CHOICE (log entry 21): the rule's operand is a
non-empty sequence of symbols below `CLEAR`, and the model takes every other as its pseudocode does.
DESIGN CHOICE (log entry 26): the test is R105's, against `OUT_CAP`, and not the one of an append against the buffer's
capacity (R67), though R72 calls this an append.
DESIGN CHOICE (log entry 27): the element size of `out` is not tested. -/
def emitThen (xs : List Symbol) (s : State) (k : State → Result) : Result :=
  if s.out.len + xs.length > s.params.outCap then .next (raiseError .allocationError s) else k (putOut xs s)

/-- `Emit` (44_output_bufferer.md R105). -/
def execEmit (xs : List Symbol) (s : State) : Result := emitThen xs s fun s' => .next s'

/-- `Finish` (44_output_bufferer.md R107). -/
def execFinish (s : State) : Result := .next (finishDecode s)

/-- `raise` (60_exceptions.md R121). -/
def execRaise (e : DecodeError) (s : State) : Result := .next (raiseError e s)

end Sys2Proof.Machine
end

