-- ==== Sys2Proof/Machine/Codes.lean ====
section
/-! DEFINITION. The fifteen codes of the stream (42_code_lookup.md), each the action performed after its code has been
fetched and classified. The order within an action is resolve, `Emit`, `Grow`, write `prevCode` (45_host_operations.md
R113). The scratch sequence is written once `Emit` has gone through: a step that raises leaves no trace of it (R113, log
entry 13). -/

namespace Sys2Proof.Machine

/-- `prevCode <- c`, with the resolved sequence cached: it is `T[c]` from here on (10_state.md R26).
DESIGN CHOICE (log entries 26, 27): the cache is written whatever its capacity and element size. -/
def remember (c : Code) (e : Entry) (s : State) : State :=
  { s with prevCode := some c, prevSeq := s.prevSeq.load blankSymbol e }

/-- A clear in mid-stream (42_code_lookup.md R86): `ResetDict`, `prevCode` no value, phase `F`. -/
def clearDict (s : State) : State := { resetDict s with prevCode := none, phase := .awaitingFirst }

/-- `CLR.R` (42_code_lookup.md R80): `phase <- F`. -/
def execClrR (_ : Code) (s : State) : Result := .next { s with phase := .awaitingFirst }

/-- `ILL.R` (42_code_lookup.md R81). -/
def execIllR (_ : Code) (s : State) : Result := .next (raiseError .expectedInitialClear s)

/-- `LIT.F` (42_code_lookup.md R82): emit, `prevCode <- c`, phase `S`; no entry. -/
def execLitF (c : Code) (s : State) : Result :=
  emitThen [literalSymbol c] s fun s1 =>
    .next { remember c [literalSymbol c] (holdSeq [literalSymbol c] s1) with phase := .streaming }

/-- `END.F` (42_code_lookup.md R83). -/
def execEndF (_ : Code) (s : State) : Result := .next (finishDecode s)

/-- `ILL.F` (42_code_lookup.md R84). -/
def execIllF (_ : Code) (s : State) : Result := .next (raiseError .firstCodeNotLiteral s)

/-- `END.S` (42_code_lookup.md R85). -/
def execEndS (_ : Code) (s : State) : Result := .next (finishDecode s)

/-- `END.T` (42_code_lookup.md R85). -/
def execEndT (_ : Code) (s : State) : Result := .next (finishDecode s)

/-- `CLR.S` (42_code_lookup.md R86). -/
def execClrS (_ : Code) (s : State) : Result := .next (clearDict s)

/-- `CLR.T` (42_code_lookup.md R86). -/
def execClrT (_ : Code) (s : State) : Result := .next (clearDict s)

/-- `LIT.S` (42_code_lookup.md R87): emit `[c]`, `Grow(T[prevCode] ++ [c])`, `prevCode <- c`. -/
def execLitS (c : Code) (s : State) : Result :=
  emitThen [literalSymbol c] s fun s1 =>
    prevThen s1 fun _ p =>
      formThenGrow p (literalSymbol c) s1 fun s2 => .next (remember c [literalSymbol c] s2)

/-- `REF.S` (42_code_lookup.md R88): emit `T[c]`, `Grow(T[prevCode] ++ [first(T[c])])`, `prevCode <- c`. -/
def execRefS (c : Code) (s : State) : Result :=
  lookupThen c s fun x e =>
    emitThen e s fun s1 =>
      prevThen s1 fun _ p =>
        formThenGrow p x s1 fun s2 => .next (remember c e s2)

/-- `KWK.S` (42_code_lookup.md R89): `p ++ [first(p)]` with `p = T[prevCode]`, emitted and stored. -/
def execKwkS (c : Code) (s : State) : Result :=
  prevThen s fun x p =>
    emitThen (p ++ [x]) s fun s1 =>
      formThenGrow p x s1 fun s2 => .next (remember c (p ++ [x]) s2)

/-- `ILL.S` (42_code_lookup.md R90). -/
def execIllS (_ : Code) (s : State) : Result := .next (raiseError .invalidCode s)

/-- `LIT.T` (42_code_lookup.md R91): emit `[c]`, `prevCode <- c`; no growth. -/
def execLitT (c : Code) (s : State) : Result :=
  emitThen [literalSymbol c] s fun s1 => .next (remember c [literalSymbol c] (holdSeq [literalSymbol c] s1))

/-- `REF.T` (42_code_lookup.md R92): emit `T[c]`, `prevCode <- c`; no growth. -/
def execRefT (c : Code) (s : State) : Result :=
  lookupThen c s fun _ e => emitThen e s fun s1 => .next (remember c e (holdSeq e s1))

end Sys2Proof.Machine
end

