-- ==== Sys2Proof/Machine/Start.lean ====
section
/-! DEFINITION. `START` (45_host_operations.md R111): the beginning of one decode. -/

namespace Sys2Proof.Machine

/-- `T[i] <- [i]` for `i < n` (10_state.md R21, R38). -/
def literalSlots (n : Nat) : Memory Entry := (List.range n).map fun i => (i, [BitVec.ofNat 16 i])

/-- The Code Table `START` makes (10_state.md R38, 40_buffer_ops.md R72): fixed, 4096 entries, the literal slots, logical
length `CLEAR + 2`. -/
def freshTable (elemSize ics : Nat) : Buffer Entry :=
  { (Buffer.fresh elemSize Config.maxEntries : Buffer Entry) with
    len := (1 <<< ics) + 2
    data := literalSlots (1 <<< ics) }

/-- The state at the beginning of a decode (10_state.md R38, 45_host_operations.md R111), with the buffers created (R72).
`acc` and the returned code are unspecified (10_state.md R25): free values (log entry 6). -/
def started (s : State) : State :=
  { s with
    ics := s.hrIcs.toNat
    inLen := s.hrInLen
    codeWidth := s.hrIcs.toNat + 1
    byteIdx := 0
    bitOff := 0
    phase := .awaitingReset
    prevCode := none
    acc := BitVec.ofNat 24 (Config.freeValue s.freeCtr 8)
    codeReg := BitVec.ofNat 12 (Config.freeValue s.freeCtr 9)
    table := freshTable s.params.entryBytes s.hrIcs.toNat
    out := Buffer.fresh Config.symbolBytes s.params.outCap
    curSeq := Buffer.fresh Config.symbolBytes Config.scratchCap
    prevSeq := Buffer.fresh Config.symbolBytes Config.scratchCap
    hrOutLen := 0
    err := none
    run := .busy
    freeCtr := s.freeCtr + 1 }

/-- Whether `HR[2].ICS` is in 2..8 (45_host_operations.md R112). -/
def State.icsLegal (s : State) : Bool := decide (Config.icsMin ≤ s.hrIcs.toNat ∧ s.hrIcs.toNat ≤ Config.icsMax)

/-- `START` (45_host_operations.md R111): ignored while `BUSY`; refused before the boot duties are done
(93_implementation_defined.md U2) and for an illegal `ics` (R112, U1); else the beginning of a decode. -/
def execStart (s : State) : Result :=
  if s.run = .busy then .next s
  else if !(s.icsWritten && s.inLenWritten) then .refused .startBeforeBoot
  else if !s.icsLegal then .refused .illegalInitialCodeSize
  else .next (started s)

end Sys2Proof.Machine
end

