-- ==== Sys2Proof/Machine/Unpacker.lean ====
section
/-! DEFINITION. The bit-unpacker (41_bit_unpacker.md): `Fetch`, the only reader of `IN` and the only writer of the Bit
Cursor. -/

namespace Sys2Proof.Machine

/-- The bytes this fetch needs, `nbytes` (41_bit_unpacker.md R74). -/
def State.fetchBytes (s : State) : Nat := bytesNeeded s.bitOff s.codeWidth

/-- Whether the input ends before the code does (41_bit_unpacker.md R74: `byteIdx + nbytes > inLen`). -/
def State.truncated (s : State) : Bool := decide (s.byteIdx + s.fetchBytes > s.inLen)

/-- The state after a fetch that succeeds (41_bit_unpacker.md R74): `acc` filled, the code assembled, the cursor moved on
by `codeWidth` bits and normalised. -/
def fetched (s : State) : State :=
  { s with
    acc := assemble (s.bytesAt s.fetchBytes)
    codeReg := extractCode (assemble (s.bytesAt s.fetchBytes)) s.bitOff s.codeWidth
    byteIdx := s.byteIdx + (s.bitOff + s.codeWidth) / 8
    bitOff := (s.bitOff + s.codeWidth) % 8 }

/-- Fetch, then go on; a fetch past the end raises `TruncatedStream` before any byte is read (41_bit_unpacker.md R74). -/
def fetchThen (s : State) (k : State → Result) : Result :=
  if s.truncated then .next (raiseError .truncatedStream s) else k (fetched s)

/-- `Fetch` (41_bit_unpacker.md R74); the code it returns is left in `codeReg`. -/
def execFetch (s : State) : Result := fetchThen s fun s' => .next s'

end Sys2Proof.Machine
end

