-- ==== Sys2Proof/Machine/Dispatch.lean ====
section
/-! DEFINITION. One arm per instruction, each one call of its meaning. -/

namespace Sys2Proof.Machine

def exec (i : Instr) (s : State) : Host.Outcome State Fault Refusal :=
  match i with
  | .clrR c => Sys2Proof.Machine.execClrR c s
  | .illR c => Sys2Proof.Machine.execIllR c s
  | .litF c => Sys2Proof.Machine.execLitF c s
  | .endF c => Sys2Proof.Machine.execEndF c s
  | .illF c => Sys2Proof.Machine.execIllF c s
  | .endS c => Sys2Proof.Machine.execEndS c s
  | .endT c => Sys2Proof.Machine.execEndT c s
  | .clrS c => Sys2Proof.Machine.execClrS c s
  | .clrT c => Sys2Proof.Machine.execClrT c s
  | .litS c => Sys2Proof.Machine.execLitS c s
  | .refS c => Sys2Proof.Machine.execRefS c s
  | .kwkS c => Sys2Proof.Machine.execKwkS c s
  | .illS c => Sys2Proof.Machine.execIllS c s
  | .litT c => Sys2Proof.Machine.execLitT c s
  | .refT c => Sys2Proof.Machine.execRefT c s
  | .start => Sys2Proof.Machine.execStart s
  | .bufCreate b elementSize initialLength fixedCapacity => Sys2Proof.Machine.execBufCreate b elementSize initialLength fixedCapacity s
  | .bufAppend b src => Sys2Proof.Machine.execBufAppend b src s
  | .bufCopyFrom dest source => Sys2Proof.Machine.execBufCopyFrom dest source s
  | .bufClear b => Sys2Proof.Machine.execBufClear b s
  | .bufRelease b => Sys2Proof.Machine.execBufRelease b s
  | .fetch => Sys2Proof.Machine.execFetch s
  | .grow e => Sys2Proof.Machine.execGrow e s
  | .widthStep => Sys2Proof.Machine.execWidthStep s
  | .resetDict => Sys2Proof.Machine.execResetDict s
  | .emit xs => Sys2Proof.Machine.execEmit xs s
  | .finish => Sys2Proof.Machine.execFinish s
  | .raise e => Sys2Proof.Machine.execRaise e s

end Sys2Proof.Machine
end

