-- ==== Sys2Proof/Machine/HostAccess.lean ====
section
/-! DEFINITION. What the host can do to the machine: register reads and writes (10_state.md R31 to R36), a write of `IN`
and a read of `OUT` (20_memory.md R40 to R42), hardware reset (70_reset_and_hazards.md R140). -/

namespace Sys2Proof.Machine

/-- `HR[3]` keeps bits `IN_AW-1:0` of what is written (10_state.md R35), for every `IN_AW` (00_scope.md R4). DESIGN CHOICE
(log entry 22): above 32 the register is `IN_AW` bits wide, though R31 makes the file's registers 32 bits. -/
def maskInLen (p : Params) (v : Nat) : Nat := v % 2 ^ p.inAw

/-- A host write to a register (10_state.md R32 to R36): a command at `HR[0]`; `HR[2]` and `HR[3]` while not `BUSY`; the
read-only registers ignore it. -/
def writeReg (n : Nat) (v : Nat) (s : State) : Result :=
  match n with
  | 0 =>
    match decodeHostWrite 0 (BitVec.ofNat 32 v) with
    | some i => exec i s
    | none => .next s
  | 1 => .next s
  | 2 => if s.run = .busy then .next s else .next { s with hrIcs := BitVec.ofNat 4 v, icsWritten := true }
  | 3 => if s.run = .busy then .next s else .next { s with hrInLen := maskInLen s.params v, inLenWritten := true }
  | 4 => .next s
  | _ => .refused .noSuchHostRegister

/-- A host read of a register (10_state.md R32 to R36); `HR[4]` while `BUSY` returns an unspecified value (U6). -/
def readReg (n : Nat) (s : State) : Result :=
  match n with
  | 0 => .next { s with hostData := 0 }
  | 1 => .next { s with hostData := (statusWord s).toNat }
  | 2 => .next { s with hostData := s.hrIcs.toNat }
  | 3 => .next { s with hostData := s.hrInLen }
  | 4 => if s.run = .busy then .next (readUnspecified 32 s) else .next { s with hostData := s.hrOutLen.toNat }
  | _ => .refused .noSuchHostRegister

/-- A host write of one byte of `IN` (20_memory.md R40): refused while `BUSY` (93_implementation_defined.md U7); an index
at or above 2^`IN_AW` does not exist (log entry 15). -/
def writeIn (a : Nat) (v : Byte) (s : State) : Result :=
  if s.run = .busy then .refused .inputWriteWhileBusy
  else if a < 2 ^ s.params.inAw then .next { s with input := Memory.write blankByte s.input a v }
  else .fault .inputIndexOutOfRange

/-- A host read of one symbol of `OUT` (20_memory.md R40, 44_output_bufferer.md R107): the result at `DONE` below
`OUT_LEN`, an unspecified value otherwise (93_implementation_defined.md U2, U3, U5, U6). -/
def readOut (i : Nat) (s : State) : Result :=
  if s.params.outCap ≤ i then .fault .outputIndexOutOfRange
  else if s.run = .done ∧ i < s.hrOutLen.toNat then .next { s with hostData := (s.outSymbol i).toNat }
  else .next (readUnspecified 16 s)

/-- The hardware reset event (70_reset_and_hazards.md R140): every element at its reset value. The parameters are the
machine's, the agenda and the counter of free values are the model's, and stay. -/
def hardReset (s : State) : State :=
  { State.reset with params := s.params, agenda := s.agenda, freeCtr := s.freeCtr }

/-- One access of the host. -/
def hostAccess (a : HostAccess) (s : State) : Result :=
  match a with
  | .writeReg n v => writeReg n v s
  | .readReg n => readReg n s
  | .writeIn i v => writeIn i v s
  | .readOut i => readOut i s
  | .hardReset => .next (hardReset s)

end Sys2Proof.Machine
end

