-- ==== Sys2Proof/Machine/Run.lean ====
section
/-! DEFINITION. The run loop (45_host_operations.md R113): one code step, one turn of the core or of the host, and the
placing of one instruction where the next step runs it. -/

namespace Sys2Proof.Machine

/-- One code step (45_host_operations.md R113): fetch, classify by phase and value, perform the action. -/
def codeStep (s : State) : Result := fetchThen s fun s' => exec (classify s'.ctx s'.codeReg) s'

/-- The core's move (10_state.md R10): a code step while `BUSY`, nothing otherwise (60_exceptions.md R133). -/
def coreTurn (s : State) : Result := if s.run = .busy then codeStep s else .next s

/-- One move of the machine: the next listed turn, or the core's when none is listed (log entry 5). -/
def turn (s : State) : Result :=
  match s.agenda with
  | [] => coreTurn s
  | .core :: rest => coreTurn { s with agenda := rest }
  | .host a :: rest => hostAccess a { s with agenda := rest }

/-- The first three bytes of `IN` from a list, the others unlisted. -/
def inputOf (bs : List Byte) : List Host.Cell := Memory.writeSeq blankByte [] 0 bs

/-- Place a table word where the next step runs it (log entry 7). A host word becomes a pending host write to `HR[0]` of a
machine that is idle and booted for `ics = 8` with an empty input; a stream code becomes the first code of a decode with
`ics = 8` that has just started on the word's three bytes. -/
def placeWord (s : State) (nbits w : Nat) : State :=
  if isHostWord nbits then
    { s with
      run := .idle
      hrIcs := 8
      hrInLen := 0
      icsWritten := true
      inLenWritten := true
      agenda := [.host (.writeReg 0 w)] }
  else
    { started { s with hrIcs := 8, hrInLen := 3, icsWritten := true, inLenWritten := true } with
      params := { s.params with endAfterClear := .accept }
      input := inputOf (bytesOf 3 w)
      agenda := [] }

end Sys2Proof.Machine
end

