-- ==== Sys2Proof/Machine/Step.lean ====
section
/-! DEFINITION. The step of the machine, and the placing of one instruction for the next step. -/

namespace Sys2Proof.Machine

/-- One step: one move of the core or of the host. -/
def step (s : State) : Host.Outcome State Fault Refusal := turn s

/-- `s` with one table word placed where the next step fetches it (log entry 7). -/
def State.withFetchWord (s : State) (nbits w : Nat) : State := placeWord s nbits w

end Sys2Proof.Machine
end

