-- ==== Sys2Proof/Safety.lean ====
section
/-! DEFINITION. The terms statements use: the invariants between code steps (10_state.md R37), what two states have in
common (the frames), and the collation listing of 45_host_operations.md as a decoder over plain lists. -/

namespace Sys2Proof.Machine

/-! ### The invariants -/

/-- Every store is in its canonical form. -/
abbrev StoresOk (s : State) : Prop :=
  Memory.wf blankByte s.input ∧ Memory.wf blankEntry s.table.data ∧ Memory.wf blankSymbol s.out.data ∧
    Memory.wf blankSymbol s.curSeq.data ∧ Memory.wf blankSymbol s.prevSeq.data

/-- What slot `i` of the Code Table holds while a decode runs: a literal (10_state.md R21), nothing in a sentinel slot
(R22), or a grown entry within the length bounds of R37 item 6 and 43_dictionary_grow.md R101, its symbols below `CLEAR`
(R23). -/
abbrev SlotOk (s : State) (i : Nat) : Prop :=
  if i < s.clear then s.slot i = [BitVec.ofNat 16 i]
  else if i ≤ s.endCode then s.slot i = []
  else 2 ≤ (s.slot i).length ∧ (s.slot i).length ≤ i - s.clear ∧ ∀ v ∈ s.slot i, v.toNat < s.clear

/-- The previous code between code steps: a table index that is no sentinel, with its sequence cached (10_state.md R17,
R26, R37 item 5). -/
abbrev PrevOk (s : State) : Prop :=
  s.prevCode.isSome = true ∧
    ∀ p ∈ s.prevCode, p.toNat < s.table.len ∧ p.toNat ≠ s.clear ∧ p.toNat ≠ s.endCode ∧
      s.prevSeq.seq blankSymbol = s.slot p.toNat

/-- The decode constants and the host registers they were latched from (10_state.md R11, R13, R115 of
45_host_operations.md). -/
abbrev LatchOk (s : State) : Prop :=
  2 ≤ s.ics ∧ s.ics ≤ 8 ∧ s.ics = s.hrIcs.toNat ∧ s.inLen = s.hrInLen ∧ s.icsWritten = true ∧
    s.inLenWritten = true

/-- The width and the table length by phase (10_state.md R37 items 1 to 4). -/
abbrev WidthOk (s : State) : Prop :=
  s.startWidth ≤ s.codeWidth ∧ s.codeWidth ≤ 12 ∧ s.clear + 2 ≤ s.table.len ∧ s.table.len ≤ 4096 ∧
    (s.phase ≠ .tableFull → s.table.len < 2 ^ s.codeWidth) ∧
    (s.phase = .tableFull → s.table.len = 4096 ∧ s.codeWidth = 12) ∧
    (s.phase = .awaitingReset ∨ s.phase = .awaitingFirst →
      s.table.len = s.clear + 2 ∧ s.codeWidth = s.startWidth ∧ s.prevCode = none) ∧
    (s.phase = .streaming ∨ s.phase = .tableFull → PrevOk s)

/-- The Bit Cursor (10_state.md R37 item 7). -/
abbrev CursorOk (s : State) : Prop := s.bitOff < 8 ∧ s.bitPos ≤ 8 * s.inLen

/-- The output (10_state.md R23, R24, R37 item 8) and the buffers as `START` creates them (40_buffer_ops.md R72). -/
abbrev OutputOk (s : State) : Prop :=
  s.out.len ≤ s.params.outCap ∧ s.out.cap = s.params.outCap ∧ s.out.isFixed = true ∧
    (s.phase = .awaitingReset → s.out.len = 0) ∧ (∀ i < s.out.len, (s.outSymbol i).toNat < s.clear) ∧
    s.table.cap = 4096 ∧ s.table.isFixed = true

/-- The invariants of a running decode between code steps (10_state.md R37). -/
abbrev BusyOk (s : State) : Prop :=
  LatchOk s ∧ WidthOk s ∧ (∀ i < s.table.len, SlotOk s i) ∧ CursorOk s ∧ OutputOk s

/-- The host registers in every run status (10_state.md R33, R35, R36). -/
abbrev StatusOk (s : State) : Prop :=
  (s.run = .error ↔ s.err.isSome = true) ∧ (s.run ≠ .done → s.hrOutLen = 0) ∧
    (s.run = .done → s.hrOutLen.toNat = s.out.len ∧ s.out.len ≤ s.params.outCap) ∧
    (s.run = .idle → s.out.len = 0) ∧ s.hrInLen < 2 ^ s.params.inAw

/-- The invariant of the machine: what every step keeps. -/
abbrev Inv (s : State) : Prop := s.params.ok ∧ StoresOk s ∧ StatusOk s ∧ (s.run = .busy → BusyOk s)

/-! ### Frames: what two states have in common -/

/-- The parameters, the host-written registers and the model's own agenda and host data. -/
def SameHost (s t : State) : Prop :=
  t.params = s.params ∧ t.hrIcs = s.hrIcs ∧ t.hrInLen = s.hrInLen ∧ t.icsWritten = s.icsWritten ∧
    t.inLenWritten = s.inLenWritten ∧ t.agenda = s.agenda ∧ t.hostData = s.hostData

/-- Every byte of `IN`. -/
def SameInput (s t : State) : Prop := ∀ a, t.inByte a = s.inByte a

/-- The status registers `HR[1]` and `HR[4]`. -/
def SameStatus (s t : State) : Prop := t.run = s.run ∧ t.err = s.err ∧ t.hrOutLen = s.hrOutLen

/-- The latched constants `ics` (with it `CLEAR`, `END`, `startWidth`) and `inLen`. -/
def SameLatch (s t : State) : Prop := t.ics = s.ics ∧ t.inLen = s.inLen

/-- The Bit Cursor, the accumulator and the returned code. -/
def SameCursor (s t : State) : Prop :=
  t.byteIdx = s.byteIdx ∧ t.bitOff = s.bitOff ∧ t.acc = s.acc ∧ t.codeReg = s.codeReg

/-- The attributes of a buffer other than its length. -/
def Buffer.SameAttributes {α : Type} (b c : Buffer α) : Prop :=
  c.elemSize = b.elemSize ∧ c.cap = b.cap ∧ c.owned = b.owned ∧ c.isFixed = b.isFixed

/-- The Code Table: length, attributes, every slot. -/
def SameTable (s t : State) : Prop :=
  t.table.len = s.table.len ∧ s.table.SameAttributes t.table ∧ ∀ i, t.slot i = s.slot i

/-- The output store: length, attributes, every symbol. -/
def SameOut (s t : State) : Prop :=
  t.out.len = s.out.len ∧ s.out.SameAttributes t.out ∧ ∀ i, t.outSymbol i = s.outSymbol i

/-- The scratch sequence and the cached sequence. -/
def SameScratch (s t : State) : Prop := t.curSeq = s.curSeq ∧ t.prevSeq = s.prevSeq

/-- Everything outside the decoder's working state: the host's registers and data, `IN`, the latched constants, the
status, the cursor. An action of a code that neither ends the decode nor fetches leaves all of it. -/
def SameSurroundings (s t : State) : Prop :=
  SameHost s t ∧ SameInput s t ∧ SameLatch s t ∧ SameStatus s t ∧ SameCursor s t ∧ t.freeCtr = s.freeCtr

/-- The output store after `xs` has been appended: the new symbols at `outLen` and up in order, every other index as
before (20_memory.md R42, 44_output_bufferer.md R105). -/
def Emitted (xs : List Symbol) (s t : State) : Prop :=
  t.out.len = s.out.len + xs.length ∧ s.out.SameAttributes t.out ∧
    (∀ k (h : k < xs.length), t.outSymbol (s.out.len + k) = xs[k]) ∧
    ∀ i, i < s.out.len ∨ s.out.len + xs.length ≤ i → t.outSymbol i = s.outSymbol i

/-- The Code Table after the entry `e` has taken the next free index (43_dictionary_grow.md R97): slot `tableLen` holds
it, every other slot is as before. -/
def Grown (e : Entry) (s t : State) : Prop :=
  t.table.len = s.table.len + 1 ∧ s.table.SameAttributes t.table ∧ t.slot s.table.len = e ∧
    ∀ i, i ≠ s.table.len → t.slot i = s.slot i

/-- `codeWidth` and `phase` after an entry has been added (43_dictionary_grow.md R98): one more bit at a power of two
below width 12, phase `T` at width 12, else both as before. -/
def WidthStepped (s t : State) : Prop :=
  if t.table.len = 2 ^ s.codeWidth then
    (if s.codeWidth < 12 then t.codeWidth = s.codeWidth + 1 ∧ t.phase = s.phase
     else t.codeWidth = s.codeWidth ∧ t.phase = .tableFull)
  else t.codeWidth = s.codeWidth ∧ t.phase = s.phase

/-- `prevCode <- c`, its sequence in the cache (10_state.md R17, R26). -/
def Remembered (c : Code) (e : Entry) (s t : State) : Prop :=
  t.prevCode = some c ∧ t.prevSeq.seq blankSymbol = e ∧ s.prevSeq.SameAttributes t.prevSeq

/-- The scratch sequence holds `e` (10_state.md R26, 40_buffer_ops.md R72; log entry 13). -/
def InScratch (e : Entry) (s t : State) : Prop :=
  t.curSeq.seq blankSymbol = e ∧ s.curSeq.SameAttributes t.curSeq

/-- A buffer in the "empty, zero-capacity state" (40_buffer_ops.md R70). -/
def Buffer.Empty {α : Type} (b : Buffer α) : Prop := b.len = 0 ∧ b.cap = 0

/-- What an error leaves (60_exceptions.md R121): the status, `HR[4] = 0`, every buffer released; the host's registers,
`IN` and the parameters are untouched. Of the working registers and of `OUT` nothing is said (R122). -/
def EndedInError (e : DecodeError) (s t : State) : Prop :=
  t.run = .error ∧ t.err = some e ∧ t.hrOutLen = 0 ∧ t.table.Empty ∧ t.out.Empty ∧ t.curSeq.Empty ∧
    t.prevSeq.Empty ∧ SameHost s t ∧ SameInput s t

/-- What a successful end leaves (44_output_bufferer.md R107): `RUN = DONE`, `ERR = 0`, `HR[4] = outLen`, `OUT` as it is,
the dictionary and the scratch sequences released. Of the working registers nothing is said. -/
def EndedWell (s t : State) : Prop :=
  t.run = .done ∧ t.err = none ∧ t.hrOutLen = BitVec.ofNat 32 s.out.len ∧ SameOut s t ∧ t.table.Empty ∧
    t.curSeq.Empty ∧ t.prevSeq.Empty ∧ SameHost s t ∧ SameInput s t

/-! ### The collation listing (45_host_operations.md), over plain lists and one whole number -/

/-- The variables of the collation listing: the stream position in bits, the width, the phase, the table as a list of its
`tableLen` entries, the previous code, the output. -/
structure Listing where
  pos : Nat
  width : Nat
  phase : Phase
  table : List Entry
  prev : Option Nat
  out : List Symbol
deriving DecidableEq, Repr

/-- How one turn of the listing's loop ends. -/
inductive ListingEnd where
  | goOn (l : Listing)
  | returned (out : List Symbol)
  | raised (e : DecodeError)
deriving DecidableEq, Repr

/-- What a decode is given: `ics`, the input as one little-endian number with its length in bytes (20_memory.md R44: "the
whole buffer read as one little-endian number"), `OUT_CAP` (R114), and the configuration of `END` (log entry 12). -/
structure ListingInput where
  ics : Nat
  inLen : Nat
  number : Nat
  outCap : Nat
  endAfterClear : EndAfterClear
deriving DecidableEq, Repr

/-- `Emit`, then the rest of the turn. -/
def ListingInput.emit (d : ListingInput) (l : Listing) (s : Entry) (k : Listing → ListingEnd) : ListingEnd :=
  if l.out.length + s.length > d.outCap then .raised .allocationError else k { l with out := l.out ++ s }

/-- The last part of a turn in phases `S` and `T`: with the resolved sequence `s`, emit it, grow in phase `S`, write the
previous code. -/
def ListingInput.data (d : ListingInput) (l : Listing) (c : Nat) (s : Entry) : ListingEnd :=
  d.emit l s fun l =>
    let e := l.table.getD (l.prev.getD 0) [] ++ s.take 1
    let l1 : Listing := { l with prev := some c }
    if l.phase = .streaming then
      let l2 : Listing := { l1 with table := l.table ++ [e] }
      if l.table.length + 1 = 2 ^ l.width then
        if l.width < 12 then .goOn { l2 with width := l.width + 1 } else .goOn { l2 with phase := .tableFull }
      else .goOn l2
    else .goOn l1

/-- The tests of the listing on the code `c`. The spec's listing accepts `END` in phase `F`; the test of `endAfterClear`
beside it is the model's, for the alternative configuration of 92_eei_decisions.md D6 (log entry 12). -/
def ListingInput.act (d : ListingInput) (l : Listing) (c : Nat) : ListingEnd :=
  let clear := 2 ^ d.ics
  match l.phase with
  | .awaitingReset => if c ≠ clear then .raised .expectedInitialClear else .goOn { l with phase := .awaitingFirst }
  | .awaitingFirst =>
    if c < clear then
      d.emit l [BitVec.ofNat 16 c] fun l => .goOn { l with prev := some c, phase := .streaming }
    else if c = clear + 1 ∧ d.endAfterClear = .accept then .returned l.out
    else .raised .firstCodeNotLiteral
  | .streaming =>
    if c = clear + 1 then .returned l.out
    else if c = clear then
      .goOn { l with table := l.table.take (clear + 2), width := d.ics + 1, prev := none, phase := .awaitingFirst }
    else if c < l.table.length then d.data l c (l.table.getD c [])
    else if c = l.table.length then
      d.data l c (l.table.getD (l.prev.getD 0) [] ++ (l.table.getD (l.prev.getD 0) []).take 1)
    else .raised .invalidCode
  | .tableFull =>
    if c = clear + 1 then .returned l.out
    else if c = clear then
      .goOn { l with table := l.table.take (clear + 2), width := d.ics + 1, prev := none, phase := .awaitingFirst }
    else if c < l.table.length then d.data l c (l.table.getD c [])
    else .raised .invalidCode

/-- One turn of the listing's loop: `code = (V >> p) & ((1 << w) - 1)` (20_memory.md R44), truncated where
`p + w > 8 * inLen` (41_bit_unpacker.md R75). -/
def ListingInput.turn (d : ListingInput) (l : Listing) : ListingEnd :=
  if l.pos + l.width > 8 * d.inLen then .raised .truncatedStream
  else d.act { l with pos := l.pos + l.width } ((d.number >>> l.pos) &&& ((1 <<< l.width) - 1))

/-- At most `n` turns of the loop. -/
def ListingInput.turns (d : ListingInput) : Nat → Listing → ListingEnd
  | 0, l => .goOn l
  | n + 1, l =>
    match d.turn l with
    | .goOn l' => d.turns n l'
    | .returned q => .returned q
    | .raised e => .raised e

/-- The first line of the listing: the literal entries, two sentinel slots without a sequence, phase `R`, bit 0. -/
def ListingInput.begin (d : ListingInput) : Listing where
  pos := 0
  width := d.ics + 1
  phase := .awaitingReset
  table := ((List.range (2 ^ d.ics)).map fun i => [BitVec.ofNat 16 i]) ++ [[], []]
  prev := none
  out := []

/-- Bytes as one little-endian number (20_memory.md R44). -/
def littleEndian : List Byte → Nat
  | [] => 0
  | b :: bs => b.toNat + 256 * littleEndian bs

/-- What the decode in a state is given. -/
def State.listingInput (s : State) : ListingInput where
  ics := s.ics
  inLen := s.inLen
  number := littleEndian ((List.range s.inLen).map s.inByte)
  outCap := s.params.outCap
  endAfterClear := s.params.endAfterClear

/-- The variables of the listing in a state. -/
def State.listing (s : State) : Listing where
  pos := s.bitPos
  width := s.codeWidth
  phase := s.phase
  table := (List.range s.table.len).map s.slot
  prev := s.prevCode.map BitVec.toNat
  out := s.outSeq

/-- Whether a state shows the host the outcome a turn of the listing ended with (45_host_operations.md R116, R117). -/
def Shows (t : State) : ListingEnd → Prop
  | .goOn l => t.run = .busy ∧ t.listing = l
  | .returned q => t.run = .done ∧ t.err = none ∧ t.hrOutLen.toNat = q.length ∧ t.outSeq = q
  | .raised e => t.run = .error ∧ t.err = some e ∧ t.hrOutLen = 0

end Sys2Proof.Machine
end

