-- ==== Sys2Proof/Certificates/Slice0/Obligations.lean ====
section
/-! DEFINITION. The statements for the provers, one `def Obligations.<Name> : Prop` each, in the order of
OBLIGATIONS.json. -/

open Sys2Proof Sys2Proof.Machine

/-! ### Encoding and decoding -/

/-- 30_encoding.md R58: the rows of the code map are complete and disjoint. A code instruction is well formed for the
value `c` in a context exactly when it is the one the decoder selects there. Of contexts no run reaches, where
`tableLen` is not above `END` or a full table has fewer than 4096 entries, R58 does not say it: there the rows are the
model's (log entry 20); that `END` in phase `F` is `ILL.F` in the configuration that rejects it is log entry 12. -/
def Obligations.CodeMapIsCompleteAndDisjoint : Prop :=
  ∀ (x : Ctx) (c : Code) (i : Instr),
    (wellFormed x i = true ∧ i.code = some c) ↔ (x.fits c = true ∧ i = classify x c)

/-- 30_encoding.md R55, R56: what the encoder writes for a well-formed instruction, whatever follows it in the input,
the decoder reads back with every bit of the code, and the cursor moves on by the width. The host command is read back
too. -/
def Obligations.DecodeOfEncodeIsTheInstruction : Prop :=
  ∀ (x : Ctx) (i : Instr), wellFormed x i = true → x.bitOff < 8 → x.codeWidth ≤ 12 →
    (∀ bs rest, encode x i = .stream bs →
      decode x (bs ++ rest) = .instr i ((x.bitOff + x.codeWidth) / 8) ((x.bitOff + x.codeWidth) % 8)) ∧
    (∀ n v, encode x i = .hostWrite n v → decodeHostWrite n v = some i)

/-- Words written out by hand from 30_encoding.md R55, R56, R58 and 10_state.md R32: one per phase and class. -/
def Obligations.WrittenWordsDecode : Prop :=
  let r : Ctx := { ics := 2, phase := .awaitingReset, tableLen := 6, codeWidth := 3, bitOff := 0, endAfterClear := .accept }
  let f : Ctx := { r with phase := .awaitingFirst, bitOff := 3 }
  let s : Ctx := { r with phase := .streaming, tableLen := 8, codeWidth := 4, bitOff := 4 }
  let t : Ctx := { r with phase := .tableFull, tableLen := 4096, codeWidth := 12, bitOff := 4 }
  decode r [0b00000100] = .instr (.clrR 4) 0 3 ∧ decode r [0b00000101] = .instr (.illR 5) 0 3 ∧
    decode f [0b00001000] = .instr (.litF 1) 0 6 ∧ decode f [0b00101000] = .instr (.endF 5) 0 6 ∧
    decode f [0b00100000] = .instr (.illF 4) 0 6 ∧ decode s [0b00100000] = .instr (.litS 2) 1 0 ∧
    decode s [0b01110000] = .instr (.refS 7) 1 0 ∧ decode s [0b10000000] = .instr (.kwkS 8) 1 0 ∧
    decode s [0b10010000] = .instr (.illS 9) 1 0 ∧ decode s [0b01000000] = .instr (.clrS 4) 1 0 ∧
    decode s [0b01010000] = .instr (.endS 5) 1 0 ∧ decode t [0b11110000, 0b11111111] = .instr (.refT 4095) 2 0 ∧
    decode t [0b00000000, 0b00000000] = .instr (.litT 0) 2 0 ∧
    decode t [0b01000000, 0b00000000] = .instr (.clrT 4) 2 0 ∧
    decode t [0b01010000, 0b00000000] = .instr (.endT 5) 2 0 ∧ decode t [0b01010000] = .rejected .truncatedStream ∧
    decodeHostWrite 0 3 = some .start ∧ decodeHostWrite 0 2 = none ∧ decodeHostWrite 2 1 = none

/-! ### The bit-unpacker -/

/-- 30_encoding.md R56, 41_bit_unpacker.md R74: where enough bits remain, `Fetch` completes; bit `j` of the returned
code is bit `(bitOff + j) mod 8` of `IN[byteIdx + (bitOff + j) div 8]`, no higher bit is set, the cursor moves on by
exactly `codeWidth` bits and is normalised, and nothing but the accumulator, the returned code and the
cursor changes. -/
def Obligations.FetchReadsTheCodeLowBitFirst : Prop :=
  ∀ s : State, s.bitOff < 8 → s.codeWidth ≤ 12 → s.bitPos + s.codeWidth ≤ 8 * s.inLen →
    ∃ t, exec .fetch s = .next t ∧
      (∀ j, j < s.codeWidth →
        t.codeReg.getLsbD j = (s.inByte (s.byteIdx + (s.bitOff + j) / 8)).getLsbD ((s.bitOff + j) % 8)) ∧
      (∀ j, s.codeWidth ≤ j → t.codeReg.getLsbD j = false) ∧
      t.bitPos = s.bitPos + s.codeWidth ∧ t.bitOff < 8 ∧
      SameHost s t ∧ SameInput s t ∧ SameLatch s t ∧ SameStatus s t ∧ SameTable s t ∧ SameOut s t ∧
      SameScratch s t ∧ t.codeWidth = s.codeWidth ∧ t.phase = s.phase ∧ t.prevCode = s.prevCode

/-- 41_bit_unpacker.md R75: the byte test of `Fetch` is the test whether fewer bits remain than the code needs. `Fetch`
raises `TruncatedStream` (60_exceptions.md R120 code 4, R121) exactly then, and otherwise leaves the cursor inside the
input. -/
def Obligations.TruncationTestIsFewerBitsThanTheCode : Prop :=
  ∀ s : State,
    (s.byteIdx + (s.bitOff + s.codeWidth + 7) / 8 > s.inLen ↔ 8 * s.byteIdx + s.bitOff + s.codeWidth > 8 * s.inLen) ∧
    (8 * s.byteIdx + s.bitOff + s.codeWidth > 8 * s.inLen →
      ∃ t, exec .fetch s = .next t ∧ EndedInError .truncatedStream s t) ∧
    (8 * s.byteIdx + s.bitOff + s.codeWidth ≤ 8 * s.inLen →
      ∃ t, exec .fetch s = .next t ∧ t.run = s.run ∧ 8 * t.byteIdx + t.bitOff ≤ 8 * t.inLen)

/-- 41_bit_unpacker.md R77, 20_memory.md R47: what a fetch returns depends on nothing but the cursor, the width, the
input length and the bytes the code lies in; two machines that agree on these fetch the same code, whatever else
differs. -/
def Obligations.FetchDependsOnTheCodesBytesOnly : Prop :=
  ∀ s t : State, t.byteIdx = s.byteIdx → t.bitOff = s.bitOff → t.codeWidth = s.codeWidth → t.inLen = s.inLen →
    (∀ a, s.byteIdx ≤ a → a < s.byteIdx + (s.bitOff + s.codeWidth + 7) / 8 → t.inByte a = s.inByte a) →
    s.bitPos + s.codeWidth ≤ 8 * s.inLen →
    ∃ s' t', exec .fetch s = .next s' ∧ exec .fetch t = .next t' ∧ t'.codeReg = s'.codeReg ∧ t'.acc = s'.acc ∧
      t'.byteIdx = s'.byteIdx ∧ t'.bitOff = s'.bitOff

/-! ### The codes -/

/-- 42_code_lookup.md R80: `CLR.R` sets phase `F` and changes nothing else. -/
def Obligations.LeadingClearOnlyChangesPhase : Prop :=
  ∀ (c : Code) (s : State), ∃ t, exec (.clrR c) s = .next t ∧ t.phase = .awaitingFirst ∧
    t.prevCode = s.prevCode ∧ t.codeWidth = s.codeWidth ∧ SameTable s t ∧ SameOut s t ∧ SameScratch s t ∧
    SameSurroundings s t

/-- 42_code_lookup.md R81, R84, R90 with 60_exceptions.md R120, R121: the three illegal codes end the decode with error
codes 1, 2 and 3. Their own effect is this error. -/
def Obligations.IllegalCodesEndTheDecode : Prop :=
  ∀ (c : Code) (s : State),
    (∃ t, exec (.illR c) s = .next t ∧ EndedInError .expectedInitialClear s t ∧ statusWord t = 0x13) ∧
    (∃ t, exec (.illF c) s = .next t ∧ EndedInError .firstCodeNotLiteral s t ∧ statusWord t = 0x23) ∧
    (∃ t, exec (.illS c) s = .next t ∧ EndedInError .invalidCode s t ∧ statusWord t = 0x33)

/-- 42_code_lookup.md R82: with room for one symbol, `LIT.F` emits its code as a symbol, becomes the previous code
and sets phase `S`; no table entry, no width change, nothing else. That the scratch sequence holds what was emitted
is the model's (log entry 13, from 10_state.md R26). On buffers whose capacity or element size is not the one `START`
gives, the scratch and the cached sequence among them, that neither is tested is the model's (log entries 26, 27). -/
def Obligations.FirstLiteralEmitsWithoutGrowing : Prop :=
  ∀ (c : Code) (s : State), s.out.len + 1 ≤ s.params.outCap →
    ∃ t, exec (.litF c) s = .next t ∧ Emitted [c.setWidth 16] s t ∧ Remembered c [c.setWidth 16] s t ∧
      InScratch [c.setWidth 16] s t ∧ t.phase = .streaming ∧ t.codeWidth = s.codeWidth ∧ SameTable s t ∧
      SameSurroundings s t

/-- 42_code_lookup.md R83, R85 with 44_output_bufferer.md R107: the three end codes end the decode with success. -/
def Obligations.EndCodesEndTheDecodeWell : Prop :=
  ∀ (c : Code) (s : State),
    (∃ t, exec (.endF c) s = .next t ∧ EndedWell s t ∧ statusWord t = 2) ∧
    (∃ t, exec (.endS c) s = .next t ∧ EndedWell s t ∧ statusWord t = 2) ∧
    (∃ t, exec (.endT c) s = .next t ∧ EndedWell s t ∧ statusWord t = 2)

/-- What a clear in mid-stream leaves (42_code_lookup.md R86, 43_dictionary_grow.md R99): the first `CLEAR + 2` slots
and no other are the table, the width is the starting one, phase `F`, no previous code; a slot at or above `CLEAR + 2`
is out of reach of every lookup (70_reset_and_hazards.md R146). -/
def Obligations.MidStreamClearRestartsTheDictionary : Prop :=
  ∀ (c : Code) (s : State) (i : Instr), i = .clrS c ∨ i = .clrT c →
    ∃ t, exec i s = .next t ∧ t.table.len = 2 ^ s.ics + 2 ∧ s.table.SameAttributes t.table ∧
      (∀ k, t.slot k = s.slot k) ∧ (∀ d : Code, 2 ^ s.ics + 2 ≤ d.toNat → lookup t d = none) ∧
      t.codeWidth = s.ics + 1 ∧ t.phase = .awaitingFirst ∧ t.prevCode = none ∧ SameOut s t ∧ SameScratch s t ∧
      SameSurroundings s t

/-- 42_code_lookup.md R87: a literal while streaming is emitted, `T[prevCode] ++ [c]` takes the next free index, the
width rule is applied, the code becomes the previous one; nothing else changes but the scratch sequence, in which the
new entry is formed (40_buffer_ops.md R72; that it is what the scratch sequence holds in the end is the model's, log
entry 13). On buffers whose capacity or element size is not the one `START` gives, the scratch and the cached
sequence among them, that neither is tested is the model's (log entries 26, 27). -/
def Obligations.StreamingLiteralEmitsAndGrows : Prop :=
  ∀ (c p : Code) (x : Symbol) (xs : List Symbol) (s : State), s.phase = .streaming → s.table.len < 4096 →
    s.prevCode = some p → p.toNat < s.table.len → s.slot p.toNat = x :: xs → s.out.len + 1 ≤ s.params.outCap →
    ∃ t, exec (.litS c) s = .next t ∧ Emitted [c.setWidth 16] s t ∧ Grown (x :: xs ++ [c.setWidth 16]) s t ∧
      WidthStepped s t ∧ Remembered c [c.setWidth 16] s t ∧ InScratch (x :: xs ++ [c.setWidth 16]) s t ∧
      SameSurroundings s t

/-- 42_code_lookup.md R88: a reference emits `T[c]`, and `T[prevCode]` with the first symbol of `T[c]` takes the next
free index; `c = prevCode` is allowed. The new entry is formed in the scratch sequence (40_buffer_ops.md R72; log
entry 13). On buffers whose capacity or element size is not the one `START` gives, the scratch and the cached
sequence among them, that neither is tested is the model's (log entries 26, 27). -/
def Obligations.StreamingReferenceEmitsAndGrows : Prop :=
  ∀ (c p : Code) (x y : Symbol) (xs ys : List Symbol) (s : State), s.phase = .streaming → s.table.len < 4096 →
    s.prevCode = some p → p.toNat < s.table.len → s.slot p.toNat = x :: xs →
    c.toNat < s.table.len → s.slot c.toNat = y :: ys → s.out.len + (y :: ys).length ≤ s.params.outCap →
    ∃ t, exec (.refS c) s = .next t ∧ Emitted (y :: ys) s t ∧ Grown (x :: xs ++ [y]) s t ∧ WidthStepped s t ∧
      Remembered c (y :: ys) s t ∧ InScratch (x :: xs ++ [y]) s t ∧ SameSurroundings s t

/-- 42_code_lookup.md R89: the self-reference emits and stores `T[prevCode]` with its own first symbol behind it, at
the index the code names; it is the sequence the scratch sequence holds (10_state.md R26, 40_buffer_ops.md R72; log
entry 13). On buffers whose capacity or element size is not the one `START` gives, the scratch and the cached
sequence among them, that neither is tested is the model's (log entries 26, 27). -/
def Obligations.SelfReferenceEmitsAndStoresTheSameSequence : Prop :=
  ∀ (c p : Code) (x : Symbol) (xs : List Symbol) (s : State), s.phase = .streaming → c.toNat = s.table.len →
    s.prevCode = some p → p.toNat < s.table.len → s.slot p.toNat = x :: xs →
    s.out.len + (xs.length + 2) ≤ s.params.outCap →
    ∃ t, exec (.kwkS c) s = .next t ∧ Emitted (x :: xs ++ [x]) s t ∧ Grown (x :: xs ++ [x]) s t ∧
      t.slot c.toNat = x :: xs ++ [x] ∧ WidthStepped s t ∧ Remembered c (x :: xs ++ [x]) s t ∧
      InScratch (x :: xs ++ [x]) s t ∧ SameSurroundings s t

/-- 42_code_lookup.md R91, R92: with the table full, a literal emits its symbol and a reference emits `T[c]`; the
code becomes the previous one, no entry is added, width and phase stay. That the scratch sequence holds what was
emitted is the model's (log entry 13, from 10_state.md R26). On buffers whose capacity or element size is not the one
`START` gives, the scratch and the cached sequence among them, that neither is tested is the model's (log entries 26,
27). -/
def Obligations.FullTableCodesEmitWithoutGrowing : Prop :=
  ∀ (c : Code) (s : State),
    (s.out.len + 1 ≤ s.params.outCap →
      ∃ t, exec (.litT c) s = .next t ∧ Emitted [c.setWidth 16] s t ∧ Remembered c [c.setWidth 16] s t ∧
        InScratch [c.setWidth 16] s t ∧ t.phase = s.phase ∧ t.codeWidth = s.codeWidth ∧ SameTable s t ∧
        SameSurroundings s t) ∧
    (∀ y ys, c.toNat < s.table.len → s.slot c.toNat = y :: ys → s.out.len + (y :: ys).length ≤ s.params.outCap →
      ∃ t, exec (.refT c) s = .next t ∧ Emitted (y :: ys) s t ∧ Remembered c (y :: ys) s t ∧
        InScratch (y :: ys) s t ∧ t.phase = s.phase ∧ t.codeWidth = s.codeWidth ∧ SameTable s t ∧ SameSurroundings s t)

/-- 44_output_bufferer.md R105, R106 for the six emitting codes (60_exceptions.md R123): where the whole resolved
sequence does not fit, the code raises `AllocationError`, error code 5, and none of its other effects happens. On
buffers whose capacity or element size is not the one `START` gives, the scratch and the cached sequence among them,
that neither is tested is the model's (log entries 26, 27). -/
def Obligations.EmittingCodesRaiseWhereTheOutputIsFull : Prop :=
  ∀ (c : Code) (s : State),
    (s.params.outCap < s.out.len + 1 → ∀ i, i = .litF c ∨ i = .litS c ∨ i = .litT c →
      ∃ t, exec i s = .next t ∧ EndedInError .allocationError s t) ∧
    (∀ y ys, c.toNat < s.table.len → s.slot c.toNat = y :: ys → s.params.outCap < s.out.len + (y :: ys).length →
      ∀ i, i = .refS c ∨ i = .refT c → ∃ t, exec i s = .next t ∧ EndedInError .allocationError s t) ∧
    (∀ (p : Code) (x : Symbol) (xs : List Symbol), s.prevCode = some p → p.toNat < s.table.len →
      s.slot p.toNat = x :: xs → s.params.outCap < s.out.len + (xs.length + 2) →
      ∃ t, exec (.kwkS c) s = .next t ∧ EndedInError .allocationError s t)

/-! ### The grow engine -/

/-- 43_dictionary_grow.md R97 with R98: `Grow` in phase `S` on a table that is not full adds the entry at `tableLen`
and applies the width rule; nothing else changes. Outside phase `S` or on a full table, where R100 says it is never
called, it stops by name: the two stops are the model's choice (log entry 10), and so is the empty entry, which the
rule's operands exclude (log entry 21). On a table whose capacity is not the one `START` gives, that the capacity is
not tested is the model's (log entry 26). -/
def Obligations.GrowAddsOneEntry : Prop :=
  ∀ (e : Entry) (s : State),
    (s.phase = .streaming → s.table.len < 4096 →
      ∃ t, exec (.grow e) s = .next t ∧ Grown e s t ∧ WidthStepped s t ∧ t.prevCode = s.prevCode ∧ SameOut s t ∧
        SameScratch s t ∧ SameSurroundings s t) ∧
    (s.phase ≠ .streaming → exec (.grow e) s = .fault .growOutsideStreaming) ∧
    (s.phase = .streaming → 4096 ≤ s.table.len → exec (.grow e) s = .fault .growOfFullTable)

/-- 43_dictionary_grow.md R98: `WidthStep` at a table length that is a power of the width: one more bit below 12, phase
`T` at 12; at any other length nothing. Nothing else changes; `codeMask` follows the width. -/
def Obligations.WidthStepAtPowersOfTwo : Prop :=
  ∀ s : State, ∃ t, exec .widthStep s = .next t ∧
    (s.table.len = 2 ^ s.codeWidth ∧ s.codeWidth < 12 → t.codeWidth = s.codeWidth + 1 ∧ t.phase = s.phase) ∧
    (s.table.len = 2 ^ s.codeWidth ∧ ¬ s.codeWidth < 12 → t.codeWidth = s.codeWidth ∧ t.phase = .tableFull) ∧
    (s.table.len ≠ 2 ^ s.codeWidth → t.codeWidth = s.codeWidth ∧ t.phase = s.phase) ∧
    (t.codeWidth ≤ 12 → t.codeMask.toNat = 2 ^ t.codeWidth - 1) ∧ t.prevCode = s.prevCode ∧ SameTable s t ∧
    SameOut s t ∧ SameScratch s t ∧ SameSurroundings s t

/-- 43_dictionary_grow.md R99: `ResetDict` truncates the table to `CLEAR + 2` entries and restores the starting width
and mask; phase, previous code and every slot's storage stay, and no lookup reaches a slot behind the new end. -/
def Obligations.ResetDictTruncatesAndRestartsTheWidth : Prop :=
  ∀ s : State, ∃ t, exec .resetDict s = .next t ∧ t.table.len = 2 ^ s.ics + 2 ∧ s.table.SameAttributes t.table ∧
    (∀ k, t.slot k = s.slot k) ∧ (∀ d : Code, 2 ^ s.ics + 2 ≤ d.toNat → lookup t d = none) ∧
    t.codeWidth = s.ics + 1 ∧ (s.ics ≤ 8 → t.codeMask.toNat = 2 ^ (s.ics + 1) - 1) ∧
    t.phase = s.phase ∧ t.prevCode = s.prevCode ∧ SameOut s t ∧ SameScratch s t ∧ SameSurroundings s t

/-- 43_dictionary_grow.md R102: every entry a data code adds is the entry of the previous code, which is below the new
index and no sentinel, with one symbol below `CLEAR` behind it. From every running state that meets the invariant. -/
def Obligations.NewEntryExtendsAnExistingEntry : Prop :=
  ∀ (c : Code) (s t : State) (i : Instr), Inv s → s.run = .busy → wellFormed s.ctx i = true →
    i = .litS c ∨ i = .refS c ∨ i = .kwkS c → exec i s = .next t → t.run = .busy →
    ∃ j x, s.prevCode = some j ∧ j.toNat < s.table.len ∧ j.toNat ≠ s.clear ∧ j.toNat ≠ s.endCode ∧
      x.toNat < s.clear ∧ t.table.len = s.table.len + 1 ∧ t.slot s.table.len = s.slot j.toNat ++ [x]

/-! ### The output bufferer and errors -/

/-- 44_output_bufferer.md R105, R106: `Emit` appends the whole sequence in order where it fits and raises
`AllocationError` where it does not. For an empty sequence and for symbols at or above `CLEAR`, which the rule's
operands exclude, this is the model's (log entry 21). On an output store whose capacity or element size is not the
one `START` gives, that `OUT_CAP` alone is tested is the model's (log entries 26, 27). -/
def Obligations.EmitAppendsTheSequenceOrRaises : Prop :=
  ∀ (xs : List Symbol) (s : State),
    (s.out.len + xs.length ≤ s.params.outCap →
      ∃ t, exec (.emit xs) s = .next t ∧ Emitted xs s t ∧ t.outSeq = s.outSeq ++ xs ∧ t.phase = s.phase ∧
        t.codeWidth = s.codeWidth ∧ t.prevCode = s.prevCode ∧ SameTable s t ∧ SameScratch s t ∧
        SameSurroundings s t) ∧
    (s.params.outCap < s.out.len + xs.length →
      ∃ t, exec (.emit xs) s = .next t ∧ EndedInError .allocationError s t)

/-- 44_output_bufferer.md R107: `Finish` hands `outLen` to `HR[4]`, keeps `OUT`, releases the dictionary and the scratch
sequences, sets `ERR = 0` and `RUN = DONE`. -/
def Obligations.FinishHandsOverTheOutput : Prop :=
  ∀ s : State, ∃ t, exec .finish s = .next t ∧ EndedWell s t

/-- 60_exceptions.md R121 with R120: `raise` ends the decode with its error, whatever the error and the state. -/
def Obligations.RaiseEndsTheDecodeWithItsError : Prop :=
  ∀ (e : DecodeError) (s : State), ∃ t, exec (.raise e) s = .next t ∧ EndedInError e s t ∧
    errBits t.err = (match e with
      | .expectedInitialClear => 1
      | .firstCodeNotLiteral => 2
      | .invalidCode => 3
      | .truncatedStream => 4
      | .allocationError => 5)

/-! ### Growable Buffers -/

/-- What an operation on one symbol buffer leaves: everything but that buffer is as before. -/
def OnlySymBuf (d : SymBuf) (s t : State) : Prop := t = s.setSymBuf d (t.symBuf d)

/-- What an operation on the Code Table's buffer leaves: everything but that buffer is as before. -/
def OnlyTable (s t : State) : Prop := t = { s with table := t.table }

/-- 40_buffer_ops.md R66: a creation that is granted gives an empty buffer of zeroed storage with the capacity,
element size and mode asked for, owning its storage, and touches nothing else. The output buffer is granted up to
`OUT_CAP`, the others always (R71); a denied creation raises `AllocationError` (60_exceptions.md R121), and that this
error ends the decode is the model's (log entry 14). An element size of 0 is no operand of the rule: the model's
refusal (log entry 11). That a zeroed element of the table is the empty entry is the model's (log entry 8). -/
def Obligations.CreateMakesAnEmptyZeroedBuffer : Prop :=
  ∀ (z n : Nat) (fx : Bool) (s : State),
    let cap0 := if fx then n else max n s.params.minFloor
    (1 ≤ z → ∃ t, exec (.bufCreate .table z n fx) s = .next t ∧ OnlyTable s t ∧ t.table.elemSize = z ∧
      t.table.len = 0 ∧ t.table.cap = cap0 ∧ t.table.owned = true ∧ t.table.isFixed = fx ∧ ∀ k, t.slot k = []) ∧
    (∀ d : SymBuf, 1 ≤ z → (d = .out → cap0 ≤ s.params.outCap) →
      ∃ t, exec (.bufCreate (.sym d) z n fx) s = .next t ∧ OnlySymBuf d s t ∧ (t.symBuf d).elemSize = z ∧
        (t.symBuf d).len = 0 ∧ (t.symBuf d).cap = cap0 ∧ (t.symBuf d).owned = true ∧ (t.symBuf d).isFixed = fx ∧
        ∀ k, Memory.read 0 (t.symBuf d).data k = 0) ∧
    (1 ≤ z → s.params.outCap < cap0 →
      ∃ t, exec (.bufCreate (.sym .out) z n fx) s = .next t ∧ EndedInError .allocationError s t) ∧
    (∀ b, exec (.bufCreate b 0 n fx) s = .refused .elementSizeZero)

/-- The room of an append (40_buffer_ops.md R67): it fits as it is, or the buffer is growable and the growth is
granted; the output buffer is granted up to `OUT_CAP`, the others always (R71). The capacity a growth asks for is the
model's choice among those the rule allows (log entry 18). -/
def HasRoom {α : Type} (p : Params) (limit : Option Nat) (b : Buffer α) (count : Nat) : Prop :=
  b.len + count ≤ b.cap ∨
    (b.isFixed = false ∧ ∀ c, limit = some c → b.cap + max count b.len + p.growSlack ≤ c)

/-- 40_buffer_ops.md R67: an append with room puts the elements behind the valid ones, grows the capacity only where it
must, and touches no valid element and no other buffer. The rule lets a growth choose any capacity at or above `cap +
max(count, len)`; that it is exactly this and the slack of the machine's parameters is the model's (log entry 18), and
so is that the storage behind the appended elements stays as it is (log entry 23). An entry is an element of the table
whatever its element size (the model's, log entry 24), and an empty source is one of every kind and size (log entry 25):
on a buffer within its capacity it changes nothing. -/
def Obligations.AppendWithRoomAppends : Prop :=
  ∀ (s : State),
    (∀ es : List Entry, HasRoom s.params none s.table es.length →
      ∃ t, exec (.bufAppend .table (.entries es)) s = .next t ∧ OnlyTable s t ∧
        t.table.seq [] = s.table.seq [] ++ es ∧ t.table.len = s.table.len + es.length ∧
        (s.table.len + es.length ≤ s.table.cap → t.table.cap = s.table.cap) ∧
        (s.table.cap < s.table.len + es.length →
          t.table.cap = s.table.cap + max es.length s.table.len + s.params.growSlack) ∧
        t.table.elemSize = s.table.elemSize ∧ t.table.owned = s.table.owned ∧ t.table.isFixed = s.table.isFixed ∧
        ∀ k, k < s.table.len ∨ s.table.len + es.length ≤ k → t.slot k = s.slot k) ∧
    (∀ (d : SymBuf) (xs : List Symbol), xs = [] ∨ (s.symBuf d).elemSize = 2 →
      HasRoom s.params (if d = .out then some s.params.outCap else none) (s.symBuf d) xs.length →
      ∃ t, exec (.bufAppend (.sym d) (.symbols xs)) s = .next t ∧ OnlySymBuf d s t ∧
        (t.symBuf d).seq 0 = (s.symBuf d).seq 0 ++ xs ∧ (t.symBuf d).len = (s.symBuf d).len + xs.length ∧
        ((s.symBuf d).len + xs.length ≤ (s.symBuf d).cap → (t.symBuf d).cap = (s.symBuf d).cap) ∧
        ((s.symBuf d).cap < (s.symBuf d).len + xs.length →
          (t.symBuf d).cap = (s.symBuf d).cap + max xs.length (s.symBuf d).len + s.params.growSlack) ∧
        (t.symBuf d).elemSize = (s.symBuf d).elemSize ∧ (t.symBuf d).owned = (s.symBuf d).owned ∧
        (t.symBuf d).isFixed = (s.symBuf d).isFixed ∧
        ∀ k, k < (s.symBuf d).len ∨ (s.symBuf d).len + xs.length ≤ k →
          Memory.read 0 (t.symBuf d).data k = Memory.read 0 (s.symBuf d).data k) ∧
    (s.table.len ≤ s.table.cap → ∀ e : Elems, e = .entries [] ∨ e = .symbols [] →
      exec (.bufAppend .table e) s = .next s) ∧
    (∀ d : SymBuf, (s.symBuf d).len ≤ (s.symBuf d).cap → ∀ e : Elems, e = .entries [] ∨ e = .symbols [] →
      exec (.bufAppend (.sym d) e) s = .next s)

/-- 40_buffer_ops.md R67, R73: an append without room raises `AllocationError` and leaves every buffer empty;
elements of another kind or size than the buffer's are no source (the model's refusal, log entry 11), while an entry
is an element of the table whatever its element size (log entry 24) and an empty source is one of every kind and size
(log entry 25). For an empty source, of which R67 says that it changes nothing and cannot fail, there is no room only
where the length is above the capacity, which R65 excludes: that the append raises there, as the rule's pseudocode
does, is the model's too (log entry 25). That the error ends the decode is log entry 14; the capacity a growth asks
for, and with it when one is denied, is log entry 18. -/
def Obligations.AppendWithoutRoomRaises : Prop :=
  ∀ (s : State),
    (∀ es : List Entry, ¬ HasRoom s.params none s.table es.length →
      ∃ t, exec (.bufAppend .table (.entries es)) s = .next t ∧ EndedInError .allocationError s t) ∧
    (∀ (d : SymBuf) (xs : List Symbol), xs = [] ∨ (s.symBuf d).elemSize = 2 →
      ¬ HasRoom s.params (if d = .out then some s.params.outCap else none) (s.symBuf d) xs.length →
      ∃ t, exec (.bufAppend (.sym d) (.symbols xs)) s = .next t ∧ EndedInError .allocationError s t) ∧
    (∀ (d : SymBuf) (xs : List Symbol), xs ≠ [] → (s.symBuf d).elemSize ≠ 2 →
      exec (.bufAppend (.sym d) (.symbols xs)) s = .refused .elementSizeMismatch) ∧
    (∀ (d : SymBuf) (es : List Entry), es ≠ [] →
      exec (.bufAppend (.sym d) (.entries es)) s = .refused .elementSizeMismatch) ∧
    (∀ xs : List Symbol, xs ≠ [] → exec (.bufAppend .table (.symbols xs)) s = .refused .elementSizeMismatch)

/-- What a copy of the non-empty sequence `q` to a symbol buffer leaves (40_buffer_ops.md R68): its contents are `q`,
its capacity is as before where `q` fits and grown where it does not, by the length of `q` and the slack of the
machine's parameters (log entry 18), its other attributes and all else are as before, the storage behind `q` too (log
entry 23). -/
def CopiedTo (d : SymBuf) (q : List Symbol) (s t : State) : Prop :=
  OnlySymBuf d s t ∧ (t.symBuf d).seq 0 = q ∧ (t.symBuf d).len = q.length ∧
    (q.length ≤ (s.symBuf d).cap → (t.symBuf d).cap = (s.symBuf d).cap) ∧
    ((s.symBuf d).cap < q.length → (t.symBuf d).cap = (s.symBuf d).cap + q.length + s.params.growSlack) ∧
    (t.symBuf d).elemSize = (s.symBuf d).elemSize ∧ (t.symBuf d).owned = (s.symBuf d).owned ∧
    (t.symBuf d).isFixed = (s.symBuf d).isFixed ∧
    ∀ k, q.length ≤ k → Memory.read 0 (t.symBuf d).data k = Memory.read 0 (s.symBuf d).data k

/-- The room of a copy of `count` elements to a symbol buffer (40_buffer_ops.md R68: the append of R67 to the buffer
with its length set to 0). -/
def HasRoomToCopy (s : State) (d : SymBuf) (count : Nat) : Prop :=
  HasRoom s.params (if d = .out then some s.params.outCap else none) { s.symBuf d with len := 0 } count

/-- 40_buffer_ops.md R68: a copy replaces the contents of its destination, the source being another symbol buffer of
the same element size or a table entry; a copy of an empty buffer or of a valid empty entry changes nothing, it does
not clear; one without room raises `AllocationError` (60_exceptions.md R121), and that this error ends the decode is
the model's (log entry 14). The capacity a growth asks for is log entry 18, the storage behind the copy log entry 23. A
copy to itself or between element sizes has no meaning (93_implementation_defined.md U13), one from a slot without a
value is stuck (U8, U14); which empty slots are valid entries is log entry 8, the refusals between entries and symbols
are the model's (log entry 11). -/
def Obligations.CopyFromReplacesContents : Prop :=
  ∀ (d b : SymBuf) (s : State),
    (d ≠ b → (s.symBuf d).elemSize = (s.symBuf b).elemSize → (s.symBuf b).len = 0 →
      exec (.bufCopyFrom (.sym d) (.buf (.sym b))) s = .next s) ∧
    (d ≠ b → (s.symBuf d).elemSize = (s.symBuf b).elemSize → 0 < (s.symBuf b).len →
      (HasRoomToCopy s d (s.symBuf b).len →
        ∃ t, exec (.bufCopyFrom (.sym d) (.buf (.sym b))) s = .next t ∧ CopiedTo d ((s.symBuf b).seq 0) s t) ∧
      (¬ HasRoomToCopy s d (s.symBuf b).len →
        ∃ t, exec (.bufCopyFrom (.sym d) (.buf (.sym b))) s = .next t ∧ EndedInError .allocationError s t)) ∧
    (∀ (i : Code) (y : Symbol) (ys : List Symbol), (s.symBuf d).elemSize = 2 → i.toNat < s.table.len →
      s.slot i.toNat = y :: ys →
      (HasRoomToCopy s d (y :: ys).length →
        ∃ t, exec (.bufCopyFrom (.sym d) (.entry i)) s = .next t ∧ CopiedTo d (y :: ys) s t) ∧
      (¬ HasRoomToCopy s d (y :: ys).length →
        ∃ t, exec (.bufCopyFrom (.sym d) (.entry i)) s = .next t ∧ EndedInError .allocationError s t)) ∧
    (d ≠ b → (s.symBuf d).elemSize ≠ (s.symBuf b).elemSize →
      exec (.bufCopyFrom (.sym d) (.buf (.sym b))) s = .refused .elementSizeMismatch) ∧
    (∀ i : Code, (s.symBuf d).elemSize = 2 → i.toNat < s.table.len → s.slot i.toNat = [] → i.toNat ≠ s.clear →
      i.toNat ≠ s.endCode → exec (.bufCopyFrom (.sym d) (.entry i)) s = .next s) ∧
    (∀ i : Code,
      s.table.len ≤ i.toNat ∨ (s.slot i.toNat = [] ∧ (i.toNat = s.clear ∨ i.toNat = s.endCode)) →
      exec (.bufCopyFrom (.sym d) (.entry i)) s = .fault .slotHasNoValue) ∧
    (∀ i : Code, (s.symBuf d).elemSize ≠ 2 → i.toNat < s.table.len →
      s.slot i.toNat ≠ [] ∨ (i.toNat ≠ s.clear ∧ i.toNat ≠ s.endCode) →
      exec (.bufCopyFrom (.sym d) (.entry i)) s = .refused .elementSizeMismatch) ∧
    (∀ i : Code, exec (.bufCopyFrom .table (.entry i)) s = .refused .elementSizeMismatch) ∧
    exec (.bufCopyFrom (.sym d) (.buf (.sym d))) s = .refused .copyToItself ∧
    exec (.bufCopyFrom .table (.buf .table)) s = .refused .copyToItself ∧
    exec (.bufCopyFrom .table (.buf (.sym d))) s = .refused .elementSizeMismatch ∧
    exec (.bufCopyFrom (.sym d) (.buf .table)) s = .refused .elementSizeMismatch

/-- 40_buffer_ops.md R73, "after any successful `append`/`copyFrom`, length <= capacity": on every buffer whose length
is within its capacity before, an append or a copy that does not raise leaves the length within the capacity. -/
def Obligations.LengthStaysWithinCapacity : Prop :=
  ∀ (d : SymBuf) (e : Elems) (src : BufSource) (s t : State),
    ((s.symBuf d).len ≤ (s.symBuf d).cap →
      exec (.bufAppend (.sym d) e) s = .next t ∨ exec (.bufCopyFrom (.sym d) src) s = .next t →
      (t.symBuf d).len ≤ (t.symBuf d).cap) ∧
    (s.table.len ≤ s.table.cap → exec (.bufAppend .table e) s = .next t → t.table.len ≤ t.table.cap)

/-- 40_buffer_ops.md R69: `clear` sets the length to 0; capacity, attributes and storage are untouched, and so is all
else. -/
def Obligations.ClearKeepsTheStorage : Prop :=
  ∀ s : State,
    (∃ t, exec (.bufClear .table) s = .next t ∧ OnlyTable s t ∧ t.table.len = 0 ∧ s.table.SameAttributes t.table ∧
      ∀ k, t.slot k = s.slot k) ∧
    (∀ d : SymBuf, ∃ t, exec (.bufClear (.sym d)) s = .next t ∧ OnlySymBuf d s t ∧ (t.symBuf d).len = 0 ∧
      (s.symBuf d).SameAttributes (t.symBuf d) ∧
      ∀ k, Memory.read 0 (t.symBuf d).data k = Memory.read 0 (s.symBuf d).data k)

/-- 40_buffer_ops.md R70: `release` leaves the empty, zero-capacity state and touches no other buffer; storage the
buffer does not own is left as it is; releasing a released buffer changes nothing, so a second release does not. -/
def Obligations.ReleaseIsIdempotent : Prop :=
  ∀ s : State,
    (∃ t, exec (.bufRelease .table) s = .next t ∧ OnlyTable s t ∧ t.table.len = 0 ∧ t.table.cap = 0 ∧
      (s.table.owned = false → ∀ k, t.slot k = s.slot k) ∧ (s.table.cap = 0 → s.table.len = 0 → t = s) ∧
      exec (.bufRelease .table) t = .next t) ∧
    (∀ d : SymBuf, ∃ t, exec (.bufRelease (.sym d)) s = .next t ∧ OnlySymBuf d s t ∧ (t.symBuf d).len = 0 ∧
      (t.symBuf d).cap = 0 ∧
      ((s.symBuf d).owned = false → ∀ k, Memory.read 0 (t.symBuf d).data k = Memory.read 0 (s.symBuf d).data k) ∧
      ((s.symBuf d).cap = 0 → (s.symBuf d).len = 0 → t = s) ∧
      exec (.bufRelease (.sym d)) t = .next t)

/-! ### START, the host registers, reset -/

/-- A symbol buffer as `START` creates it: fixed, of the given capacity, empty, owning a zeroed storage of 2-byte
elements (40_buffer_ops.md R66, R72). -/
def FreshSymbols (cap : Nat) (b : Buffer Symbol) : Prop :=
  b.elemSize = 2 ∧ b.len = 0 ∧ b.cap = cap ∧ b.owned = true ∧ b.isFixed = true ∧ ∀ k, Memory.read 0 b.data k = 0

/-- 10_state.md R38, 45_host_operations.md R111: `START` from any run status but `BUSY`, with both registers written
and a legal `ICS`, sets every working register as the rule lists, reads as `BUSY` without an error (R33), and keeps
nothing of an earlier decode: the output, the scratch and the cached sequence and the Code Table are new buffers of
the capacities of 40_buffer_ops.md R72. `IN`, `HR[2]`, `HR[3]` and the parameters are untouched. That every word of
`OUT` is zero then, which R111 leaves unspecified, is the model's (log entry 2); the size in bytes of a table element
is the model's parameter (log entry 3). -/
def Obligations.StartBeginsADecode : Prop :=
  ∀ s : State, s.run ≠ .busy → s.icsWritten = true → s.inLenWritten = true → 2 ≤ s.hrIcs.toNat → s.hrIcs.toNat ≤ 8 →
    ∃ t, exec .start s = .next t ∧ t.ics = s.hrIcs.toNat ∧ t.inLen = s.hrInLen ∧
      t.clear = 2 ^ s.hrIcs.toNat ∧ t.endCode = 2 ^ s.hrIcs.toNat + 1 ∧ t.startWidth = s.hrIcs.toNat + 1 ∧
      t.codeWidth = s.hrIcs.toNat + 1 ∧ t.codeMask.toNat = 2 ^ (s.hrIcs.toNat + 1) - 1 ∧ t.byteIdx = 0 ∧
      t.bitOff = 0 ∧ t.phase = .awaitingReset ∧ t.prevCode = none ∧ t.table.len = 2 ^ s.hrIcs.toNat + 2 ∧
      (∀ i, i < 2 ^ s.hrIcs.toNat → t.slot i = [BitVec.ofNat 16 i]) ∧
      (∀ i, 2 ^ s.hrIcs.toNat ≤ i → t.slot i = []) ∧ t.table.elemSize = s.params.entryBytes ∧ t.table.cap = 4096 ∧
      t.table.owned = true ∧ t.table.isFixed = true ∧ FreshSymbols s.params.outCap t.out ∧
      FreshSymbols 4091 t.curSeq ∧ FreshSymbols 4091 t.prevSeq ∧ t.outSeq = [] ∧ t.run = .busy ∧ t.err = none ∧
      statusWord t = 1 ∧ t.hrOutLen = 0 ∧ SameHost s t ∧ SameInput s t

/-- 10_state.md R32 and 45_host_operations.md R112 with 93_implementation_defined.md U1, U2: `START` while `BUSY` is
ignored; before both registers are written, or with `ICS` outside 2..8, the launch is refused (log entry 4). -/
def Obligations.StartIsIgnoredOrRefused : Prop :=
  ∀ s : State,
    (s.run = .busy → exec .start s = .next s) ∧
    (s.run ≠ .busy → s.icsWritten = false ∨ s.inLenWritten = false → exec .start s = .refused .startBeforeBoot) ∧
    (s.run ≠ .busy → s.icsWritten = true → s.inLenWritten = true → s.hrIcs.toNat < 2 ∨ 8 < s.hrIcs.toNat →
      exec .start s = .refused .illegalInitialCodeSize)

/-- 10_state.md R31 to R36, 45_host_operations.md R115: what a host write to a register does. `HR[0]` with bit 0
clear, `HR[1]`, `HR[4]`, and `HR[2]` and `HR[3]` while `BUSY` ignore it; else `HR[2]` takes bits 3:0 and `HR[3]` bits
`IN_AW-1:0`, for every `IN_AW` (00_scope.md R4; that the register is wider than 32 bits where `IN_AW` is above 32 is
the model's, log entry 22). A number above 4 is refused (93_implementation_defined.md U11). -/
def Obligations.HostWritesFollowTheAccessRights : Prop :=
  ∀ (s : State) (v : Nat) (rest : List Turn) (n : Nat), s.agenda = .host (.writeReg n v) :: rest →
    let s0 : State := { s with agenda := rest }
    (n = 0 → v % 2 = 1 → step s = exec .start s0) ∧
    (n = 0 → v % 2 = 0 → step s = .next s0) ∧
    (n = 1 ∨ n = 4 → step s = .next s0) ∧
    (n = 2 ∨ n = 3 → s.run = .busy → step s = .next s0) ∧
    (n = 2 → s.run ≠ .busy →
      ∃ t, step s = .next t ∧ t.hrIcs.toNat = v % 16 ∧ t = { s0 with hrIcs := t.hrIcs, icsWritten := true }) ∧
    (n = 3 → s.run ≠ .busy →
      ∃ t, step s = .next t ∧ t.hrInLen = v % 2 ^ s.params.inAw ∧
        t = { s0 with hrInLen := t.hrInLen, inLenWritten := true }) ∧
    (5 ≤ n → step s = .refused .noSuchHostRegister)

/-- 10_state.md R31 to R36: what a host read of a register returns, and that it changes nothing else: `HR[1]` has
`RUN` in bits 1:0, 0 `IDLE`, 1 `BUSY`, 2 `DONE`, 3 `ERROR`, and the error code (60_exceptions.md R120) in bits 6:4.
`HR[3]` returns all `IN_AW` bits of its length; where `IN_AW` is above 32 these are more than the 32 bits of R31,
which is the model's (log entry 22). `HR[4]` while `BUSY` returns an unspecified value (93_implementation_defined.md
U6), of which nothing is said but its width. -/
def Obligations.HostReadsReturnTheRegisters : Prop :=
  ∀ (s : State) (rest : List Turn) (n : Nat), s.agenda = .host (.readReg n) :: rest →
    let s0 : State := { s with agenda := rest }
    (n < 5 → ¬ (n = 4 ∧ s.run = .busy) →
      ∃ t, step s = .next t ∧ t = { s0 with hostData := t.hostData } ∧
        (n = 0 → t.hostData = 0) ∧
        (n = 1 → t.hostData =
          (match s.run with
            | .idle => 0
            | .busy => 1
            | .done => 2
            | .error => 3) +
          16 * (match s.err with
            | none => 0
            | some .expectedInitialClear => 1
            | some .firstCodeNotLiteral => 2
            | some .invalidCode => 3
            | some .truncatedStream => 4
            | some .allocationError => 5)) ∧
        (n = 2 → t.hostData = s.hrIcs.toNat) ∧ (n = 3 → t.hostData = s.hrInLen) ∧
        (n = 4 → t.hostData = s.hrOutLen.toNat)) ∧
    (n = 4 → s.run = .busy →
      ∃ t, step s = .next t ∧ t.hostData < 2 ^ 32 ∧ t = { s0 with hostData := t.hostData, freeCtr := s.freeCtr + 1 }) ∧
    (5 ≤ n → step s = .refused .noSuchHostRegister)

/-- 20_memory.md R40, R41 with 93_implementation_defined.md U7: the host writes `IN` only while not `BUSY`; the byte is
stored, every other byte and everything else is as before. That an index at or above 2^`IN_AW` faults is the model's
(log entry 15). -/
def Obligations.HostWritesInputOnlyWhileNotBusy : Prop :=
  ∀ (s : State) (rest : List Turn) (a : Nat) (v : Byte), s.agenda = .host (.writeIn a v) :: rest →
    (s.run = .busy → step s = .refused .inputWriteWhileBusy) ∧
    (s.run ≠ .busy → a < 2 ^ s.params.inAw →
      ∃ t, step s = .next t ∧ t = { s with agenda := rest, input := t.input } ∧
        ∀ b, t.inByte b = if b = a then v else s.inByte b) ∧
    (s.run ≠ .busy → 2 ^ s.params.inAw ≤ a → step s = .fault .inputIndexOutOfRange)

/-- 44_output_bufferer.md R107, 20_memory.md R40: at `DONE` the host reads the symbols below `OUT_LEN`; any other read
of `OUT` returns an unspecified symbol (93_implementation_defined.md U3, U5, U6), of which nothing more is said. That
an index at or above `OUT_CAP` faults is the model's (log entry 15). -/
def Obligations.HostReadsTheResultAtDone : Prop :=
  ∀ (s : State) (rest : List Turn) (i : Nat), s.agenda = .host (.readOut i) :: rest →
    (i < s.params.outCap → s.run = .done → i < s.hrOutLen.toNat →
      ∃ t, step s = .next t ∧ t.hostData = (s.outSymbol i).toNat ∧
        t = { s with agenda := rest, hostData := t.hostData }) ∧
    (i < s.params.outCap → s.run ≠ .done ∨ s.hrOutLen.toNat ≤ i →
      ∃ t, step s = .next t ∧ t.hostData < 2 ^ 16 ∧
        t = { s with agenda := rest, hostData := t.hostData, freeCtr := s.freeCtr + 1 }) ∧
    (s.params.outCap ≤ i → step s = .fault .outputIndexOutOfRange)

/-- 70_reset_and_hazards.md R140, 10_state.md R39: a hardware reset, at any time, also during a decode, leaves `IDLE`,
no error, `HR[4] = 0`, `outLen = 0`, no previous code, no table slot with a value; the reset state has the same. Both
boot duties are open again: neither `HR[2]` nor `HR[3]` counts as written since (R142, 93_implementation_defined.md U2;
the two bits are the model's, log entry 4). Of the registers no other value is stated; the parameters and the listed
turns, which are the model's, stay (log entry 16). -/
def Obligations.HardwareResetLeavesIdle : Prop :=
  (∀ (s : State) (rest : List Turn), s.agenda = .host .hardReset :: rest →
    ∃ t, step s = .next t ∧ t.run = .idle ∧ t.err = none ∧ t.hrOutLen = 0 ∧ t.out.len = 0 ∧ t.prevCode = none ∧
      (∀ c, lookup t c = none) ∧ statusWord t = 0 ∧ t.icsWritten = false ∧ t.inLenWritten = false ∧
      t.params = s.params ∧ t.agenda = rest) ∧
  State.reset.run = .idle ∧ State.reset.err = none ∧ State.reset.hrOutLen = 0 ∧ State.reset.out.len = 0 ∧
    State.reset.prevCode = none ∧ (∀ c, lookup State.reset c = none) ∧ statusWord State.reset = 0 ∧
    State.reset.icsWritten = false ∧ State.reset.inLenWritten = false

/-- 60_exceptions.md R133, 10_state.md R10: a core that is not `BUSY` does nothing when it is its move. -/
def Obligations.IdleCoreDoesNothing : Prop :=
  ∀ s : State, s.run ≠ .busy →
    (s.agenda = [] → step s = .next s) ∧ (∀ rest, s.agenda = .core :: rest → step s = .next { s with agenda := rest })

/-! ### The machine as a whole -/

/-- 45_host_operations.md R113, 41_bit_unpacker.md R74: where the bytes at the cursor decode to an instruction, the
core's step while `BUSY` is that instruction's `exec`, at the state with the cursor moved past the code and the
accumulator and the returned code as the fetch leaves them; where the decoder rejects them, the step takes that error.
The width is at least 3 (10_state.md R12). -/
def Obligations.StepRunsTheDecodedInstruction : Prop :=
  ∀ (s s0 : State) (rest : List Turn), s.run = .busy → 3 ≤ s.codeWidth →
    (s.agenda = [] ∧ s0 = s) ∨ (s.agenda = .core :: rest ∧ s0 = { s with agenda := rest }) →
    (∀ i adv off, decode s.ctx s.restOfInput = .instr i adv off →
      ∃ c, i.code = some c ∧ step s =
        exec i { s0 with
          acc := assemble (s.restOfInput.take ((s.bitOff + s.codeWidth + 7) / 8)), codeReg := c,
          byteIdx := s.byteIdx + adv, bitOff := off }) ∧
    (∀ e, decode s.ctx s.restOfInput = .rejected e →
      ∃ t, step s = .next t ∧ EndedInError e s0 t)

/-- The invariant of the machine (10_state.md R37 and the register rules) holds at reset. -/
def Obligations.ResetMeetsTheInvariant : Prop := Inv State.reset

/-- 10_state.md R37: every step, the core's or the host's, keeps the invariant: width, mask and table length by phase, a
previous code that names an entry, entries within their length bound and with symbols below `CLEAR`, the cursor inside
the input, the output within its capacity; with it the canonical form of every store and the register rules. -/
def Obligations.EveryStepKeepsTheInvariant : Prop :=
  ∀ s t : State, Inv s → step s = .next t → Inv t

/-- 93_implementation_defined.md U8, U14 "a model should prove them unreachable": from every state that meets the
invariant the core's move completes; it never reaches a slot without a value, a missing previous code or a grow outside
its precondition. -/
def Obligations.CoreNeverGetsStuck : Prop :=
  ∀ (s : State) (rest : List Turn), Inv s → s.agenda = [] ∨ s.agenda = .core :: rest → ∃ t, step s = .next t

/-- 41_bit_unpacker.md R78: every decode ends, after at most one third as many code steps as bits remain, and
one more. -/
def Obligations.EveryDecodeEnds : Prop :=
  ∀ s : State, Inv s → s.run = .busy → s.agenda = [] →
    ∃ k t, k ≤ (8 * s.inLen - s.bitPos) / 3 + 1 ∧ Host.Core.run Sys2Proof.core k s = .next t ∧ t.run ≠ .busy

/-- 45_host_operations.md, collation listing: from every running state that meets the invariant, the core's step and
one turn of the listing, over plain lists and the whole input as one number, do the same: both go on to the same
variables, both return the same output, or both raise the same error. The listing is that of the spec where `END`
after a `CLEAR` is accepted; for a machine of the configuration that rejects it (42_code_lookup.md R83,
92_eei_decisions.md D6) the listing has one more test, which is the model's (log entry 12). -/
def Obligations.StepFollowsTheListing : Prop :=
  ∀ s : State, Inv s → s.run = .busy → s.agenda = [] →
    ∃ t, step s = .next t ∧ Shows t (s.listingInput.turn s.listing)

/-- 45_host_operations.md R117: from `START` to its end, a decode and the listing's whole loop have the same outcome:
the sequence returned is what the host finds at `DONE`, the error raised is the one in `HR[1]`. For a machine of the
configuration that rejects `END` after a `CLEAR` (42_code_lookup.md R83, 92_eei_decisions.md D6), which neither the
listing nor R117 has, the listing compared with has one more test, the model's (log entry 12). -/
def Obligations.DecodeFollowsTheListing : Prop :=
  ∀ s : State, Inv s → s.run ≠ .busy → s.agenda = [] → s.icsWritten = true → s.inLenWritten = true →
    2 ≤ s.hrIcs.toNat → s.hrIcs.toNat ≤ 8 →
    ∃ t0 t, exec .start s = .next t0 ∧
      Host.Core.run Sys2Proof.core (8 * t0.inLen / 3 + 1) t0 = .next t ∧ t.run ≠ .busy ∧
      Shows t (t0.listingInput.turns (8 * t0.inLen / 3 + 1) t0.listingInput.begin)

/-- 45_host_operations.md R114: the outcome of a decode is a function of `ics`, `inLen`, the input bytes below `inLen`
and `OUT_CAP` only; of a model that carries both configurations of `END`, one machine having one of them, also of that
(log entry 12). Two machines that agree on these have the same outcome, whatever was decoded on them before and
whatever else they hold. Bytes of `IN` beyond the last code executed do not count either: the two need agree only below
a `limit` that no code the first machine executes reaches past. -/
def Obligations.OutcomeDependsOnTheArgumentsOnly : Prop :=
  ∀ (s1 s2 u1 : State) (limit : Nat), Inv s1 → Inv s2 → s1.run ≠ .busy → s2.run ≠ .busy → s1.agenda = [] →
    s2.agenda = [] → s2.icsWritten = true → s2.inLenWritten = true → s2.hrIcs = s1.hrIcs → s2.hrInLen = s1.hrInLen →
    s2.params.outCap = s1.params.outCap → s2.params.endAfterClear = s1.params.endAfterClear →
    exec .start s1 = .next u1 →
    (∀ k v, Host.Core.run Sys2Proof.core k u1 = .next v → v.run = .busy → v.bitPos + v.codeWidth ≤ 8 * v.inLen →
      v.byteIdx + (v.bitOff + v.codeWidth + 7) / 8 ≤ limit) →
    (∀ a, a < s1.hrInLen → a < limit → s2.inByte a = s1.inByte a) →
    ∃ u2 t1 t2, exec .start s2 = .next u2 ∧
      Host.Core.run Sys2Proof.core (8 * s1.hrInLen / 3 + 1) u1 = .next t1 ∧
      Host.Core.run Sys2Proof.core (8 * s1.hrInLen / 3 + 1) u2 = .next t2 ∧
      t1.run ≠ .busy ∧ t2.run = t1.run ∧ t2.err = t1.err ∧ t2.hrOutLen = t1.hrOutLen ∧
      (t1.run = .done → t2.outSeq = t1.outSeq)

/-- 20_memory.md R41, R53, 10_state.md R34, R35: the core's move never writes `IN`, `HR[2]`, `HR[3]` or the parameters,
whatever the code. -/
def Obligations.CoreNeverWritesItsInput : Prop :=
  ∀ s t : State, s.agenda = [] → step s = .next t → SameHost s t ∧ SameInput s t

/-- 20_memory.md R42, 10_state.md R24: while the decode goes on, the core's step rewrites no symbol of the output and
keeps it within `OUT_CAP`. -/
def Obligations.OutputIsOnlyAppendedTo : Prop :=
  ∀ s t : State, Inv s → s.run = .busy → s.agenda = [] → step s = .next t → t.run = .busy →
    ∃ xs, t.outSeq = s.outSeq ++ xs ∧ t.outSeq.length ≤ s.params.outCap ∧ ∀ v ∈ xs, v.toNat < s.clear

/-- 10_state.md R20: an entry, once written, is not modified while it is part of the table; a step only appends at most
one entry or truncates to `CLEAR + 2`. -/
def Obligations.EntriesAreNeverModified : Prop :=
  ∀ s t : State, Inv s → s.run = .busy → s.agenda = [] → step s = .next t → t.run = .busy →
    (∀ i, i < s.table.len → i < t.table.len → t.slot i = s.slot i) ∧
    (t.table.len = s.table.len ∨ t.table.len = s.table.len + 1 ∨ t.table.len = s.clear + 2)

/-- 43_dictionary_grow.md R100, 42_code_lookup.md R86: in phase `T` the table is frozen; the decode goes on in phase `T`
with the same table and width, or a `CLEAR` code leads to phase `F`. -/
def Obligations.FullTableIsLeftByClearOnly : Prop :=
  ∀ s t : State, s.phase = .tableFull → s.agenda = [] → step s = .next t → t.run = .busy →
    (t.phase = .tableFull ∧ t.table = s.table ∧ t.codeWidth = s.codeWidth) ∨
    (t.phase = .awaitingFirst ∧ t.codeReg.toNat = s.clear ∧ t.table.len = s.clear + 2 ∧ t.prevCode = none)

/-- 10_state.md R16: the transitions of `phase` while a decode goes on: `R` to `F`, `F` to `S`, `S` to `S`, `T` or `F`,
`T` to `T` or `F`, and no other. -/
def Obligations.PhaseMovesAsTheTableSays : Prop :=
  ∀ s t : State, s.run = .busy → s.agenda = [] → step s = .next t → t.run = .busy →
    (s.phase = .awaitingReset → t.phase = .awaitingFirst) ∧
    (s.phase = .awaitingFirst → t.phase = .streaming) ∧
    (s.phase = .streaming → t.phase = .streaming ∨ t.phase = .tableFull ∨ t.phase = .awaitingFirst) ∧
    (s.phase = .tableFull → t.phase = .tableFull ∨ t.phase = .awaitingFirst) ∧
    (t.phase = .tableFull → s.phase ≠ .tableFull → t.table.len = 2 ^ s.codeWidth ∧ 12 ≤ s.codeWidth)
end

