-- ==== Sys2Proof/Laws/Memory.lean ====
section
/-! SUPPORT. The laws of a store: a read after a write, and the canonical form, which every operation keeps. -/

namespace Sys2Proof.Machine

variable {α : Type}

theorem Memory.read_erase (z : α) (m : Memory α) (a b : Nat) :
    Memory.read z (Memory.erase m a) b = if b = a then z else Memory.read z m b := by
  induction m with
  | nil => simp [Memory.erase, Memory.read]
  | cons p m ih =>
    obtain ⟨k, x⟩ := p
    simp only [Memory.erase] at ih
    by_cases hk : k = a
    · subst hk
      simp only [Memory.erase, List.filter_cons, ne_eq, not_true_eq_false, decide_false, Bool.false_eq_true,
        ↓reduceIte, ih, Memory.read]
      by_cases hb : b = k
      · simp [hb]
      · simp [hb, Ne.symm hb]
    · simp only [Memory.erase, List.filter_cons, ne_eq, hk, not_false_eq_true, decide_true, ↓reduceIte,
        Memory.read, ih]
      by_cases hb : k = b
      · subst hb; simp [hk]
      · simp [hb]

theorem Memory.read_enter (z : α) (m : Memory α) (a : Nat) (v : α) (b : Nat) (h : ∀ p ∈ m, p.1 ≠ a) :
    Memory.read z (Memory.enter a v m) b = if b = a then v else Memory.read z m b := by
  induction m with
  | nil => simp [Memory.enter, Memory.read, eq_comm]
  | cons p m ih =>
    obtain ⟨k, x⟩ := p
    have hk : k ≠ a := h (k, x) (by simp)
    have ih := ih fun p hp => h p (by simp [hp])
    by_cases hlt : a < k
    · simp [Memory.enter, hlt, Memory.read, eq_comm]
    · simp only [Memory.enter, hlt, ↓reduceIte, Memory.read, ih]
      by_cases hb : k = b
      · subst hb; simp [hk]
      · simp [hb]

theorem Memory.erase_ne (m : Memory α) (a : Nat) : ∀ p ∈ Memory.erase m a, p.1 ≠ a := by
  intro p hp
  simpa using (List.mem_filter.mp hp).2

/-- A read after a write: the value written at its index, the old value everywhere else. -/
theorem Memory.read_write [DecidableEq α] (z : α) (m : Memory α) (a : Nat) (v : α) (b : Nat) :
    Memory.read z (Memory.write z m a v) b = if b = a then v else Memory.read z m b := by
  unfold Memory.write
  split
  · subst_vars; exact Memory.read_erase _ m a b
  · rw [Memory.read_enter z _ a v b (Memory.erase_ne m a), Memory.read_erase]
    split <;> simp_all

/-- A read after a run of writes: below and above it the old value. -/
theorem Memory.read_writeSeq_outside [DecidableEq α] (z : α) (vs : List α) (m : Memory α) (a b : Nat)
    (h : b < a ∨ a + vs.length ≤ b) : Memory.read z (Memory.writeSeq z m a vs) b = Memory.read z m b := by
  induction vs generalizing m a with
  | nil => rfl
  | cons v vs ih =>
    simp only [List.length_cons] at h
    rw [Memory.writeSeq, ih _ _ (by omega), Memory.read_write]
    simp; omega

/-- A read after a run of writes: inside it the element written there. -/
theorem Memory.read_writeSeq_inside [DecidableEq α] (z : α) (vs : List α) (m : Memory α) (a k : Nat)
    (h : k < vs.length) : Memory.read z (Memory.writeSeq z m a vs) (a + k) = vs[k] := by
  induction vs generalizing m a k with
  | nil => simp at h
  | cons v vs ih =>
    rw [Memory.writeSeq]
    cases k with
    | zero => rw [Memory.read_writeSeq_outside z vs _ _ _ (by omega), Memory.read_write]; simp
    | succ k =>
      have := ih (Memory.write z m a v) (a + 1) k (by simpa using h)
      rw [show a + (k + 1) = a + 1 + k by omega, this]
      simp

/-- Writing one run and then the next behind it is writing both. -/
theorem Memory.writeSeq_append [DecidableEq α] (z : α) (vs ws : List α) (m : Memory α) (a : Nat) :
    Memory.writeSeq z m a (vs ++ ws) = Memory.writeSeq z (Memory.writeSeq z m a vs) (a + vs.length) ws := by
  induction vs generalizing m a with
  | nil => rfl
  | cons v vs ih => simp [Memory.writeSeq, ih, Nat.add_assoc, Nat.add_comm 1]

theorem Memory.wf_nil [DecidableEq α] (z : α) : Memory.wf z [] := by simp [Memory.wf]

theorem Memory.wf_erase [DecidableEq α] (z : α) (m : Memory α) (a : Nat) (h : Memory.wf z m) :
    Memory.wf z (Memory.erase m a) :=
  ⟨h.1.filter _, fun p hp => h.2 p (List.mem_filter.mp hp).1⟩

theorem Memory.mem_enter (a : Nat) (v : α) (m : Memory α) (p : Nat × α) (hp : p ∈ Memory.enter a v m) :
    p = (a, v) ∨ p ∈ m := by
  induction m with
  | nil => simpa [Memory.enter] using hp
  | cons q m ih =>
    obtain ⟨k, x⟩ := q
    unfold Memory.enter at hp
    split at hp
    · simpa using hp
    · rcases List.mem_cons.mp hp with h | h
      · exact .inr (by simp [h])
      · exact (ih h).imp_right fun h => by simp [h]

theorem Memory.wf_enter [DecidableEq α] (z : α) (m : Memory α) (a : Nat) (v : α) (h : Memory.wf z m)
    (ha : ∀ p ∈ m, p.1 ≠ a) (hv : v ≠ z) : Memory.wf z (Memory.enter a v m) := by
  induction m with
  | nil => simp [Memory.enter, Memory.wf, hv]
  | cons q m ih =>
    obtain ⟨k, x⟩ := q
    obtain ⟨hs, hz⟩ := h
    have hs' := List.pairwise_cons.mp hs
    have ih := ih ⟨hs'.2, fun p hp => hz p (by simp [hp])⟩ fun p hp => ha p (by simp [hp])
    have hk : k ≠ a := ha (k, x) (by simp)
    unfold Memory.enter
    split
    · next hlt =>
      refine ⟨List.pairwise_cons.mpr ⟨fun p hp => ?_, hs⟩, ?_⟩
      · rcases List.mem_cons.mp hp with h | h
        · simpa [h] using hlt
        · exact Nat.lt_trans hlt (hs'.1 p h)
      · intro p hp
        rcases List.mem_cons.mp hp with h | h
        · simpa [h] using hv
        · exact hz p h
    · next hlt =>
      refine ⟨List.pairwise_cons.mpr ⟨fun p hp => ?_, ih.1⟩, ?_⟩
      · rcases Memory.mem_enter a v m p hp with h | h
        · subst h
          simp only
          omega
        · exact hs'.1 p h
      · intro p hp
        rcases List.mem_cons.mp hp with h | h
        · rw [h]
          exact hz (k, x) (by simp)
        · exact ih.2 p h

/-- A write keeps the canonical form. -/
theorem Memory.wf_write [DecidableEq α] (z : α) (m : Memory α) (a : Nat) (v : α) (h : Memory.wf z m) :
    Memory.wf z (Memory.write z m a v) := by
  unfold Memory.write
  split
  · exact Memory.wf_erase z m a h
  · next hv => exact Memory.wf_enter z _ a v (Memory.wf_erase z m a h) (Memory.erase_ne m a) hv

/-- A run of writes keeps the canonical form. -/
theorem Memory.wf_writeSeq [DecidableEq α] (z : α) (vs : List α) (m : Memory α) (a : Nat) (h : Memory.wf z m) :
    Memory.wf z (Memory.writeSeq z m a vs) := by
  induction vs generalizing m a with
  | nil => exact h
  | cons v vs ih => exact ih _ _ (Memory.wf_write z m a v h)

/-- The literal slots `START` writes are in canonical form. -/
theorem literalSlots_wf (n : Nat) : Memory.wf blankEntry (literalSlots n) := by
  refine ⟨?_, ?_⟩
  · unfold literalSlots
    rw [List.pairwise_map]
    exact List.pairwise_lt_range
  · intro p hp
    obtain ⟨i, -, rfl⟩ := List.mem_map.mp hp
    simp [blankEntry]

theorem Memory.read_map_range (z : α) (f : Nat → α) (n a : Nat) :
    Memory.read z ((List.range n).map fun i => (i, f i)) a = if a < n then f a else z := by
  suffices h : ∀ (l : List Nat), Memory.read z (l.map fun i => (i, f i)) a = if a ∈ l then f a else z by
    rw [h]; simp
  intro l
  induction l with
  | nil => simp [Memory.read]
  | cons k l ih =>
    simp only [List.map_cons, Memory.read, ih, List.mem_cons]
    by_cases h : k = a
    · simp [h]
    · simp [h, Ne.symm h]

/-- A literal slot holds its one-symbol sequence; every other slot of a fresh table holds nothing. -/
theorem read_literalSlots (n a : Nat) :
    Memory.read blankEntry (literalSlots n) a = if a < n then [BitVec.ofNat 16 a] else [] :=
  Memory.read_map_range blankEntry (fun i => [BitVec.ofNat 16 i]) n a

/-- The memory of the reset state is in canonical form. -/
theorem reset_input_wf : Memory.wf blankByte State.reset.input := Memory.wf_nil _

end Sys2Proof.Machine
end

