-- ==== Sys2Proof/Laws/Buffer.lean ====
section
/-! SUPPORT. What each Growable Buffer operation can do, in terms of the valid elements `seq`. -/

namespace Sys2Proof.Machine

variable {α : Type} [DecidableEq α] (z : α)

omit [DecidableEq α] in
@[simp] theorem Buffer.length_seq (b : Buffer α) : (b.seq z).length = b.len := by simp [Buffer.seq]

@[simp] theorem Buffer.put_len (b : Buffer α) (xs : List α) : (b.put z xs).len = b.len + xs.length := rfl
@[simp] theorem Buffer.put_cap (b : Buffer α) (xs : List α) : (b.put z xs).cap = b.cap := rfl
@[simp] theorem Buffer.put_elemSize (b : Buffer α) (xs : List α) : (b.put z xs).elemSize = b.elemSize := rfl
@[simp] theorem Buffer.put_owned (b : Buffer α) (xs : List α) : (b.put z xs).owned = b.owned := rfl
@[simp] theorem Buffer.put_isFixed (b : Buffer α) (xs : List α) : (b.put z xs).isFixed = b.isFixed := rfl
omit [DecidableEq α] in
@[simp] theorem Buffer.clear_len (b : Buffer α) : b.clear.len = 0 := rfl
omit [DecidableEq α] in
@[simp] theorem Buffer.clear_cap (b : Buffer α) : b.clear.cap = b.cap := rfl
omit [DecidableEq α] in
@[simp] theorem Buffer.clear_isFixed (b : Buffer α) : b.clear.isFixed = b.isFixed := rfl
omit [DecidableEq α] in
@[simp] theorem Buffer.clear_data (b : Buffer α) : b.clear.data = b.data := rfl
@[simp] theorem Buffer.load_len (b : Buffer α) (xs : List α) : (b.load z xs).len = xs.length := by
  simp [Buffer.load]
@[simp] theorem Buffer.load_cap (b : Buffer α) (xs : List α) : (b.load z xs).cap = b.cap := rfl
@[simp] theorem Buffer.load_elemSize (b : Buffer α) (xs : List α) : (b.load z xs).elemSize = b.elemSize := rfl
@[simp] theorem Buffer.load_owned (b : Buffer α) (xs : List α) : (b.load z xs).owned = b.owned := rfl
@[simp] theorem Buffer.load_isFixed (b : Buffer α) (xs : List α) : (b.load z xs).isFixed = b.isFixed := rfl

/-- A put leaves every element outside the appended run as it was. -/
theorem Buffer.read_put_outside (b : Buffer α) (xs : List α) (i : Nat) (h : i < b.len ∨ b.len + xs.length ≤ i) :
    Memory.read z (b.put z xs).data i = Memory.read z b.data i :=
  Memory.read_writeSeq_outside z xs b.data b.len i h

/-- A put stores the appended run behind the valid elements. -/
theorem Buffer.read_put_inside (b : Buffer α) (xs : List α) (k : Nat) (h : k < xs.length) :
    Memory.read z (b.put z xs).data (b.len + k) = xs[k] :=
  Memory.read_writeSeq_inside z xs b.data b.len k h

/-- A put appends to the valid elements. -/
@[simp] theorem Buffer.seq_put (b : Buffer α) (xs : List α) : (b.put z xs).seq z = b.seq z ++ xs := by
  apply List.ext_getElem (by simp)
  intro i h1 h2
  simp only [Buffer.length_seq, Buffer.put_len] at h1
  by_cases hi : i < b.len
  · rw [List.getElem_append_left (by simpa using hi)]
    simp only [Buffer.seq, List.getElem_map, List.getElem_range]
    exact Buffer.read_put_outside z b xs i (.inl hi)
  · rw [List.getElem_append_right (by simpa using hi)]
    simp only [Buffer.seq, List.getElem_map, List.getElem_range, List.length_map, List.length_range]
    have := Buffer.read_put_inside z b xs (i - b.len) (by omega)
    rwa [show b.len + (i - b.len) = i by omega] at this

/-- A load replaces the valid elements. -/
@[simp] theorem Buffer.seq_load (b : Buffer α) (xs : List α) : (b.load z xs).seq z = xs := by
  rw [Buffer.load, Buffer.seq_put]
  simp [Buffer.seq]

/-- Loading one run and appending another is loading both. -/
theorem Buffer.put_load (b : Buffer α) (xs ys : List α) : (b.load z xs).put z ys = b.load z (xs ++ ys) := by
  simp [Buffer.load, Buffer.put, Memory.writeSeq_append, Buffer.clear]

theorem Buffer.wf_put (b : Buffer α) (xs : List α) (h : Memory.wf z b.data) : Memory.wf z (b.put z xs).data :=
  Memory.wf_writeSeq z xs b.data b.len h

theorem Buffer.wf_load (b : Buffer α) (xs : List α) (h : Memory.wf z b.data) : Memory.wf z (b.load z xs).data :=
  Memory.wf_writeSeq z xs b.data 0 h

omit [DecidableEq α] in
/-- A release leaves an empty, zero-capacity buffer (40_buffer_ops.md R70). -/
theorem Buffer.release_len (b : Buffer α) : b.release.len = 0 ∧ b.release.cap = 0 := by
  unfold Buffer.release
  split
  · next h => exact ⟨h.2, h.1⟩
  · split <;> exact ⟨rfl, rfl⟩

theorem Buffer.wf_release (b : Buffer α) (h : Memory.wf z b.data) : Memory.wf z b.release.data := by
  unfold Buffer.release
  split
  · exact h
  · split
    · exact Memory.wf_nil z
    · exact h

/-- An append that is done has appended, and says what its capacity is. -/
theorem Buffer.append_done {p : Params} {ceiling : Option Nat} {b v : Buffer α} {xs : List α}
    (h : b.append z p ceiling xs = .done v) :
    (b.len + xs.length ≤ b.cap ∧ v = b.put z xs) ∨
      (b.cap < b.len + xs.length ∧ b.isFixed = false ∧ allocOk ceiling (growCap p b.cap b.len xs.length) = true ∧
        v = Buffer.put z { b with cap := growCap p b.cap b.len xs.length } xs) := by
  unfold Buffer.append at h
  split at h
  · next hc =>
    split at h
    · cases h
    · next hf =>
      split at h
      · next ha =>
        cases h
        exact .inr ⟨hc, by simpa using hf, ha, rfl⟩
      · cases h
  · next hc => cases h; exact .inl ⟨Nat.not_lt.mp hc, rfl⟩

/-- An append that fails leaves the buffer degraded to empty (40_buffer_ops.md R67). -/
theorem Buffer.append_failed {p : Params} {ceiling : Option Nat} {b v : Buffer α} {xs : List α}
    (h : b.append z p ceiling xs = .failed v) : v = b.degrade ∧ b.cap < b.len + xs.length := by
  unfold Buffer.append at h
  split at h
  · next hc =>
    split at h
    · cases h; exact ⟨rfl, hc⟩
    · split at h
      · cases h
      · cases h; exact ⟨rfl, hc⟩
  · cases h

end Sys2Proof.Machine
end

