-- ==== Sys2Proof/Laws/State.lean ====
section
/-! SUPPORT. One lemma per field per named update of State, so that no proof unfolds a record update. A field that becomes
a free value has no lemma: nothing is known of it. -/

namespace Sys2Proof.Machine

variable (s : State)

/-! ### `fetched` -/

@[simp] theorem fetched_params : (fetched s).params = s.params := rfl
@[simp] theorem fetched_run : (fetched s).run = s.run := rfl
@[simp] theorem fetched_err : (fetched s).err = s.err := rfl
@[simp] theorem fetched_hrIcs : (fetched s).hrIcs = s.hrIcs := rfl
@[simp] theorem fetched_hrInLen : (fetched s).hrInLen = s.hrInLen := rfl
@[simp] theorem fetched_hrOutLen : (fetched s).hrOutLen = s.hrOutLen := rfl
@[simp] theorem fetched_icsWritten : (fetched s).icsWritten = s.icsWritten := rfl
@[simp] theorem fetched_inLenWritten : (fetched s).inLenWritten = s.inLenWritten := rfl
@[simp] theorem fetched_ics : (fetched s).ics = s.ics := rfl
@[simp] theorem fetched_inLen : (fetched s).inLen = s.inLen := rfl
@[simp] theorem fetched_codeWidth : (fetched s).codeWidth = s.codeWidth := rfl
@[simp] theorem fetched_byteIdx : (fetched s).byteIdx = s.byteIdx + (s.bitOff + s.codeWidth) / 8 := rfl
@[simp] theorem fetched_bitOff : (fetched s).bitOff = (s.bitOff + s.codeWidth) % 8 := rfl
@[simp] theorem fetched_phase : (fetched s).phase = s.phase := rfl
@[simp] theorem fetched_prevCode : (fetched s).prevCode = s.prevCode := rfl
@[simp] theorem fetched_acc : (fetched s).acc = assemble (s.bytesAt s.fetchBytes) := rfl
@[simp] theorem fetched_codeReg :
    (fetched s).codeReg = extractCode (assemble (s.bytesAt s.fetchBytes)) s.bitOff s.codeWidth := rfl
@[simp] theorem fetched_table : (fetched s).table = s.table := rfl
@[simp] theorem fetched_out : (fetched s).out = s.out := rfl
@[simp] theorem fetched_curSeq : (fetched s).curSeq = s.curSeq := rfl
@[simp] theorem fetched_prevSeq : (fetched s).prevSeq = s.prevSeq := rfl
@[simp] theorem fetched_input : (fetched s).input = s.input := rfl
@[simp] theorem fetched_agenda : (fetched s).agenda = s.agenda := rfl
@[simp] theorem fetched_hostData : (fetched s).hostData = s.hostData := rfl
@[simp] theorem fetched_freeCtr : (fetched s).freeCtr = s.freeCtr := rfl

/-! ### `putOut` -/

@[simp] theorem putOut_params (xs : List Symbol) : (putOut xs s).params = s.params := rfl
@[simp] theorem putOut_run (xs : List Symbol) : (putOut xs s).run = s.run := rfl
@[simp] theorem putOut_err (xs : List Symbol) : (putOut xs s).err = s.err := rfl
@[simp] theorem putOut_hrIcs (xs : List Symbol) : (putOut xs s).hrIcs = s.hrIcs := rfl
@[simp] theorem putOut_hrInLen (xs : List Symbol) : (putOut xs s).hrInLen = s.hrInLen := rfl
@[simp] theorem putOut_hrOutLen (xs : List Symbol) : (putOut xs s).hrOutLen = s.hrOutLen := rfl
@[simp] theorem putOut_icsWritten (xs : List Symbol) : (putOut xs s).icsWritten = s.icsWritten := rfl
@[simp] theorem putOut_inLenWritten (xs : List Symbol) : (putOut xs s).inLenWritten = s.inLenWritten := rfl
@[simp] theorem putOut_ics (xs : List Symbol) : (putOut xs s).ics = s.ics := rfl
@[simp] theorem putOut_inLen (xs : List Symbol) : (putOut xs s).inLen = s.inLen := rfl
@[simp] theorem putOut_codeWidth (xs : List Symbol) : (putOut xs s).codeWidth = s.codeWidth := rfl
@[simp] theorem putOut_byteIdx (xs : List Symbol) : (putOut xs s).byteIdx = s.byteIdx := rfl
@[simp] theorem putOut_bitOff (xs : List Symbol) : (putOut xs s).bitOff = s.bitOff := rfl
@[simp] theorem putOut_phase (xs : List Symbol) : (putOut xs s).phase = s.phase := rfl
@[simp] theorem putOut_prevCode (xs : List Symbol) : (putOut xs s).prevCode = s.prevCode := rfl
@[simp] theorem putOut_acc (xs : List Symbol) : (putOut xs s).acc = s.acc := rfl
@[simp] theorem putOut_codeReg (xs : List Symbol) : (putOut xs s).codeReg = s.codeReg := rfl
@[simp] theorem putOut_table (xs : List Symbol) : (putOut xs s).table = s.table := rfl
@[simp] theorem putOut_out (xs : List Symbol) : (putOut xs s).out = s.out.put blankSymbol xs := rfl
@[simp] theorem putOut_curSeq (xs : List Symbol) : (putOut xs s).curSeq = s.curSeq := rfl
@[simp] theorem putOut_prevSeq (xs : List Symbol) : (putOut xs s).prevSeq = s.prevSeq := rfl
@[simp] theorem putOut_input (xs : List Symbol) : (putOut xs s).input = s.input := rfl
@[simp] theorem putOut_agenda (xs : List Symbol) : (putOut xs s).agenda = s.agenda := rfl
@[simp] theorem putOut_hostData (xs : List Symbol) : (putOut xs s).hostData = s.hostData := rfl
@[simp] theorem putOut_freeCtr (xs : List Symbol) : (putOut xs s).freeCtr = s.freeCtr := rfl

/-! ### `holdSeq` -/

@[simp] theorem holdSeq_params (e : Entry) : (holdSeq e s).params = s.params := rfl
@[simp] theorem holdSeq_run (e : Entry) : (holdSeq e s).run = s.run := rfl
@[simp] theorem holdSeq_err (e : Entry) : (holdSeq e s).err = s.err := rfl
@[simp] theorem holdSeq_hrIcs (e : Entry) : (holdSeq e s).hrIcs = s.hrIcs := rfl
@[simp] theorem holdSeq_hrInLen (e : Entry) : (holdSeq e s).hrInLen = s.hrInLen := rfl
@[simp] theorem holdSeq_hrOutLen (e : Entry) : (holdSeq e s).hrOutLen = s.hrOutLen := rfl
@[simp] theorem holdSeq_icsWritten (e : Entry) : (holdSeq e s).icsWritten = s.icsWritten := rfl
@[simp] theorem holdSeq_inLenWritten (e : Entry) : (holdSeq e s).inLenWritten = s.inLenWritten := rfl
@[simp] theorem holdSeq_ics (e : Entry) : (holdSeq e s).ics = s.ics := rfl
@[simp] theorem holdSeq_inLen (e : Entry) : (holdSeq e s).inLen = s.inLen := rfl
@[simp] theorem holdSeq_codeWidth (e : Entry) : (holdSeq e s).codeWidth = s.codeWidth := rfl
@[simp] theorem holdSeq_byteIdx (e : Entry) : (holdSeq e s).byteIdx = s.byteIdx := rfl
@[simp] theorem holdSeq_bitOff (e : Entry) : (holdSeq e s).bitOff = s.bitOff := rfl
@[simp] theorem holdSeq_phase (e : Entry) : (holdSeq e s).phase = s.phase := rfl
@[simp] theorem holdSeq_prevCode (e : Entry) : (holdSeq e s).prevCode = s.prevCode := rfl
@[simp] theorem holdSeq_acc (e : Entry) : (holdSeq e s).acc = s.acc := rfl
@[simp] theorem holdSeq_codeReg (e : Entry) : (holdSeq e s).codeReg = s.codeReg := rfl
@[simp] theorem holdSeq_table (e : Entry) : (holdSeq e s).table = s.table := rfl
@[simp] theorem holdSeq_out (e : Entry) : (holdSeq e s).out = s.out := rfl
@[simp] theorem holdSeq_curSeq (e : Entry) : (holdSeq e s).curSeq = s.curSeq.load blankSymbol e := rfl
@[simp] theorem holdSeq_prevSeq (e : Entry) : (holdSeq e s).prevSeq = s.prevSeq := rfl
@[simp] theorem holdSeq_input (e : Entry) : (holdSeq e s).input = s.input := rfl
@[simp] theorem holdSeq_agenda (e : Entry) : (holdSeq e s).agenda = s.agenda := rfl
@[simp] theorem holdSeq_hostData (e : Entry) : (holdSeq e s).hostData = s.hostData := rfl
@[simp] theorem holdSeq_freeCtr (e : Entry) : (holdSeq e s).freeCtr = s.freeCtr := rfl

/-! ### `remember` -/

@[simp] theorem remember_params (c : Code) (e : Entry) : (remember c e s).params = s.params := rfl
@[simp] theorem remember_run (c : Code) (e : Entry) : (remember c e s).run = s.run := rfl
@[simp] theorem remember_err (c : Code) (e : Entry) : (remember c e s).err = s.err := rfl
@[simp] theorem remember_hrIcs (c : Code) (e : Entry) : (remember c e s).hrIcs = s.hrIcs := rfl
@[simp] theorem remember_hrInLen (c : Code) (e : Entry) : (remember c e s).hrInLen = s.hrInLen := rfl
@[simp] theorem remember_hrOutLen (c : Code) (e : Entry) : (remember c e s).hrOutLen = s.hrOutLen := rfl
@[simp] theorem remember_icsWritten (c : Code) (e : Entry) : (remember c e s).icsWritten = s.icsWritten := rfl
@[simp] theorem remember_inLenWritten (c : Code) (e : Entry) : (remember c e s).inLenWritten = s.inLenWritten := rfl
@[simp] theorem remember_ics (c : Code) (e : Entry) : (remember c e s).ics = s.ics := rfl
@[simp] theorem remember_inLen (c : Code) (e : Entry) : (remember c e s).inLen = s.inLen := rfl
@[simp] theorem remember_codeWidth (c : Code) (e : Entry) : (remember c e s).codeWidth = s.codeWidth := rfl
@[simp] theorem remember_byteIdx (c : Code) (e : Entry) : (remember c e s).byteIdx = s.byteIdx := rfl
@[simp] theorem remember_bitOff (c : Code) (e : Entry) : (remember c e s).bitOff = s.bitOff := rfl
@[simp] theorem remember_phase (c : Code) (e : Entry) : (remember c e s).phase = s.phase := rfl
@[simp] theorem remember_prevCode (c : Code) (e : Entry) : (remember c e s).prevCode = some c := rfl
@[simp] theorem remember_acc (c : Code) (e : Entry) : (remember c e s).acc = s.acc := rfl
@[simp] theorem remember_codeReg (c : Code) (e : Entry) : (remember c e s).codeReg = s.codeReg := rfl
@[simp] theorem remember_table (c : Code) (e : Entry) : (remember c e s).table = s.table := rfl
@[simp] theorem remember_out (c : Code) (e : Entry) : (remember c e s).out = s.out := rfl
@[simp] theorem remember_curSeq (c : Code) (e : Entry) : (remember c e s).curSeq = s.curSeq := rfl
@[simp] theorem remember_prevSeq (c : Code) (e : Entry) :
    (remember c e s).prevSeq = s.prevSeq.load blankSymbol e := rfl
@[simp] theorem remember_input (c : Code) (e : Entry) : (remember c e s).input = s.input := rfl
@[simp] theorem remember_agenda (c : Code) (e : Entry) : (remember c e s).agenda = s.agenda := rfl
@[simp] theorem remember_hostData (c : Code) (e : Entry) : (remember c e s).hostData = s.hostData := rfl
@[simp] theorem remember_freeCtr (c : Code) (e : Entry) : (remember c e s).freeCtr = s.freeCtr := rfl

/-! ### `appendEntry` -/

@[simp] theorem appendEntry_params (e : Entry) : (appendEntry e s).params = s.params := rfl
@[simp] theorem appendEntry_run (e : Entry) : (appendEntry e s).run = s.run := rfl
@[simp] theorem appendEntry_err (e : Entry) : (appendEntry e s).err = s.err := rfl
@[simp] theorem appendEntry_hrIcs (e : Entry) : (appendEntry e s).hrIcs = s.hrIcs := rfl
@[simp] theorem appendEntry_hrInLen (e : Entry) : (appendEntry e s).hrInLen = s.hrInLen := rfl
@[simp] theorem appendEntry_hrOutLen (e : Entry) : (appendEntry e s).hrOutLen = s.hrOutLen := rfl
@[simp] theorem appendEntry_icsWritten (e : Entry) : (appendEntry e s).icsWritten = s.icsWritten := rfl
@[simp] theorem appendEntry_inLenWritten (e : Entry) : (appendEntry e s).inLenWritten = s.inLenWritten := rfl
@[simp] theorem appendEntry_ics (e : Entry) : (appendEntry e s).ics = s.ics := rfl
@[simp] theorem appendEntry_inLen (e : Entry) : (appendEntry e s).inLen = s.inLen := rfl
@[simp] theorem appendEntry_codeWidth (e : Entry) : (appendEntry e s).codeWidth = s.codeWidth := rfl
@[simp] theorem appendEntry_byteIdx (e : Entry) : (appendEntry e s).byteIdx = s.byteIdx := rfl
@[simp] theorem appendEntry_bitOff (e : Entry) : (appendEntry e s).bitOff = s.bitOff := rfl
@[simp] theorem appendEntry_phase (e : Entry) : (appendEntry e s).phase = s.phase := rfl
@[simp] theorem appendEntry_prevCode (e : Entry) : (appendEntry e s).prevCode = s.prevCode := rfl
@[simp] theorem appendEntry_acc (e : Entry) : (appendEntry e s).acc = s.acc := rfl
@[simp] theorem appendEntry_codeReg (e : Entry) : (appendEntry e s).codeReg = s.codeReg := rfl
@[simp] theorem appendEntry_table (e : Entry) : (appendEntry e s).table = s.table.put blankEntry [e] := rfl
@[simp] theorem appendEntry_out (e : Entry) : (appendEntry e s).out = s.out := rfl
@[simp] theorem appendEntry_curSeq (e : Entry) : (appendEntry e s).curSeq = s.curSeq := rfl
@[simp] theorem appendEntry_prevSeq (e : Entry) : (appendEntry e s).prevSeq = s.prevSeq := rfl
@[simp] theorem appendEntry_input (e : Entry) : (appendEntry e s).input = s.input := rfl
@[simp] theorem appendEntry_agenda (e : Entry) : (appendEntry e s).agenda = s.agenda := rfl
@[simp] theorem appendEntry_hostData (e : Entry) : (appendEntry e s).hostData = s.hostData := rfl
@[simp] theorem appendEntry_freeCtr (e : Entry) : (appendEntry e s).freeCtr = s.freeCtr := rfl

/-! ### `widthStep` -/

@[simp] theorem widthStep_params :
    (widthStep s).params = s.params := by
  unfold widthStep; split <;> (try split) <;> rfl
@[simp] theorem widthStep_run : (widthStep s).run = s.run := by
  unfold widthStep; split <;> (try split) <;> rfl
@[simp] theorem widthStep_err : (widthStep s).err = s.err := by
  unfold widthStep; split <;> (try split) <;> rfl
@[simp] theorem widthStep_hrIcs :
    (widthStep s).hrIcs = s.hrIcs := by
  unfold widthStep; split <;> (try split) <;> rfl
@[simp] theorem widthStep_hrInLen :
    (widthStep s).hrInLen = s.hrInLen := by
  unfold widthStep; split <;> (try split) <;> rfl
@[simp] theorem widthStep_hrOutLen :
    (widthStep s).hrOutLen = s.hrOutLen := by
  unfold widthStep; split <;> (try split) <;> rfl
@[simp] theorem widthStep_icsWritten :
    (widthStep s).icsWritten = s.icsWritten := by
  unfold widthStep; split <;> (try split) <;> rfl
@[simp] theorem widthStep_inLenWritten :
    (widthStep s).inLenWritten = s.inLenWritten := by
  unfold widthStep; split <;> (try split) <;> rfl
@[simp] theorem widthStep_ics : (widthStep s).ics = s.ics := by
  unfold widthStep; split <;> (try split) <;> rfl
@[simp] theorem widthStep_inLen :
    (widthStep s).inLen = s.inLen := by
  unfold widthStep; split <;> (try split) <;> rfl
@[simp] theorem widthStep_codeWidth :
    (widthStep s).codeWidth = if s.table.len = 1 <<< s.codeWidth ∧ s.codeWidth < Config.maxWidth then s.codeWidth + 1 else s.codeWidth := by
  unfold widthStep; split <;> (try split) <;> simp_all
@[simp] theorem widthStep_byteIdx :
    (widthStep s).byteIdx = s.byteIdx := by
  unfold widthStep; split <;> (try split) <;> rfl
@[simp] theorem widthStep_bitOff :
    (widthStep s).bitOff = s.bitOff := by
  unfold widthStep; split <;> (try split) <;> rfl
@[simp] theorem widthStep_phase :
    (widthStep s).phase = if s.table.len = 1 <<< s.codeWidth ∧ ¬ s.codeWidth < Config.maxWidth then .tableFull else s.phase := by
  unfold widthStep; split <;> (try split) <;> simp_all
@[simp] theorem widthStep_prevCode :
    (widthStep s).prevCode = s.prevCode := by
  unfold widthStep; split <;> (try split) <;> rfl
@[simp] theorem widthStep_acc : (widthStep s).acc = s.acc := by
  unfold widthStep; split <;> (try split) <;> rfl
@[simp] theorem widthStep_codeReg :
    (widthStep s).codeReg = s.codeReg := by
  unfold widthStep; split <;> (try split) <;> rfl
@[simp] theorem widthStep_table :
    (widthStep s).table = s.table := by
  unfold widthStep; split <;> (try split) <;> rfl
@[simp] theorem widthStep_out : (widthStep s).out = s.out := by
  unfold widthStep; split <;> (try split) <;> rfl
@[simp] theorem widthStep_curSeq :
    (widthStep s).curSeq = s.curSeq := by
  unfold widthStep; split <;> (try split) <;> rfl
@[simp] theorem widthStep_prevSeq :
    (widthStep s).prevSeq = s.prevSeq := by
  unfold widthStep; split <;> (try split) <;> rfl
@[simp] theorem widthStep_input :
    (widthStep s).input = s.input := by
  unfold widthStep; split <;> (try split) <;> rfl
@[simp] theorem widthStep_agenda :
    (widthStep s).agenda = s.agenda := by
  unfold widthStep; split <;> (try split) <;> rfl
@[simp] theorem widthStep_hostData :
    (widthStep s).hostData = s.hostData := by
  unfold widthStep; split <;> (try split) <;> rfl
@[simp] theorem widthStep_freeCtr :
    (widthStep s).freeCtr = s.freeCtr := by
  unfold widthStep; split <;> (try split) <;> rfl

/-! ### `resetDict` -/

@[simp] theorem resetDict_params : (resetDict s).params = s.params := rfl
@[simp] theorem resetDict_run : (resetDict s).run = s.run := rfl
@[simp] theorem resetDict_err : (resetDict s).err = s.err := rfl
@[simp] theorem resetDict_hrIcs : (resetDict s).hrIcs = s.hrIcs := rfl
@[simp] theorem resetDict_hrInLen : (resetDict s).hrInLen = s.hrInLen := rfl
@[simp] theorem resetDict_hrOutLen : (resetDict s).hrOutLen = s.hrOutLen := rfl
@[simp] theorem resetDict_icsWritten : (resetDict s).icsWritten = s.icsWritten := rfl
@[simp] theorem resetDict_inLenWritten : (resetDict s).inLenWritten = s.inLenWritten := rfl
@[simp] theorem resetDict_ics : (resetDict s).ics = s.ics := rfl
@[simp] theorem resetDict_inLen : (resetDict s).inLen = s.inLen := rfl
@[simp] theorem resetDict_codeWidth : (resetDict s).codeWidth = s.startWidth := rfl
@[simp] theorem resetDict_byteIdx : (resetDict s).byteIdx = s.byteIdx := rfl
@[simp] theorem resetDict_bitOff : (resetDict s).bitOff = s.bitOff := rfl
@[simp] theorem resetDict_phase : (resetDict s).phase = s.phase := rfl
@[simp] theorem resetDict_prevCode : (resetDict s).prevCode = s.prevCode := rfl
@[simp] theorem resetDict_acc : (resetDict s).acc = s.acc := rfl
@[simp] theorem resetDict_codeReg : (resetDict s).codeReg = s.codeReg := rfl
@[simp] theorem resetDict_table : (resetDict s).table = { s.table with len := s.clear + 2 } := rfl
@[simp] theorem resetDict_out : (resetDict s).out = s.out := rfl
@[simp] theorem resetDict_curSeq : (resetDict s).curSeq = s.curSeq := rfl
@[simp] theorem resetDict_prevSeq : (resetDict s).prevSeq = s.prevSeq := rfl
@[simp] theorem resetDict_input : (resetDict s).input = s.input := rfl
@[simp] theorem resetDict_agenda : (resetDict s).agenda = s.agenda := rfl
@[simp] theorem resetDict_hostData : (resetDict s).hostData = s.hostData := rfl
@[simp] theorem resetDict_freeCtr : (resetDict s).freeCtr = s.freeCtr := rfl

/-! ### `clearDict` -/

@[simp] theorem clearDict_params : (clearDict s).params = s.params := rfl
@[simp] theorem clearDict_run : (clearDict s).run = s.run := rfl
@[simp] theorem clearDict_err : (clearDict s).err = s.err := rfl
@[simp] theorem clearDict_hrIcs : (clearDict s).hrIcs = s.hrIcs := rfl
@[simp] theorem clearDict_hrInLen : (clearDict s).hrInLen = s.hrInLen := rfl
@[simp] theorem clearDict_hrOutLen : (clearDict s).hrOutLen = s.hrOutLen := rfl
@[simp] theorem clearDict_icsWritten : (clearDict s).icsWritten = s.icsWritten := rfl
@[simp] theorem clearDict_inLenWritten : (clearDict s).inLenWritten = s.inLenWritten := rfl
@[simp] theorem clearDict_ics : (clearDict s).ics = s.ics := rfl
@[simp] theorem clearDict_inLen : (clearDict s).inLen = s.inLen := rfl
@[simp] theorem clearDict_codeWidth : (clearDict s).codeWidth = s.startWidth := rfl
@[simp] theorem clearDict_byteIdx : (clearDict s).byteIdx = s.byteIdx := rfl
@[simp] theorem clearDict_bitOff : (clearDict s).bitOff = s.bitOff := rfl
@[simp] theorem clearDict_phase : (clearDict s).phase = .awaitingFirst := rfl
@[simp] theorem clearDict_prevCode : (clearDict s).prevCode = none := rfl
@[simp] theorem clearDict_acc : (clearDict s).acc = s.acc := rfl
@[simp] theorem clearDict_codeReg : (clearDict s).codeReg = s.codeReg := rfl
@[simp] theorem clearDict_table : (clearDict s).table = { s.table with len := s.clear + 2 } := rfl
@[simp] theorem clearDict_out : (clearDict s).out = s.out := rfl
@[simp] theorem clearDict_curSeq : (clearDict s).curSeq = s.curSeq := rfl
@[simp] theorem clearDict_prevSeq : (clearDict s).prevSeq = s.prevSeq := rfl
@[simp] theorem clearDict_input : (clearDict s).input = s.input := rfl
@[simp] theorem clearDict_agenda : (clearDict s).agenda = s.agenda := rfl
@[simp] theorem clearDict_hostData : (clearDict s).hostData = s.hostData := rfl
@[simp] theorem clearDict_freeCtr : (clearDict s).freeCtr = s.freeCtr := rfl

/-! ### `releaseDictionary` -/

@[simp] theorem releaseDictionary_params : (releaseDictionary s).params = s.params := rfl
@[simp] theorem releaseDictionary_run : (releaseDictionary s).run = s.run := rfl
@[simp] theorem releaseDictionary_err : (releaseDictionary s).err = s.err := rfl
@[simp] theorem releaseDictionary_hrIcs : (releaseDictionary s).hrIcs = s.hrIcs := rfl
@[simp] theorem releaseDictionary_hrInLen : (releaseDictionary s).hrInLen = s.hrInLen := rfl
@[simp] theorem releaseDictionary_hrOutLen : (releaseDictionary s).hrOutLen = s.hrOutLen := rfl
@[simp] theorem releaseDictionary_icsWritten : (releaseDictionary s).icsWritten = s.icsWritten := rfl
@[simp] theorem releaseDictionary_inLenWritten : (releaseDictionary s).inLenWritten = s.inLenWritten := rfl
@[simp] theorem releaseDictionary_ics : (releaseDictionary s).ics = s.ics := rfl
@[simp] theorem releaseDictionary_inLen : (releaseDictionary s).inLen = s.inLen := rfl
@[simp] theorem releaseDictionary_codeWidth : (releaseDictionary s).codeWidth = s.codeWidth := rfl
@[simp] theorem releaseDictionary_byteIdx : (releaseDictionary s).byteIdx = s.byteIdx := rfl
@[simp] theorem releaseDictionary_bitOff : (releaseDictionary s).bitOff = s.bitOff := rfl
@[simp] theorem releaseDictionary_phase : (releaseDictionary s).phase = s.phase := rfl
@[simp] theorem releaseDictionary_prevCode : (releaseDictionary s).prevCode = s.prevCode := rfl
@[simp] theorem releaseDictionary_acc : (releaseDictionary s).acc = s.acc := rfl
@[simp] theorem releaseDictionary_codeReg : (releaseDictionary s).codeReg = s.codeReg := rfl
@[simp] theorem releaseDictionary_table : (releaseDictionary s).table = s.table.release := rfl
@[simp] theorem releaseDictionary_out : (releaseDictionary s).out = s.out := rfl
@[simp] theorem releaseDictionary_curSeq : (releaseDictionary s).curSeq = s.curSeq.release := rfl
@[simp] theorem releaseDictionary_prevSeq : (releaseDictionary s).prevSeq = s.prevSeq.release := rfl
@[simp] theorem releaseDictionary_input : (releaseDictionary s).input = s.input := rfl
@[simp] theorem releaseDictionary_agenda : (releaseDictionary s).agenda = s.agenda := rfl
@[simp] theorem releaseDictionary_hostData : (releaseDictionary s).hostData = s.hostData := rfl
@[simp] theorem releaseDictionary_freeCtr : (releaseDictionary s).freeCtr = s.freeCtr := rfl

/-! ### `forgetWork` -/

@[simp] theorem forgetWork_params : (forgetWork s).params = s.params := rfl
@[simp] theorem forgetWork_run : (forgetWork s).run = s.run := rfl
@[simp] theorem forgetWork_err : (forgetWork s).err = s.err := rfl
@[simp] theorem forgetWork_hrIcs : (forgetWork s).hrIcs = s.hrIcs := rfl
@[simp] theorem forgetWork_hrInLen : (forgetWork s).hrInLen = s.hrInLen := rfl
@[simp] theorem forgetWork_hrOutLen : (forgetWork s).hrOutLen = s.hrOutLen := rfl
@[simp] theorem forgetWork_icsWritten : (forgetWork s).icsWritten = s.icsWritten := rfl
@[simp] theorem forgetWork_inLenWritten : (forgetWork s).inLenWritten = s.inLenWritten := rfl
@[simp] theorem forgetWork_table : (forgetWork s).table = s.table := rfl
@[simp] theorem forgetWork_out : (forgetWork s).out = s.out := rfl
@[simp] theorem forgetWork_curSeq : (forgetWork s).curSeq = s.curSeq := rfl
@[simp] theorem forgetWork_prevSeq : (forgetWork s).prevSeq = s.prevSeq := rfl
@[simp] theorem forgetWork_input : (forgetWork s).input = s.input := rfl
@[simp] theorem forgetWork_agenda : (forgetWork s).agenda = s.agenda := rfl
@[simp] theorem forgetWork_hostData : (forgetWork s).hostData = s.hostData := rfl
@[simp] theorem forgetWork_freeCtr : (forgetWork s).freeCtr = s.freeCtr + 1 := rfl

/-! ### `raiseError` -/

@[simp] theorem raiseError_params (e : DecodeError) : (raiseError e s).params = s.params := rfl
@[simp] theorem raiseError_run (e : DecodeError) : (raiseError e s).run = .error := rfl
@[simp] theorem raiseError_err (e : DecodeError) : (raiseError e s).err = some e := rfl
@[simp] theorem raiseError_hrIcs (e : DecodeError) : (raiseError e s).hrIcs = s.hrIcs := rfl
@[simp] theorem raiseError_hrInLen (e : DecodeError) : (raiseError e s).hrInLen = s.hrInLen := rfl
@[simp] theorem raiseError_hrOutLen (e : DecodeError) : (raiseError e s).hrOutLen = 0 := rfl
@[simp] theorem raiseError_icsWritten (e : DecodeError) : (raiseError e s).icsWritten = s.icsWritten := rfl
@[simp] theorem raiseError_inLenWritten (e : DecodeError) : (raiseError e s).inLenWritten = s.inLenWritten := rfl
@[simp] theorem raiseError_table (e : DecodeError) : (raiseError e s).table = s.table.release := rfl
@[simp] theorem raiseError_out (e : DecodeError) : (raiseError e s).out = s.out.release := rfl
@[simp] theorem raiseError_curSeq (e : DecodeError) : (raiseError e s).curSeq = s.curSeq.release := rfl
@[simp] theorem raiseError_prevSeq (e : DecodeError) : (raiseError e s).prevSeq = s.prevSeq.release := rfl
@[simp] theorem raiseError_input (e : DecodeError) : (raiseError e s).input = s.input := rfl
@[simp] theorem raiseError_agenda (e : DecodeError) : (raiseError e s).agenda = s.agenda := rfl
@[simp] theorem raiseError_hostData (e : DecodeError) : (raiseError e s).hostData = s.hostData := rfl
@[simp] theorem raiseError_freeCtr (e : DecodeError) : (raiseError e s).freeCtr = s.freeCtr + 1 := rfl

/-! ### `finishDecode` -/

@[simp] theorem finishDecode_params : (finishDecode s).params = s.params := rfl
@[simp] theorem finishDecode_run : (finishDecode s).run = .done := rfl
@[simp] theorem finishDecode_err : (finishDecode s).err = none := rfl
@[simp] theorem finishDecode_hrIcs : (finishDecode s).hrIcs = s.hrIcs := rfl
@[simp] theorem finishDecode_hrInLen : (finishDecode s).hrInLen = s.hrInLen := rfl
@[simp] theorem finishDecode_hrOutLen : (finishDecode s).hrOutLen = BitVec.ofNat 32 s.out.len := rfl
@[simp] theorem finishDecode_icsWritten : (finishDecode s).icsWritten = s.icsWritten := rfl
@[simp] theorem finishDecode_inLenWritten : (finishDecode s).inLenWritten = s.inLenWritten := rfl
@[simp] theorem finishDecode_table : (finishDecode s).table = s.table.release := rfl
@[simp] theorem finishDecode_out : (finishDecode s).out = s.out := rfl
@[simp] theorem finishDecode_curSeq : (finishDecode s).curSeq = s.curSeq.release := rfl
@[simp] theorem finishDecode_prevSeq : (finishDecode s).prevSeq = s.prevSeq.release := rfl
@[simp] theorem finishDecode_input : (finishDecode s).input = s.input := rfl
@[simp] theorem finishDecode_agenda : (finishDecode s).agenda = s.agenda := rfl
@[simp] theorem finishDecode_hostData : (finishDecode s).hostData = s.hostData := rfl
@[simp] theorem finishDecode_freeCtr : (finishDecode s).freeCtr = s.freeCtr + 1 := rfl

/-! ### `readUnspecified` -/

@[simp] theorem readUnspecified_params (w : Nat) : (readUnspecified w s).params = s.params := rfl
@[simp] theorem readUnspecified_run (w : Nat) : (readUnspecified w s).run = s.run := rfl
@[simp] theorem readUnspecified_err (w : Nat) : (readUnspecified w s).err = s.err := rfl
@[simp] theorem readUnspecified_hrIcs (w : Nat) : (readUnspecified w s).hrIcs = s.hrIcs := rfl
@[simp] theorem readUnspecified_hrInLen (w : Nat) : (readUnspecified w s).hrInLen = s.hrInLen := rfl
@[simp] theorem readUnspecified_hrOutLen (w : Nat) : (readUnspecified w s).hrOutLen = s.hrOutLen := rfl
@[simp] theorem readUnspecified_icsWritten (w : Nat) : (readUnspecified w s).icsWritten = s.icsWritten := rfl
@[simp] theorem readUnspecified_inLenWritten (w : Nat) : (readUnspecified w s).inLenWritten = s.inLenWritten := rfl
@[simp] theorem readUnspecified_ics (w : Nat) : (readUnspecified w s).ics = s.ics := rfl
@[simp] theorem readUnspecified_inLen (w : Nat) : (readUnspecified w s).inLen = s.inLen := rfl
@[simp] theorem readUnspecified_codeWidth (w : Nat) : (readUnspecified w s).codeWidth = s.codeWidth := rfl
@[simp] theorem readUnspecified_byteIdx (w : Nat) : (readUnspecified w s).byteIdx = s.byteIdx := rfl
@[simp] theorem readUnspecified_bitOff (w : Nat) : (readUnspecified w s).bitOff = s.bitOff := rfl
@[simp] theorem readUnspecified_phase (w : Nat) : (readUnspecified w s).phase = s.phase := rfl
@[simp] theorem readUnspecified_prevCode (w : Nat) : (readUnspecified w s).prevCode = s.prevCode := rfl
@[simp] theorem readUnspecified_acc (w : Nat) : (readUnspecified w s).acc = s.acc := rfl
@[simp] theorem readUnspecified_codeReg (w : Nat) : (readUnspecified w s).codeReg = s.codeReg := rfl
@[simp] theorem readUnspecified_table (w : Nat) : (readUnspecified w s).table = s.table := rfl
@[simp] theorem readUnspecified_out (w : Nat) : (readUnspecified w s).out = s.out := rfl
@[simp] theorem readUnspecified_curSeq (w : Nat) : (readUnspecified w s).curSeq = s.curSeq := rfl
@[simp] theorem readUnspecified_prevSeq (w : Nat) : (readUnspecified w s).prevSeq = s.prevSeq := rfl
@[simp] theorem readUnspecified_input (w : Nat) : (readUnspecified w s).input = s.input := rfl
@[simp] theorem readUnspecified_agenda (w : Nat) : (readUnspecified w s).agenda = s.agenda := rfl
@[simp] theorem readUnspecified_freeCtr (w : Nat) : (readUnspecified w s).freeCtr = s.freeCtr + 1 := rfl

/-! ### `started` -/

@[simp] theorem started_params : (started s).params = s.params := rfl
@[simp] theorem started_run : (started s).run = .busy := rfl
@[simp] theorem started_err : (started s).err = none := rfl
@[simp] theorem started_hrIcs : (started s).hrIcs = s.hrIcs := rfl
@[simp] theorem started_hrInLen : (started s).hrInLen = s.hrInLen := rfl
@[simp] theorem started_hrOutLen : (started s).hrOutLen = 0 := rfl
@[simp] theorem started_icsWritten : (started s).icsWritten = s.icsWritten := rfl
@[simp] theorem started_inLenWritten : (started s).inLenWritten = s.inLenWritten := rfl
@[simp] theorem started_ics : (started s).ics = s.hrIcs.toNat := rfl
@[simp] theorem started_inLen : (started s).inLen = s.hrInLen := rfl
@[simp] theorem started_codeWidth : (started s).codeWidth = s.hrIcs.toNat + 1 := rfl
@[simp] theorem started_byteIdx : (started s).byteIdx = 0 := rfl
@[simp] theorem started_bitOff : (started s).bitOff = 0 := rfl
@[simp] theorem started_phase : (started s).phase = .awaitingReset := rfl
@[simp] theorem started_prevCode : (started s).prevCode = none := rfl
@[simp] theorem started_table : (started s).table = freshTable s.params.entryBytes s.hrIcs.toNat := rfl
@[simp] theorem started_out : (started s).out = Buffer.fresh Config.symbolBytes s.params.outCap := rfl
@[simp] theorem started_curSeq : (started s).curSeq = Buffer.fresh Config.symbolBytes Config.scratchCap := rfl
@[simp] theorem started_prevSeq : (started s).prevSeq = Buffer.fresh Config.symbolBytes Config.scratchCap := rfl
@[simp] theorem started_input : (started s).input = s.input := rfl
@[simp] theorem started_agenda : (started s).agenda = s.agenda := rfl
@[simp] theorem started_hostData : (started s).hostData = s.hostData := rfl
@[simp] theorem started_freeCtr : (started s).freeCtr = s.freeCtr + 1 := rfl

/-! ### The views of an update that touches none of their fields -/

@[simp] theorem fetched_clear : (fetched s).clear = s.clear := rfl
@[simp] theorem fetched_endCode : (fetched s).endCode = s.endCode := rfl
@[simp] theorem fetched_startWidth : (fetched s).startWidth = s.startWidth := rfl
@[simp] theorem fetched_codeMask : (fetched s).codeMask = s.codeMask := rfl
@[simp] theorem fetched_outSeq : (fetched s).outSeq = s.outSeq := rfl
@[simp] theorem fetched_inByte (a : Nat) : (fetched s).inByte a = s.inByte a := rfl
@[simp] theorem fetched_outSymbol (i : Nat) : (fetched s).outSymbol i = s.outSymbol i := rfl
@[simp] theorem fetched_slot (i : Nat) : (fetched s).slot i = s.slot i := rfl
@[simp] theorem putOut_clear (xs : List Symbol) : (putOut xs s).clear = s.clear := rfl
@[simp] theorem putOut_endCode (xs : List Symbol) : (putOut xs s).endCode = s.endCode := rfl
@[simp] theorem putOut_startWidth (xs : List Symbol) : (putOut xs s).startWidth = s.startWidth := rfl
@[simp] theorem putOut_codeMask (xs : List Symbol) : (putOut xs s).codeMask = s.codeMask := rfl
@[simp] theorem putOut_bitPos (xs : List Symbol) : (putOut xs s).bitPos = s.bitPos := rfl
@[simp] theorem putOut_inByte (xs : List Symbol) (a : Nat) : (putOut xs s).inByte a = s.inByte a := rfl
@[simp] theorem putOut_slot (xs : List Symbol) (i : Nat) : (putOut xs s).slot i = s.slot i := rfl
@[simp] theorem holdSeq_clear (e : Entry) : (holdSeq e s).clear = s.clear := rfl
@[simp] theorem holdSeq_endCode (e : Entry) : (holdSeq e s).endCode = s.endCode := rfl
@[simp] theorem holdSeq_startWidth (e : Entry) : (holdSeq e s).startWidth = s.startWidth := rfl
@[simp] theorem holdSeq_codeMask (e : Entry) : (holdSeq e s).codeMask = s.codeMask := rfl
@[simp] theorem holdSeq_bitPos (e : Entry) : (holdSeq e s).bitPos = s.bitPos := rfl
@[simp] theorem holdSeq_outSeq (e : Entry) : (holdSeq e s).outSeq = s.outSeq := rfl
@[simp] theorem holdSeq_inByte (e : Entry) (a : Nat) : (holdSeq e s).inByte a = s.inByte a := rfl
@[simp] theorem holdSeq_outSymbol (e : Entry) (i : Nat) : (holdSeq e s).outSymbol i = s.outSymbol i := rfl
@[simp] theorem holdSeq_slot (e : Entry) (i : Nat) : (holdSeq e s).slot i = s.slot i := rfl
@[simp] theorem remember_clear (c : Code) (e : Entry) : (remember c e s).clear = s.clear := rfl
@[simp] theorem remember_endCode (c : Code) (e : Entry) : (remember c e s).endCode = s.endCode := rfl
@[simp] theorem remember_startWidth (c : Code) (e : Entry) : (remember c e s).startWidth = s.startWidth := rfl
@[simp] theorem remember_codeMask (c : Code) (e : Entry) : (remember c e s).codeMask = s.codeMask := rfl
@[simp] theorem remember_bitPos (c : Code) (e : Entry) : (remember c e s).bitPos = s.bitPos := rfl
@[simp] theorem remember_outSeq (c : Code) (e : Entry) : (remember c e s).outSeq = s.outSeq := rfl
@[simp] theorem remember_inByte (c : Code) (e : Entry) (a : Nat) : (remember c e s).inByte a = s.inByte a := rfl
@[simp] theorem remember_outSymbol (c : Code) (e : Entry) (i : Nat) : (remember c e s).outSymbol i = s.outSymbol i := rfl
@[simp] theorem remember_slot (c : Code) (e : Entry) (i : Nat) : (remember c e s).slot i = s.slot i := rfl
@[simp] theorem appendEntry_clear (e : Entry) : (appendEntry e s).clear = s.clear := rfl
@[simp] theorem appendEntry_endCode (e : Entry) : (appendEntry e s).endCode = s.endCode := rfl
@[simp] theorem appendEntry_startWidth (e : Entry) : (appendEntry e s).startWidth = s.startWidth := rfl
@[simp] theorem appendEntry_codeMask (e : Entry) : (appendEntry e s).codeMask = s.codeMask := rfl
@[simp] theorem appendEntry_bitPos (e : Entry) : (appendEntry e s).bitPos = s.bitPos := rfl
@[simp] theorem appendEntry_outSeq (e : Entry) : (appendEntry e s).outSeq = s.outSeq := rfl
@[simp] theorem appendEntry_inByte (e : Entry) (a : Nat) : (appendEntry e s).inByte a = s.inByte a := rfl
@[simp] theorem appendEntry_outSymbol (e : Entry) (i : Nat) : (appendEntry e s).outSymbol i = s.outSymbol i := rfl
@[simp] theorem widthStep_clear : (widthStep s).clear = s.clear := by
  simp [State.clear]
@[simp] theorem widthStep_endCode : (widthStep s).endCode = s.endCode := by
  simp [State.endCode, State.endCode, State.clear]
@[simp] theorem widthStep_startWidth : (widthStep s).startWidth = s.startWidth := by
  simp [State.startWidth]
@[simp] theorem widthStep_bitPos : (widthStep s).bitPos = s.bitPos := by
  simp [State.bitPos]
@[simp] theorem widthStep_outSeq : (widthStep s).outSeq = s.outSeq := by
  simp [State.outSeq]
@[simp] theorem widthStep_inByte (a : Nat) : (widthStep s).inByte a = s.inByte a := by
  simp [State.inByte]
@[simp] theorem widthStep_outSymbol (i : Nat) : (widthStep s).outSymbol i = s.outSymbol i := by
  simp [State.outSymbol]
@[simp] theorem widthStep_slot (i : Nat) : (widthStep s).slot i = s.slot i := by
  simp [State.slot]
@[simp] theorem resetDict_clear : (resetDict s).clear = s.clear := rfl
@[simp] theorem resetDict_endCode : (resetDict s).endCode = s.endCode := rfl
@[simp] theorem resetDict_startWidth : (resetDict s).startWidth = s.startWidth := rfl
@[simp] theorem resetDict_bitPos : (resetDict s).bitPos = s.bitPos := rfl
@[simp] theorem resetDict_outSeq : (resetDict s).outSeq = s.outSeq := rfl
@[simp] theorem resetDict_inByte (a : Nat) : (resetDict s).inByte a = s.inByte a := rfl
@[simp] theorem resetDict_outSymbol (i : Nat) : (resetDict s).outSymbol i = s.outSymbol i := rfl
@[simp] theorem clearDict_clear : (clearDict s).clear = s.clear := rfl
@[simp] theorem clearDict_endCode : (clearDict s).endCode = s.endCode := rfl
@[simp] theorem clearDict_startWidth : (clearDict s).startWidth = s.startWidth := rfl
@[simp] theorem clearDict_bitPos : (clearDict s).bitPos = s.bitPos := rfl
@[simp] theorem clearDict_outSeq : (clearDict s).outSeq = s.outSeq := rfl
@[simp] theorem clearDict_inByte (a : Nat) : (clearDict s).inByte a = s.inByte a := rfl
@[simp] theorem clearDict_outSymbol (i : Nat) : (clearDict s).outSymbol i = s.outSymbol i := rfl
@[simp] theorem releaseDictionary_clear : (releaseDictionary s).clear = s.clear := rfl
@[simp] theorem releaseDictionary_endCode : (releaseDictionary s).endCode = s.endCode := rfl
@[simp] theorem releaseDictionary_startWidth : (releaseDictionary s).startWidth = s.startWidth := rfl
@[simp] theorem releaseDictionary_codeMask : (releaseDictionary s).codeMask = s.codeMask := rfl
@[simp] theorem releaseDictionary_bitPos : (releaseDictionary s).bitPos = s.bitPos := rfl
@[simp] theorem releaseDictionary_outSeq : (releaseDictionary s).outSeq = s.outSeq := rfl
@[simp] theorem releaseDictionary_inByte (a : Nat) : (releaseDictionary s).inByte a = s.inByte a := rfl
@[simp] theorem releaseDictionary_outSymbol (i : Nat) : (releaseDictionary s).outSymbol i = s.outSymbol i := rfl
@[simp] theorem forgetWork_outSeq : (forgetWork s).outSeq = s.outSeq := rfl
@[simp] theorem forgetWork_inByte (a : Nat) : (forgetWork s).inByte a = s.inByte a := rfl
@[simp] theorem forgetWork_outSymbol (i : Nat) : (forgetWork s).outSymbol i = s.outSymbol i := rfl
@[simp] theorem forgetWork_slot (i : Nat) : (forgetWork s).slot i = s.slot i := rfl
@[simp] theorem raiseError_inByte (e : DecodeError) (a : Nat) : (raiseError e s).inByte a = s.inByte a := rfl
@[simp] theorem finishDecode_outSeq : (finishDecode s).outSeq = s.outSeq := rfl
@[simp] theorem finishDecode_inByte (a : Nat) : (finishDecode s).inByte a = s.inByte a := rfl
@[simp] theorem finishDecode_outSymbol (i : Nat) : (finishDecode s).outSymbol i = s.outSymbol i := rfl
@[simp] theorem readUnspecified_clear (w : Nat) : (readUnspecified w s).clear = s.clear := rfl
@[simp] theorem readUnspecified_endCode (w : Nat) : (readUnspecified w s).endCode = s.endCode := rfl
@[simp] theorem readUnspecified_startWidth (w : Nat) : (readUnspecified w s).startWidth = s.startWidth := rfl
@[simp] theorem readUnspecified_codeMask (w : Nat) : (readUnspecified w s).codeMask = s.codeMask := rfl
@[simp] theorem readUnspecified_bitPos (w : Nat) : (readUnspecified w s).bitPos = s.bitPos := rfl
@[simp] theorem readUnspecified_outSeq (w : Nat) : (readUnspecified w s).outSeq = s.outSeq := rfl
@[simp] theorem readUnspecified_inByte (w : Nat) (a : Nat) : (readUnspecified w s).inByte a = s.inByte a := rfl
@[simp] theorem readUnspecified_outSymbol (w : Nat) (i : Nat) : (readUnspecified w s).outSymbol i = s.outSymbol i := rfl
@[simp] theorem readUnspecified_slot (w : Nat) (i : Nat) : (readUnspecified w s).slot i = s.slot i := rfl
@[simp] theorem started_inByte (a : Nat) : (started s).inByte a = s.inByte a := rfl

end Sys2Proof.Machine
end

