-- ==== Sys2Proof/Laws/Ops.lean ====
section
/-! SUPPORT. For each shared operation, once, everything it can do: what it goes on with, what it ends with, what it leaves
as it was. -/

namespace Sys2Proof.Machine

/-! ### The operations that go on or stop -/

theorem emitThen_fits {xs : List Symbol} {s : State} {k : State → Result}
    (h : s.out.len + xs.length ≤ s.params.outCap) : emitThen xs s k = k (putOut xs s) := by
  simp [emitThen, Nat.not_lt.mpr h]

theorem emitThen_overflow {xs : List Symbol} {s : State} {k : State → Result}
    (h : s.params.outCap < s.out.len + xs.length) : emitThen xs s k = .next (raiseError .allocationError s) := by
  simp [emitThen, h]

/-- An emit either raises `AllocationError` or goes on with the symbols stored. -/
theorem emitThen_cases (xs : List Symbol) (s : State) (k : State → Result) :
    (s.params.outCap < s.out.len + xs.length ∧ emitThen xs s k = .next (raiseError .allocationError s)) ∨
      (s.out.len + xs.length ≤ s.params.outCap ∧ emitThen xs s k = k (putOut xs s)) := by
  rcases Nat.lt_or_ge s.params.outCap (s.out.len + xs.length) with h | h
  · exact .inl ⟨h, emitThen_overflow h⟩
  · exact .inr ⟨h, emitThen_fits h⟩

theorem growThen_grows {e : Entry} {s : State} {k : State → Result} (hp : s.phase = .streaming)
    (hl : s.table.len < 4096) : growThen e s k = k (widthStep (appendEntry e s)) := by
  simp [growThen, hp, Config.maxEntries, Nat.not_le.mpr hl]

theorem growThen_outside {e : Entry} {s : State} {k : State → Result} (hp : s.phase ≠ .streaming) :
    growThen e s k = .fault .growOutsideStreaming := by
  simp [growThen, hp]

theorem growThen_full {e : Entry} {s : State} {k : State → Result} (hp : s.phase = .streaming)
    (hl : 4096 ≤ s.table.len) : growThen e s k = .fault .growOfFullTable := by
  simp [growThen, hp, Config.maxEntries, hl]

/-- If something comes of a grow, its precondition held and it went on with the entry added. -/
theorem growThen_next {e : Entry} {s t : State} {k : State → Result} (h : growThen e s k = .next t) :
    s.phase = .streaming ∧ s.table.len < 4096 ∧ k (widthStep (appendEntry e s)) = .next t := by
  unfold growThen at h
  split at h
  · cases h
  · next hp =>
    split at h
    · cases h
    · next hl => exact ⟨by simpa using hp, by simpa [Config.maxEntries] using hl, h⟩

/-- Forming an entry leaves it in the scratch sequence (40_buffer_ops.md R72). -/
theorem formEntry_eq (p : Entry) (x : Symbol) (s : State) : formEntry p x s = holdSeq (p ++ [x]) s := by
  simp [formEntry, holdSeq, Buffer.put_load]

/-- What is formed is what is grown. -/
theorem formThenGrow_eq (p : Entry) (x : Symbol) (s : State) (k : State → Result) :
    formThenGrow p x s k = growThen (p ++ [x]) (holdSeq (p ++ [x]) s) k := by
  simp [formThenGrow, formEntry_eq]

theorem formThenGrow_grows {p : Entry} {x : Symbol} {s : State} {k : State → Result} (hp : s.phase = .streaming)
    (hl : s.table.len < 4096) :
    formThenGrow p x s k = k (widthStep (appendEntry (p ++ [x]) (holdSeq (p ++ [x]) s))) := by
  rw [formThenGrow_eq, growThen_grows (s := holdSeq (p ++ [x]) s) hp hl]

/-- If something comes of it, the precondition of the grow held and it went on with the entry formed and added. -/
theorem formThenGrow_next {p : Entry} {x : Symbol} {s t : State} {k : State → Result}
    (h : formThenGrow p x s k = .next t) :
    s.phase = .streaming ∧ s.table.len < 4096 ∧
      k (widthStep (appendEntry (p ++ [x]) (holdSeq (p ++ [x]) s))) = .next t := by
  rw [formThenGrow_eq] at h
  exact growThen_next h

theorem entryThen_valid {i : Code} {s : State} {k : Entry → Result} (h : s.HasEntry i.toNat) :
    entryThen i s k = k (s.slot i.toNat) := if_pos h

/-- If something comes of a read of an entry, the slot was a valid element and it went on with it. -/
theorem entryThen_next {i : Code} {s t : State} {k : Entry → Result} (h : entryThen i s k = .next t) :
    s.HasEntry i.toNat ∧ k (s.slot i.toNat) = .next t := by
  unfold entryThen at h
  split at h
  · next hv => exact ⟨hv, h⟩
  · cases h

theorem entryThen_none {i : Code} {s : State} {k : Entry → Result} (h : ¬ s.HasEntry i.toNat) :
    entryThen i s k = .fault .slotHasNoValue := if_neg h

theorem lookup_some {s : State} {c : Code} {x : Symbol} {xs : List Symbol} (h : lookup s c = some (x, xs)) :
    c.toNat < s.table.len ∧ s.slot c.toNat = x :: xs := by
  unfold lookup at h
  split at h
  · next hl =>
    split at h
    · cases h
    · next hs => cases h; exact ⟨hl, hs⟩
  · cases h

theorem lookup_of_slot {s : State} {c : Code} {x : Symbol} {xs : List Symbol} (hl : c.toNat < s.table.len)
    (hs : s.slot c.toNat = x :: xs) : lookup s c = some (x, xs) := by
  simp [lookup, hl, hs]

/-- A lookup sees the Code Table only. -/
theorem lookup_congr {s t : State} (h : t.table = s.table) (c : Code) : lookup t c = lookup s c := by
  simp [lookup, State.slot, h]

theorem lookupThen_some {c : Code} {s : State} {x : Symbol} {xs : List Symbol} {k : Symbol → Entry → Result}
    (h : lookup s c = some (x, xs)) : lookupThen c s k = k x (x :: xs) := by
  simp [lookupThen, h]

theorem lookupThen_none {c : Code} {s : State} {k : Symbol → Entry → Result} (h : lookup s c = none) :
    lookupThen c s k = .fault .slotHasNoValue := by
  simp [lookupThen, h]

/-- If something comes of a lookup, the slot had a value and it went on with it. -/
theorem lookupThen_next {c : Code} {s t : State} {k : Symbol → Entry → Result} (h : lookupThen c s k = .next t) :
    ∃ x xs, lookup s c = some (x, xs) ∧ k x (x :: xs) = .next t := by
  unfold lookupThen at h
  split at h
  · cases h
  · next x xs hl => exact ⟨x, xs, hl, h⟩

theorem prevThen_some {s : State} {p : Code} {x : Symbol} {xs : List Symbol} {k : Symbol → Entry → Result}
    (hp : s.prevCode = some p) (h : lookup s p = some (x, xs)) : prevThen s k = k x (x :: xs) := by
  simp [prevThen, hp, lookupThen_some h]

/-- If something comes of `T[prevCode]`, there was a previous code, its slot had a value, and it went on with it. -/
theorem prevThen_next {s t : State} {k : Symbol → Entry → Result} (h : prevThen s k = .next t) :
    ∃ p x xs, s.prevCode = some p ∧ lookup s p = some (x, xs) ∧ k x (x :: xs) = .next t := by
  unfold prevThen at h
  split at h
  · cases h
  · next p hp =>
    obtain ⟨x, xs, hl, hk⟩ := lookupThen_next h
    exact ⟨p, x, xs, hp, hl, hk⟩

theorem fetchThen_truncated {s : State} {k : State → Result} (h : s.truncated = true) :
    fetchThen s k = .next (raiseError .truncatedStream s) := by
  simp [fetchThen, h]

theorem fetchThen_fetched {s : State} {k : State → Result} (h : s.truncated = false) :
    fetchThen s k = k (fetched s) := by
  simp [fetchThen, h]

/-- The truncation test in bits (41_bit_unpacker.md R75). -/
theorem truncated_iff (s : State) :
    s.truncated = true ↔ 8 * s.inLen < s.bitPos + s.codeWidth := by
  unfold State.truncated State.fetchBytes bytesNeeded State.bitPos
  rw [decide_eq_true_iff]
  omega

/-! ### What the updates do, in the terms of the statements -/

theorem emitted_putOut (xs : List Symbol) (s : State) : Emitted xs s (putOut xs s) := by
  refine ⟨by simp, by simp [Buffer.SameAttributes], fun k h => ?_, fun i h => ?_⟩
  · exact Buffer.read_put_inside blankSymbol s.out xs k h
  · exact Buffer.read_put_outside blankSymbol s.out xs i h

@[simp] theorem outSeq_putOut (xs : List Symbol) (s : State) : (putOut xs s).outSeq = s.outSeq ++ xs := by
  simp [State.outSeq]

theorem grown_appendEntry (e : Entry) (s : State) : Grown e s (appendEntry e s) := by
  refine ⟨by simp, by simp [Buffer.SameAttributes], ?_, fun i h => ?_⟩
  · exact Buffer.read_put_inside blankEntry s.table [e] 0 (by simp)
  · exact Buffer.read_put_outside blankEntry s.table [e] i (by simp; omega)

/-- The slots after an entry has been added. -/
theorem slot_appendEntry (e : Entry) (s : State) (i : Nat) :
    (appendEntry e s).slot i = if i = s.table.len then e else s.slot i := by
  obtain ⟨-, -, h1, h2⟩ := grown_appendEntry e s
  split
  · next h => rw [h, h1]
  · next h => exact h2 i h

theorem widthStepped_widthStep (e : Entry) (s : State) : WidthStepped s (widthStep (appendEntry e s)) := by
  simp only [WidthStepped, widthStep_table, widthStep_codeWidth, widthStep_phase, appendEntry_codeWidth,
    appendEntry_phase, Nat.one_shiftLeft, Config.maxWidth]
  by_cases h1 : (appendEntry e s).table.len = 2 ^ s.codeWidth <;> by_cases h2 : s.codeWidth < 12 <;>
    simp only [h1, h2, ↓reduceIte, true_and, and_self, and_true, not_true_eq_false, not_false_eq_true]

theorem remembered_remember (c : Code) (e : Entry) (s : State) : Remembered c e s (remember c e s) := by
  exact ⟨rfl, by simp, ⟨rfl, rfl, rfl, rfl⟩⟩

theorem inScratch_holdSeq (e : Entry) (s : State) : InScratch e s (holdSeq e s) :=
  ⟨by simp, ⟨rfl, rfl, rfl, rfl⟩⟩

theorem endedInError_raiseError (e : DecodeError) (s : State) : EndedInError e s (raiseError e s) := by
  refine ⟨rfl, rfl, rfl, ?_, ?_, ?_, ?_, ⟨rfl, rfl, rfl, rfl, rfl, rfl, rfl⟩, fun a => rfl⟩
  · exact s.table.release_len
  · exact s.out.release_len
  · exact s.curSeq.release_len
  · exact s.prevSeq.release_len

theorem endedWell_finishDecode (s : State) : EndedWell s (finishDecode s) := by
  refine ⟨rfl, rfl, rfl, ⟨rfl, ⟨rfl, rfl, rfl, rfl⟩, fun i => rfl⟩, ?_, ?_, ?_,
    ⟨rfl, rfl, rfl, rfl, rfl, rfl, rfl⟩, fun a => rfl⟩
  · exact s.table.release_len
  · exact s.curSeq.release_len
  · exact s.prevSeq.release_len

/-- Every update of a code step keeps the stores in canonical form. -/
theorem storesOk_putOut {s : State} (h : StoresOk s) (xs : List Symbol) : StoresOk (putOut xs s) :=
  ⟨h.1, h.2.1, Buffer.wf_put _ _ _ h.2.2.1, h.2.2.2⟩

theorem storesOk_appendEntry {s : State} (h : StoresOk s) (e : Entry) : StoresOk (appendEntry e s) :=
  ⟨h.1, Buffer.wf_put _ _ _ h.2.1, h.2.2⟩

theorem storesOk_remember {s : State} (h : StoresOk s) (c : Code) (e : Entry) : StoresOk (remember c e s) :=
  ⟨h.1, h.2.1, h.2.2.1, h.2.2.2.1, Buffer.wf_load _ _ _ h.2.2.2.2⟩

theorem storesOk_holdSeq {s : State} (h : StoresOk s) (e : Entry) : StoresOk (holdSeq e s) :=
  ⟨h.1, h.2.1, h.2.2.1, Buffer.wf_load _ _ _ h.2.2.2.1, h.2.2.2.2⟩

theorem storesOk_widthStep {s : State} (h : StoresOk s) : StoresOk (widthStep s) := by
  simpa [StoresOk] using h

theorem storesOk_fetched {s : State} (h : StoresOk s) : StoresOk (fetched s) := h

theorem storesOk_clearDict {s : State} (h : StoresOk s) : StoresOk (clearDict s) := h

theorem storesOk_raiseError {s : State} (h : StoresOk s) (e : DecodeError) : StoresOk (raiseError e s) :=
  ⟨h.1, Buffer.wf_release _ _ h.2.1, Buffer.wf_release _ _ h.2.2.1, Buffer.wf_release _ _ h.2.2.2.1,
    Buffer.wf_release _ _ h.2.2.2.2⟩

theorem storesOk_finishDecode {s : State} (h : StoresOk s) : StoresOk (finishDecode s) :=
  ⟨h.1, Buffer.wf_release _ _ h.2.1, h.2.2.1, Buffer.wf_release _ _ h.2.2.2.1, Buffer.wf_release _ _ h.2.2.2.2⟩

theorem storesOk_started {s : State} (h : StoresOk s) : StoresOk (started s) :=
  ⟨h.1, literalSlots_wf _, Memory.wf_nil _, Memory.wf_nil _, Memory.wf_nil _⟩

end Sys2Proof.Machine
end

