-- ==== Sys2Proof/Laws/Codes.lean ====
section
/-! SUPPORT. One lemma per code of the stream and per direction: what it does where its conditions hold, and everything it
can have done if it answers a next state. -/

namespace Sys2Proof.Machine

/-- The state after a data code of phase `S`: `e` emitted, `new` formed and added, the width rule applied, `c`
remembered. -/
def afterGrow (c : Code) (e new : Entry) (s : State) : State :=
  remember c e (widthStep (appendEntry new (holdSeq new (putOut e s))))

/-- The state after a data code that adds no entry: `e` emitted, `c` remembered. -/
def afterEmit (c : Code) (e : Entry) (s : State) : State := remember c e (holdSeq e (putOut e s))

theorem execLitF_fits {c : Code} {s : State} (h : s.out.len + 1 ≤ s.params.outCap) :
    execLitF c s = .next { afterEmit c [literalSymbol c] s with phase := .streaming } := by
  unfold execLitF
  rw [emitThen_fits (by simpa using h)]
  rfl

theorem execLitF_overflow {c : Code} {s : State} (h : s.params.outCap < s.out.len + 1) :
    execLitF c s = .next (raiseError .allocationError s) := by
  unfold execLitF
  rw [emitThen_overflow (by simpa using h)]

theorem execLitT_fits {c : Code} {s : State} (h : s.out.len + 1 ≤ s.params.outCap) :
    execLitT c s = .next (afterEmit c [literalSymbol c] s) := by
  unfold execLitT
  rw [emitThen_fits (by simpa using h)]
  rfl

theorem execLitT_overflow {c : Code} {s : State} (h : s.params.outCap < s.out.len + 1) :
    execLitT c s = .next (raiseError .allocationError s) := by
  unfold execLitT
  rw [emitThen_overflow (by simpa using h)]

theorem execRefT_fits {c : Code} {s : State} {y : Symbol} {ys : List Symbol} (hl : lookup s c = some (y, ys))
    (h : s.out.len + (y :: ys).length ≤ s.params.outCap) : execRefT c s = .next (afterEmit c (y :: ys) s) := by
  unfold execRefT
  rw [lookupThen_some hl, emitThen_fits h]
  rfl

theorem execRefT_overflow {c : Code} {s : State} {y : Symbol} {ys : List Symbol} (hl : lookup s c = some (y, ys))
    (h : s.params.outCap < s.out.len + (y :: ys).length) : execRefT c s = .next (raiseError .allocationError s) := by
  unfold execRefT
  rw [lookupThen_some hl, emitThen_overflow h]

theorem execLitS_fits {c p : Code} {s : State} {x : Symbol} {xs : List Symbol} (hp : s.phase = .streaming)
    (ht : s.table.len < 4096) (hpc : s.prevCode = some p) (hl : lookup s p = some (x, xs))
    (h : s.out.len + 1 ≤ s.params.outCap) :
    execLitS c s = .next (afterGrow c [literalSymbol c] (x :: xs ++ [literalSymbol c]) s) := by
  unfold execLitS
  rw [emitThen_fits (by simpa using h), prevThen_some (s := putOut [literalSymbol c] s) hpc (x := x) (xs := xs),
    formThenGrow_grows (s := putOut [literalSymbol c] s) hp ht]
  · rfl
  · rw [← hl]
    exact lookup_congr rfl p

theorem execLitS_overflow {c : Code} {s : State} (h : s.params.outCap < s.out.len + 1) :
    execLitS c s = .next (raiseError .allocationError s) := by
  unfold execLitS
  rw [emitThen_overflow (by simpa using h)]

theorem execRefS_fits {c p : Code} {s : State} {x y : Symbol} {xs ys : List Symbol} (hp : s.phase = .streaming)
    (ht : s.table.len < 4096) (hpc : s.prevCode = some p) (hl : lookup s p = some (x, xs))
    (hc : lookup s c = some (y, ys)) (h : s.out.len + (y :: ys).length ≤ s.params.outCap) :
    execRefS c s = .next (afterGrow c (y :: ys) (x :: xs ++ [y]) s) := by
  unfold execRefS
  rw [lookupThen_some hc, emitThen_fits h, prevThen_some (s := putOut (y :: ys) s) hpc (x := x) (xs := xs),
    formThenGrow_grows (s := putOut (y :: ys) s) hp ht]
  · rfl
  · rw [← hl]
    exact lookup_congr rfl p

theorem execRefS_overflow {c : Code} {s : State} {y : Symbol} {ys : List Symbol} (hc : lookup s c = some (y, ys))
    (h : s.params.outCap < s.out.len + (y :: ys).length) : execRefS c s = .next (raiseError .allocationError s) := by
  unfold execRefS
  rw [lookupThen_some hc, emitThen_overflow h]

theorem execKwkS_fits {c p : Code} {s : State} {x : Symbol} {xs : List Symbol} (hp : s.phase = .streaming)
    (ht : s.table.len < 4096) (hpc : s.prevCode = some p) (hl : lookup s p = some (x, xs))
    (h : s.out.len + (xs.length + 2) ≤ s.params.outCap) :
    execKwkS c s = .next (afterGrow c (x :: xs ++ [x]) (x :: xs ++ [x]) s) := by
  unfold execKwkS
  rw [prevThen_some hpc hl, emitThen_fits (by simpa using h), formThenGrow_grows (s := putOut (x :: xs ++ [x]) s) hp ht]
  rfl

theorem execKwkS_overflow {c p : Code} {s : State} {x : Symbol} {xs : List Symbol} (hpc : s.prevCode = some p)
    (hl : lookup s p = some (x, xs)) (h : s.params.outCap < s.out.len + (xs.length + 2)) :
    execKwkS c s = .next (raiseError .allocationError s) := by
  unfold execKwkS
  rw [prevThen_some hpc hl, emitThen_overflow (by simpa using h)]

/-! ### What a data code can have done -/

theorem execLitF_next {c : Code} {s t : State} (h : execLitF c s = .next t) :
    t = raiseError .allocationError s ∨
      (s.out.len + 1 ≤ s.params.outCap ∧ t = { afterEmit c [literalSymbol c] s with phase := .streaming }) := by
  rcases Nat.lt_or_ge s.params.outCap (s.out.len + 1) with ho | ho
  · rw [execLitF_overflow ho] at h
    cases h
    exact .inl rfl
  · rw [execLitF_fits ho] at h
    cases h
    exact .inr ⟨ho, rfl⟩

theorem execLitT_next {c : Code} {s t : State} (h : execLitT c s = .next t) :
    t = raiseError .allocationError s ∨
      (s.out.len + 1 ≤ s.params.outCap ∧ t = afterEmit c [literalSymbol c] s) := by
  rcases Nat.lt_or_ge s.params.outCap (s.out.len + 1) with ho | ho
  · rw [execLitT_overflow ho] at h
    cases h
    exact .inl rfl
  · rw [execLitT_fits ho] at h
    cases h
    exact .inr ⟨ho, rfl⟩

theorem execRefT_next {c : Code} {s t : State} (h : execRefT c s = .next t) :
    t = raiseError .allocationError s ∨
      ∃ y ys, lookup s c = some (y, ys) ∧ s.out.len + (y :: ys).length ≤ s.params.outCap ∧
        t = afterEmit c (y :: ys) s := by
  obtain ⟨y, ys, hl, -⟩ := lookupThen_next (k := fun _ e => emitThen e s fun s1 => .next (remember c e (holdSeq e s1))) h
  rcases Nat.lt_or_ge s.params.outCap (s.out.len + (y :: ys).length) with ho | ho
  · rw [execRefT_overflow hl ho] at h
    cases h
    exact .inl rfl
  · rw [execRefT_fits hl ho] at h
    cases h
    exact .inr ⟨y, ys, hl, ho, rfl⟩

/-- What the three data codes of phase `S` have in common: the resolved sequence `e` and the first symbol `x` of it. -/
def GrewFrom (c : Code) (e : Entry) (x : Symbol) (s t : State) : Prop :=
  ∃ p q qs, s.phase = .streaming ∧ s.table.len < 4096 ∧ s.prevCode = some p ∧ lookup s p = some (q, qs) ∧
    s.out.len + e.length ≤ s.params.outCap ∧ t = afterGrow c e (q :: qs ++ [x]) s

theorem execLitS_next {c : Code} {s t : State} (h : execLitS c s = .next t) :
    t = raiseError .allocationError s ∨ GrewFrom c [literalSymbol c] (literalSymbol c) s t := by
  unfold execLitS at h
  rcases emitThen_cases [literalSymbol c] s
      (fun s1 => prevThen s1 fun _ p => formThenGrow p (literalSymbol c) s1 fun s2 =>
        .next (remember c [literalSymbol c] s2)) with ⟨-, he⟩ | ⟨ho, he⟩
  · rw [he] at h
    cases h
    exact .inl rfl
  · rw [he] at h
    obtain ⟨p, q, qs, hp, hl, hk⟩ := prevThen_next h
    obtain ⟨hs, ht, hk⟩ := formThenGrow_next hk
    cases hk
    exact .inr ⟨p, q, qs, hs, ht, hp, by rw [← hl]; exact (lookup_congr rfl p).symm, ho, rfl⟩

theorem execRefS_next {c : Code} {s t : State} (h : execRefS c s = .next t) :
    t = raiseError .allocationError s ∨
      ∃ y ys, lookup s c = some (y, ys) ∧ GrewFrom c (y :: ys) y s t := by
  unfold execRefS at h
  obtain ⟨y, ys, hc, h⟩ := lookupThen_next h
  rcases emitThen_cases (y :: ys) s
      (fun s1 => prevThen s1 fun _ p => formThenGrow p y s1 fun s2 => .next (remember c (y :: ys) s2))
    with ⟨-, he⟩ | ⟨ho, he⟩
  · rw [he] at h
    cases h
    exact .inl rfl
  · rw [he] at h
    obtain ⟨p, q, qs, hp, hl, hk⟩ := prevThen_next h
    obtain ⟨hs, ht, hk⟩ := formThenGrow_next hk
    cases hk
    exact .inr ⟨y, ys, hc, p, q, qs, hs, ht, hp, by rw [← hl]; exact (lookup_congr rfl p).symm, ho, rfl⟩

theorem execKwkS_next {c : Code} {s t : State} (h : execKwkS c s = .next t) :
    t = raiseError .allocationError s ∨
      ∃ p q qs, s.prevCode = some p ∧ lookup s p = some (q, qs) ∧ GrewFrom c (q :: qs ++ [q]) q s t := by
  unfold execKwkS at h
  obtain ⟨p, q, qs, hp, hl, h⟩ := prevThen_next h
  rcases emitThen_cases (q :: qs ++ [q]) s
      (fun s1 => formThenGrow (q :: qs) q s1 fun s2 => .next (remember c (q :: qs ++ [q]) s2))
    with ⟨-, he⟩ | ⟨ho, he⟩
  · rw [he] at h
    cases h
    exact .inl rfl
  · rw [he] at h
    obtain ⟨hs, ht, hk⟩ := formThenGrow_next h
    cases hk
    exact .inr ⟨p, q, qs, hp, hl, p, q, qs, hs, ht, hp, hl, ho, rfl⟩

/-! ### The steps -/

/-- A code step either raises `TruncatedStream` or is the selected code's action after the fetch. -/
theorem codeStep_cases (s : State) :
    (s.truncated = true ∧ codeStep s = .next (raiseError .truncatedStream s)) ∨
      (s.truncated = false ∧
        codeStep s = exec (classify (fetched s).ctx (fetched s).codeReg) (fetched s)) := by
  cases h : s.truncated
  · exact .inr ⟨rfl, fetchThen_fetched h⟩
  · exact .inl ⟨rfl, fetchThen_truncated h⟩

/-- Everything the action of a classified code can have done if it answers a next state. -/
theorem classified_next {c : Code} {s t : State} (h : exec (classify s.ctx c) s = .next t) :
    (∃ e, t = raiseError e s) ∨ t = finishDecode s ∨
    (s.phase = .awaitingReset ∧ c.toNat = s.clear ∧ t = { s with phase := .awaitingFirst }) ∨
    (s.phase = .awaitingFirst ∧ c.toNat < s.clear ∧ s.out.len + 1 ≤ s.params.outCap ∧
      t = { afterEmit c [literalSymbol c] s with phase := .streaming }) ∨
    ((s.phase = .streaming ∨ s.phase = .tableFull) ∧ c.toNat = s.clear ∧ t = clearDict s) ∨
    (s.phase = .streaming ∧ c.toNat ≠ s.clear ∧ c.toNat ≠ s.endCode ∧ c.toNat ≤ max (s.clear - 1) s.table.len ∧
      ∃ e x, GrewFrom c e x s t ∧
        ((c.toNat < s.clear ∧ e = [literalSymbol c] ∧ x = literalSymbol c) ∨
         (s.endCode < c.toNat ∧ c.toNat < s.table.len ∧ ∃ ys, e = x :: ys ∧ s.slot c.toNat = e) ∨
         (s.endCode < c.toNat ∧ c.toNat = s.table.len ∧
           ∃ p qs, s.prevCode = some p ∧ lookup s p = some (x, qs) ∧ e = x :: qs ++ [x]))) ∨
    (s.phase = .tableFull ∧ c.toNat ≠ s.clear ∧ c.toNat ≠ s.endCode ∧ ∃ e,
      s.out.len + e.length ≤ s.params.outCap ∧ t = afterEmit c e s ∧
        ((c.toNat < s.clear ∧ e = [literalSymbol c]) ∨
         (s.endCode < c.toNat ∧ c.toNat < s.table.len ∧ e ≠ [] ∧ s.slot c.toNat = e))) := by
  have hcl : s.ctx.clear = s.clear := rfl
  have hen : s.ctx.endCode = s.endCode := rfl
  have hend : s.endCode = s.clear + 1 := rfl
  unfold classify at h
  split at h <;> rename_i hp <;> change s.phase = _ at hp
  · rw [hcl] at h
    split at h
    · next hc =>
      cases h
      exact .inr (.inr (.inl ⟨hp, hc, rfl⟩))
    · cases h
      exact .inl ⟨_, rfl⟩
  · unfold classifyFirst at h
    rw [hcl, hen] at h
    split at h
    · next hc =>
      rcases execLitF_next h with h | ⟨ho, h⟩
      · exact .inl ⟨_, h⟩
      · exact .inr (.inr (.inr (.inl ⟨hp, hc, ho, h⟩)))
    · split at h
      · split at h
        · cases h
          exact .inr (.inl rfl)
        · cases h
          exact .inl ⟨_, rfl⟩
      · cases h
        exact .inl ⟨_, rfl⟩
  · unfold classifyStreaming at h
    rw [hcl, hen] at h
    split at h
    · cases h
      exact .inr (.inl rfl)
    next hce =>
    split at h
    · next hc =>
      cases h
      exact .inr (.inr (.inr (.inr (.inl ⟨.inl hp, hc, rfl⟩))))
    next hcc =>
    split at h
    · next hc =>
      rcases execLitS_next h with h | h
      · exact .inl ⟨_, h⟩
      · refine .inr (.inr (.inr (.inr (.inr (.inl ⟨hp, hcc, hce, by omega, _, _, h, .inl ⟨hc, rfl, rfl⟩⟩)))))
    next hcl' =>
    have hgt : s.endCode < c.toNat := by omega
    split at h
    · next hc =>
      change c.toNat < s.table.len at hc
      rcases execRefS_next h with h | ⟨y, ys, hl, h⟩
      · exact .inl ⟨_, h⟩
      · exact .inr (.inr (.inr (.inr (.inr (.inl ⟨hp, hcc, hce, by omega, _, _, h,
          .inr (.inl ⟨hgt, hc, ys, rfl, (lookup_some hl).2⟩)⟩)))))
    next hct =>
    split at h
    · next hc =>
      change c.toNat = s.table.len at hc
      rcases execKwkS_next h with h | ⟨p, q, qs, hpc, hl, h⟩
      · exact .inl ⟨_, h⟩
      · exact .inr (.inr (.inr (.inr (.inr (.inl ⟨hp, hcc, hce, by omega, _, _, h,
          .inr (.inr ⟨hgt, hc, p, qs, hpc, hl, rfl⟩)⟩)))))
    · cases h
      exact .inl ⟨_, rfl⟩
  · unfold classifyFull at h
    rw [hcl, hen] at h
    split at h
    · cases h
      exact .inr (.inl rfl)
    next hce =>
    split at h
    · next hc =>
      cases h
      exact .inr (.inr (.inr (.inr (.inl ⟨.inr hp, hc, rfl⟩))))
    next hcc =>
    split at h
    · next hc =>
      rcases execLitT_next h with h | ⟨ho, h⟩
      · exact .inl ⟨_, h⟩
      · exact .inr (.inr (.inr (.inr (.inr (.inr ⟨hp, hcc, hce, [literalSymbol c], ho, h, .inl ⟨hc, rfl⟩⟩)))))
    · rcases execRefT_next h with h | ⟨y, ys, hl, ho, h⟩
      · exact .inl ⟨_, h⟩
      · exact .inr (.inr (.inr (.inr (.inr (.inr ⟨hp, hcc, hce, _, ho, h,
          .inr ⟨by omega, (lookup_some hl).1, by simp, (lookup_some hl).2⟩⟩)))))

end Sys2Proof.Machine
end

