-- ==== Sys2Proof/Laws/Decode.lean ====
section
/-! SUPPORT. The bits of the bit-unpacker, one lemma per operation: which bit of the bytes a bit of the accumulator, of the
code, of an encoded code and of the whole input is. -/

namespace Sys2Proof.Machine

/-- Bit `k` of the accumulator is bit `k mod 8` of byte `k div 8` (20_memory.md R44). -/
theorem getLsbD_assemble (bs : List Byte) (k : Nat) (h : k < 24) :
    (assemble bs).getLsbD k = (bs.getD (k / 8) 0).getLsbD (k % 8) := by
  induction bs generalizing k with
  | nil => simp [assemble]
  | cons b bs ih =>
    simp only [assemble, BitVec.getLsbD_or, BitVec.getLsbD_setWidth, BitVec.getLsbD_shiftLeft, h, decide_true,
      Bool.true_and]
    by_cases h8 : k < 8
    · simp [h8, Nat.div_eq_of_lt h8, Nat.mod_eq_of_lt h8]
    · have hk : k / 8 = (k - 8) / 8 + 1 := by omega
      have hm : k % 8 = (k - 8) % 8 := by omega
      rw [ih (k - 8) (by omega), BitVec.getLsbD_of_ge b k (by omega), hk, hm]
      simp [h8]

/-- The mask keeps exactly the low `w` bits (10_state.md R12). -/
theorem getLsbD_maskOf (w j : Nat) : (maskOf w).getLsbD j = (decide (j < 12) && decide (j < w)) := by
  simp [maskOf, Nat.one_shiftLeft, BitVec.getLsbD_ofNat, Nat.testBit_two_pow_sub_one]

/-- Bit `j` of the code is bit `o + j` of the accumulator (41_bit_unpacker.md R74). -/
theorem getLsbD_extractCode (acc : BitVec 24) (o w j : Nat) :
    (extractCode acc o w).getLsbD j = (decide (j < 12) && decide (j < w) && acc.getLsbD (o + j)) := by
  simp only [extractCode, BitVec.getLsbD_and, BitVec.getLsbD_setWidth, BitVec.getLsbD_ushiftRight, getLsbD_maskOf]
  cases decide (j < 12) <;> cases decide (j < w) <;> simp

@[simp] theorem length_bytesOf (n v : Nat) : (bytesOf n v).length = n := by simp [bytesOf]

@[simp] theorem length_bytesAt (s : State) (n : Nat) : (s.bytesAt n).length = n := by simp [State.bytesAt]

/-- Byte `a` of a number holds its bits `8a` and up (30_encoding.md R63). -/
theorem getD_bytesOf (n v a : Nat) (h : a < n) : (bytesOf n v).getD a 0 = BitVec.ofNat 8 (v >>> (8 * a)) := by
  simp [bytesOf, h]

theorem getD_bytesAt (s : State) (n a : Nat) (h : a < n) : (s.bytesAt n).getD a 0 = s.inByte (s.byteIdx + a) := by
  simp [State.bytesAt, h]

/-- The bytes a fetch needs are the first of the bytes that are left. -/
theorem take_bytesAt (s : State) (n m : Nat) (h : n ≤ m) : (s.bytesAt m).take n = s.bytesAt n := by
  apply List.ext_getElem
  · simp [h]
  · intro i h1 h2
    simp [State.bytesAt]

/-- Bit `k` of the whole input as one little-endian number (20_memory.md R44). -/
theorem testBit_littleEndian (bs : List Byte) (k : Nat) :
    (littleEndian bs).testBit k = (bs.getD (k / 8) 0).getLsbD (k % 8) := by
  induction bs generalizing k with
  | nil => simp [littleEndian]
  | cons b bs ih =>
    have hb : b.toNat < 2 ^ 8 := b.isLt
    rw [littleEndian, Nat.add_comm, show (256 : Nat) = 2 ^ 8 from rfl, Nat.testBit_two_pow_mul_add _ hb]
    by_cases h8 : k < 8
    · simp [h8, Nat.div_eq_of_lt h8, Nat.mod_eq_of_lt h8, BitVec.testBit_toNat]
    · have hk : k / 8 = (k - 8) / 8 + 1 := by omega
      have hm : k % 8 = (k - 8) % 8 := by omega
      rw [if_neg h8, ih, hk, hm]
      simp

end Sys2Proof.Machine
end

