-- ==== Sys2Proof/Laws/Frames.lean ====
section
/-! SUPPORT. What a code step leaves as it was, once for all codes; and how one step and a run of steps unfold while a
decode is running. -/

namespace Sys2Proof.Machine

theorem sameTable_of_eq {s t : State} (h : t.table = s.table) : SameTable s t := by
  simp [SameTable, Buffer.SameAttributes, State.slot, h]

theorem sameOut_of_eq {s t : State} (h : t.out = s.out) : SameOut s t := by
  simp [SameOut, Buffer.SameAttributes, State.outSymbol, h]

/-- Everything a data code of phase `S` leaves, in the terms of the statements. -/
theorem afterGrow_does (c : Code) (e new : Entry) (s : State) :
    Emitted e s (afterGrow c e new s) ∧ Grown new s (afterGrow c e new s) ∧ WidthStepped s (afterGrow c e new s) ∧
      Remembered c e s (afterGrow c e new s) ∧ InScratch new s (afterGrow c e new s) ∧
      SameSurroundings s (afterGrow c e new s) := by
  unfold afterGrow
  refine ⟨?_, ?_, ?_, ?_, ?_, ?_⟩
  · simpa [Emitted, State.outSymbol] using emitted_putOut e s
  · simpa [Grown, State.slot] using grown_appendEntry new (putOut e s)
  · simpa [WidthStepped] using widthStepped_widthStep new (putOut e s)
  · simpa [Remembered] using remembered_remember c e (putOut e s)
  · simpa [InScratch] using inScratch_holdSeq new (putOut e s)
  · simp [SameSurroundings, SameHost, SameInput, SameLatch, SameStatus, SameCursor]

/-- A classified code raises an error, ends the decode, or leaves everything outside the decoder's working state as it
was and every store in its canonical form. -/
theorem classified_surroundings {s t : State} {c : Code} (h : exec (classify s.ctx c) s = .next t) :
    (∃ e, t = raiseError e s) ∨ t = finishDecode s ∨ (SameSurroundings s t ∧ (StoresOk s → StoresOk t)) := by
  rcases classified_next h with h' | h' | ⟨-, -, rfl⟩ | ⟨-, -, -, rfl⟩ | ⟨-, -, rfl⟩ | ⟨-, -, -, -, e, x, hg, -⟩ |
    ⟨-, -, -, e, -, rfl, -⟩
  · exact .inl h'
  · exact .inr (.inl h')
  · exact .inr (.inr ⟨by simp [SameSurroundings, SameHost, SameInput, SameLatch, SameStatus, SameCursor, State.inByte],
      id⟩)
  · exact .inr (.inr ⟨by
      simp [afterEmit, SameSurroundings, SameHost, SameInput, SameLatch, SameStatus, SameCursor, State.inByte],
      fun h => storesOk_remember (storesOk_holdSeq (storesOk_putOut h _) [literalSymbol c]) c [literalSymbol c]⟩)
  · exact .inr (.inr ⟨by simp [SameSurroundings, SameHost, SameInput, SameLatch, SameStatus, SameCursor],
      storesOk_clearDict⟩)
  · obtain ⟨p, q, qs, -, -, -, -, -, rfl⟩ := hg
    exact .inr (.inr ⟨(afterGrow_does c e (q :: qs ++ [x]) s).2.2.2.2.2, fun h =>
      storesOk_remember
        (storesOk_widthStep (storesOk_appendEntry (storesOk_holdSeq (storesOk_putOut h _) _) _)) _ _⟩)
  · exact .inr (.inr ⟨by
      simp [afterEmit, SameSurroundings, SameHost, SameInput, SameLatch, SameStatus, SameCursor],
      fun h => storesOk_remember (storesOk_holdSeq (storesOk_putOut h _) _) _ _⟩)

/-- While a decode runs and nothing is listed, a step is a code step. -/
theorem step_of_busy {s : State} (ha : s.agenda = []) (hb : s.run = .busy) : step s = codeStep s := by
  simp [step, turn, ha, coreTurn, hb]

/-- A run goes on from the next state. -/
theorem run_of_next {s t : State} (h : step s = .next t) (k : Nat) :
    Host.Core.run Sys2Proof.core (k + 1) s = Host.Core.run Sys2Proof.core k t := by
  have h' : Sys2Proof.core.step s = .next t := h
  simp only [Host.Core.run]
  rw [h']

/-- A run of a core that is not `BUSY`, with nothing listed, stays where it is. -/
theorem run_of_not_busy {s : State} (ha : s.agenda = []) (hb : s.run ≠ .busy) (k : Nat) :
    Host.Core.run Sys2Proof.core k s = .next s := by
  induction k with
  | zero => rfl
  | succ k ih => rw [run_of_next (t := s) (by simp [step, turn, ha, coreTurn, hb])]; exact ih

end Sys2Proof.Machine
end

