-- ==== Sys2Proof/Laws/PerInstr.lean ====
section
/-! SUPPORT. Per-instruction families: one `Statement` on instructions as syntax, one lemma per constructor. -/

/-! `EncodingFits`: what the encoder writes for a well-formed instruction has the length of its format. A code's bytes are
as many as hold its `w` bits (30_encoding.md R55), and its value fits them; only `START` is a host write (10_state.md R32);
an internal operation has no encoding. -/

namespace Sys2Proof.Laws.EncodingFits

/-- What the encoder writes for this instruction fits its format. -/
def Statement (i : Instr) : Prop :=
  ∀ x : Ctx, wellFormed x i = true →
    match encode x i with
    | .stream bs => bs.length = bytesNeeded x.bitOff x.codeWidth ∧ ∃ c, i.code = some c ∧ c.toNat < 2 ^ x.codeWidth
    | .hostWrite n v => i = .start ∧ n = 0 ∧ v = 1
    | .internal => i.code = none ∧ i ≠ .start

/-- A code whose row is in its phase fits the width of the context. -/
theorem of_inPhase {x : Ctx} {p : Phase} {c : Code} (h : x.inPhase p c = true) :
    (encodeCode x.bitOff x.codeWidth c).length = bytesNeeded x.bitOff x.codeWidth ∧ c.toNat < 2 ^ x.codeWidth := by
  simp only [Ctx.inPhase, Ctx.fits, Nat.one_shiftLeft, Bool.and_eq_true, decide_eq_true_eq] at h
  exact ⟨Machine.length_bytesOf _ _, h.2⟩

/-- The same with the row's condition on the value beside it. -/
theorem fits_of_and {x : Ctx} {p : Phase} {c : Code} {i : Instr} {b : Bool} (hc : i.code = some c)
    (h : (x.inPhase p c && b) = true) :
    (encodeCode x.bitOff x.codeWidth c).length = bytesNeeded x.bitOff x.codeWidth ∧
      ∃ c', i.code = some c' ∧ c'.toNat < 2 ^ x.codeWidth :=
  have hp := of_inPhase (Bool.and_eq_true_iff.mp h).1
  ⟨hp.1, c, hc, hp.2⟩

theorem clrR (c : Code) : Statement (.clrR c) := fun _ h =>
  fits_of_and rfl h

theorem illR (c : Code) : Statement (.illR c) := fun _ h =>
  fits_of_and rfl h

theorem litF (c : Code) : Statement (.litF c) := fun _ h =>
  fits_of_and rfl h

theorem endF (c : Code) : Statement (.endF c) := fun _ h =>
  fits_of_and rfl (Bool.and_eq_true_iff.mp h).1

theorem illF (c : Code) : Statement (.illF c) := fun _ h =>
  fits_of_and rfl h

theorem endS (c : Code) : Statement (.endS c) := fun _ h =>
  fits_of_and rfl h

theorem endT (c : Code) : Statement (.endT c) := fun _ h =>
  fits_of_and rfl h

theorem clrS (c : Code) : Statement (.clrS c) := fun _ h =>
  fits_of_and rfl h

theorem clrT (c : Code) : Statement (.clrT c) := fun _ h =>
  fits_of_and rfl h

theorem litS (c : Code) : Statement (.litS c) := fun _ h =>
  fits_of_and rfl h

theorem refS (c : Code) : Statement (.refS c) := fun _ h =>
  fits_of_and rfl h

theorem kwkS (c : Code) : Statement (.kwkS c) := fun _ h =>
  fits_of_and rfl h

theorem illS (c : Code) : Statement (.illS c) := fun _ h =>
  fits_of_and rfl h

theorem litT (c : Code) : Statement (.litT c) := fun _ h =>
  fits_of_and rfl h

theorem refT (c : Code) : Statement (.refT c) := fun _ h =>
  fits_of_and rfl h

theorem start : Statement .start := fun _ _ => ⟨rfl, rfl, rfl⟩

theorem bufCreate (b : BufId) (elementSize initialLength : Nat) (fixedCapacity : Bool) : Statement (.bufCreate b elementSize initialLength fixedCapacity) :=
  fun _ _ => ⟨rfl, nofun⟩

theorem bufAppend (b : BufId) (src : Elems) : Statement (.bufAppend b src) :=
  fun _ _ => ⟨rfl, nofun⟩

theorem bufCopyFrom (dest : BufId) (source : BufSource) : Statement (.bufCopyFrom dest source) :=
  fun _ _ => ⟨rfl, nofun⟩

theorem bufClear (b : BufId) : Statement (.bufClear b) :=
  fun _ _ => ⟨rfl, nofun⟩

theorem bufRelease (b : BufId) : Statement (.bufRelease b) :=
  fun _ _ => ⟨rfl, nofun⟩

theorem fetch : Statement .fetch :=
  fun _ _ => ⟨rfl, nofun⟩

theorem grow (s : Entry) : Statement (.grow s) :=
  fun _ _ => ⟨rfl, nofun⟩

theorem widthStep : Statement .widthStep :=
  fun _ _ => ⟨rfl, nofun⟩

theorem resetDict : Statement .resetDict :=
  fun _ _ => ⟨rfl, nofun⟩

theorem emit (s : List Symbol) : Statement (.emit s) :=
  fun _ _ => ⟨rfl, nofun⟩

theorem finish : Statement .finish :=
  fun _ _ => ⟨rfl, nofun⟩

theorem raise (e : DecodeError) : Statement (.raise e) :=
  fun _ _ => ⟨rfl, nofun⟩

end Sys2Proof.Laws.EncodingFits
end

