-- ==== Sys2Proof/Tests/Slice0.lean ====
section
/-! SUPPORT. Tests on small states. Every expected value is written out from the spec: its encodings (30_encoding.md), its
rules' examples, and its derived vectors V1 to V23 (95_test_vectors.md). -/

namespace Sys2Proof.Tests

open Sys2Proof Sys2Proof.Machine

/-! ### Small states -/

/-- Parameters with a small output store. -/
def small : Params :=
  { inAw := 8, outCap := 8, minFloor := 4, growSlack := 0, entryBytes := 1, endAfterClear := .accept }

/-- V1 right after `START`: `ics = 2`, `IN = 4C 44 05`. -/
def running : State :=
  { State.reset with
    params := small, run := .busy, hrIcs := 2, hrInLen := 3, icsWritten := true, inLenWritten := true, ics := 2
    inLen := 3, codeWidth := 3, table := freshTable 1 2, out := Buffer.fresh 2 8, curSeq := Buffer.fresh 2 4091
    prevSeq := Buffer.fresh 2 4091, input := inputOf [0x4C, 0x44, 0x05] }

/-- `running` on another input. -/
def onInput (bs : List Byte) : State :=
  { running with input := inputOf bs, inLen := bs.length, hrInLen := bs.length }

/-- A symbol buffer with these valid elements. -/
def symbols (cap : Nat) (xs : List Symbol) : Buffer Symbol := (Buffer.fresh 2 cap).put blankSymbol xs

/-- V1 after step 1: `(F, 0, 3, 3, 6, -, 0)`. -/
def afterClear (s : State) : State := { s with phase := .awaitingFirst, bitOff := 3 }

/-- V1 after step 2: `(S, 0, 6, 3, 6, 1, 1)`. -/
def afterLit (s : State) : State :=
  { s with
    phase := .streaming, bitOff := 6, prevCode := some 1, out := symbols 8 [1], curSeq := symbols 4091 [1]
    prevSeq := symbols 4091 [1] }

/-- V1 after step 3, with the previous code `p`: `(S, 1, 1, 3, 7, p, 2)`, `T[6] = [1, 1]`. -/
def afterGrown (p : Code) (s : State) : State :=
  { afterLit s with
    byteIdx := 1, bitOff := 1, prevCode := some p
    table := { (freshTable 1 2) with len := 7, data := [(0, [0]), (1, [1]), (2, [2]), (3, [3]), (6, [1, 1])] }
    out := symbols 8 [1, 1], curSeq := symbols 4091 [1, 1] }

/-- A full table of which the literals and slot 4095 are listed, the next code at bit 4 of the first byte. -/
def full (bs : List Byte) : State :=
  { afterLit (onInput bs) with
    phase := .tableFull, codeWidth := 12, bitOff := 4
    table := { (freshTable 1 2) with len := 4096, data := literalSlots 4 ++ [(4095, [1, 2])] } }

/-- `s` with a list of turns to come. -/
def withAgenda (a : List Turn) (s : State) : State := { s with agenda := a }

/-- An idle machine whose host has set `ICS = 2` and `LEN = 3`. -/
def booted : State :=
  { State.reset with
    params := small, hrIcs := 2, hrInLen := 3, icsWritten := true, inLenWritten := true
    input := inputOf [0x4C, 0x44, 0x05] }

/-- A finished machine with two symbols of result. -/
def finished : State := { booted with run := .done, hrOutLen := 2, out := symbols 8 [1, 2] }

/-- The decoder state of 95_test_vectors.md. -/
structure View where
  phase : Phase
  byteIdx : Nat
  bitOff : Nat
  codeWidth : Nat
  tableLen : Nat
  prevCode : Option Code
  outLen : Nat
deriving DecidableEq, Repr

/-- The decoder state of the next state. -/
def view (r : Result) : Option View :=
  match r with
  | .next t => some ⟨t.phase, t.byteIdx, t.bitOff, t.codeWidth, t.table.len, t.prevCode, t.out.len⟩
  | .fault _ => none
  | .refused _ => none

/-- The fault a result stops with. -/
def faultOf (r : Result) : Option Fault :=
  match r with
  | .next _ => none
  | .fault f => some f
  | .refused _ => none

/-- The refusal a result stops with. -/
def refusalOf (r : Result) : Option Refusal :=
  match r with
  | .next _ => none
  | .fault _ => none
  | .refused f => some f

/-- One value of the next state. -/
def after {α : Type} (r : Result) (f : State → α) : Option α :=
  match r with
  | .next t => some (f t)
  | .fault _ => none
  | .refused _ => none

/-! ### Well-formedness: one ill-formed term for each check -/

def ctxR : Ctx := { ics := 2, phase := .awaitingReset, tableLen := 6, codeWidth := 3, bitOff := 0, endAfterClear := .accept }
def ctxF : Ctx := { ctxR with phase := .awaitingFirst }
def ctxS : Ctx := { ctxR with phase := .streaming, tableLen := 7 }
def ctxT : Ctx := { ctxR with phase := .tableFull, tableLen := 4096, codeWidth := 12 }

theorem test_refused_phase_of_each_row :
    ([(ctxF, Instr.clrR 4), (ctxS, .illR 5), (ctxR, .litF 1), (ctxS, .endF 5), (ctxT, .illF 4), (ctxT, .endS 5),
      (ctxS, .endT 5), (ctxT, .clrS 4), (ctxS, .clrT 4), (ctxF, .litS 1), (ctxT, .refS 6), (ctxR, .kwkS 7),
      (ctxT, .illS 7), (ctxS, .litT 1), (ctxS, .refT 6)].all fun p => !wellFormed p.1 p.2) = true := by decide

theorem test_refused_value_of_each_row :
    ([(ctxR, Instr.clrR 5), (ctxR, .illR 4), (ctxF, .litF 4), (ctxF, .endF 4), (ctxF, .illF 5), (ctxS, .endS 4),
      (ctxT, .endT 4), (ctxS, .clrS 5), (ctxT, .clrT 5), (ctxS, .litS 4), (ctxS, .refS 5), (ctxS, .refS 7),
      (ctxS, .kwkS 6), (ctxS, .illS 7), (ctxT, .litT 4), (ctxT, .refT 5)].all fun p => !wellFormed p.1 p.2) =
      true := by decide

theorem test_refused_code_wider_than_the_format : wellFormed ctxR (.illR 8) = false := by decide

theorem test_end_after_clear_follows_the_configuration :
    wellFormed { ctxF with endAfterClear := .reject } (.endF 5) = false ∧
      wellFormed { ctxF with endAfterClear := .reject } (.illF 5) = true := by decide

theorem test_refused_operands :
    ([(ctxS, Instr.bufCreate .table 0 1 true), (ctxS, .bufAppend .table (.symbols [1])),
      (ctxS, .bufAppend (.sym .out) (.entries [[1]])), (ctxS, .bufCopyFrom (.sym .out) (.buf (.sym .out))),
      (ctxS, .bufCopyFrom (.sym .out) (.buf .table)), (ctxS, .bufCopyFrom .table (.buf (.sym .out))),
      (ctxS, .bufCopyFrom .table (.entry 1)), (ctxS, .grow []), (ctxT, .grow [1]), (ctxS, .emit []),
      (ctxS, .emit [4])].all fun p => !wellFormed p.1 p.2) = true := by decide

/-! ### Decoding: words written out bit by bit (30_encoding.md R55, R56, R58) -/

/-- Codes of 3 bits at bit 0 in phase `R`: `100` is `CLEAR`, anything else is illegal. -/
theorem test_decode_phase_R :
    decode ctxR [0b11111100] = .instr (.clrR 4) 0 3 ∧ decode ctxR [0b11111101] = .instr (.illR 5) 0 3 := by decide

/-- Codes of 3 bits at bit 6 in phase `F`: two bits in the first byte, the high bit in the second. -/
theorem test_decode_phase_F :
    let f := { ctxF with bitOff := 6 }
    decode f [0b11000000, 0b11111110] = .instr (.litF 3) 1 1 ∧ decode f [0b01111111, 0b00000001] = .instr (.endF 5) 1 1 ∧
      decode f [0b00111111, 0b00000001] = .instr (.illF 4) 1 1 ∧ decode f [0b11000000] = .rejected .truncatedStream := by
  decide

/-- V10: with `tableLen = 7` at width 3 the codes are 0..3 `LIT.S`, 4 `CLR.S`, 5 `END.S`, 6 `REF.S`, 7 `KWK.S`. -/
theorem test_decode_phase_S :
    decode ctxS [0] = .instr (.litS 0) 0 3 ∧ decode ctxS [3] = .instr (.litS 3) 0 3 ∧
      decode ctxS [4] = .instr (.clrS 4) 0 3 ∧ decode ctxS [5] = .instr (.endS 5) 0 3 ∧
      decode ctxS [6] = .instr (.refS 6) 0 3 ∧ decode ctxS [7] = .instr (.kwkS 7) 0 3 ∧
      decode { ctxS with tableLen := 6 } [7] = .instr (.illS 7) 0 3 := by decide

/-- Codes of 12 bits over three bytes (bit offset 7) in phase `T`. -/
theorem test_decode_phase_T :
    let t := { ctxT with bitOff := 7 }
    decode t [0b10000000, 0b00000001, 0b00000000] = .instr (.litT 3) 2 3 ∧
      decode t [0b00000000, 0b00000010, 0b11111000] = .instr (.clrT 4) 2 3 ∧
      decode t [0b10000000, 0b00000010, 0b00000000] = .instr (.endT 5) 2 3 ∧
      decode t [0b10000000, 0b11111111, 0b00000111] = .instr (.refT 4095) 2 3 := by decide

theorem test_decode_start :
    decodeHostWrite 0 0xFFFFFFFF = some .start ∧ decodeHostWrite 0 0xFFFFFFFE = none ∧ decodeHostWrite 1 1 = none := by
  decide

/-- V1, V9, V11, V18: the packer gives the spec's bytes. -/
theorem test_pack :
    pack 2 [4, 1, 1, 2, 4, 5] = some [0x4C, 0x44, 0x05] ∧ pack 3 [8, 1, 2, 10, 12, 9] = some [0x18, 0xA2, 0x9C] ∧
      pack 2 [4, 0, 1, 2, 8, 5] = some [0x44, 0x84, 0x05] ∧
      pack 8 [256, 255, 258, 257] = some [0x00, 0xFF, 0x09, 0x0C, 0x08] ∧ pack 2 [8] = none := by decide

/-- Log entry 7: a word of 8 bits is a host write, another the first code of a decode with `ics = 8`. -/
theorem test_table_words :
    decodeTableWord 8 1 = some .start ∧ decodeTableWord 8 2 = none ∧ decodeTableWord 9 256 = some (.clrR 256) ∧
      decodeTableWord 12 257 = some (.illR 257) := by decide

theorem test_placed_words_run :
    after (step (State.reset.withFetchWord 8 1)) (fun t => t.run) = some .busy ∧
      after (step (State.reset.withFetchWord 9 256)) (fun t => t.phase) = some .awaitingFirst ∧
      after (step (State.reset.withFetchWord 12 257)) (fun t => statusWord t) = some 0x13 := by decide

/-! ### The codes, one code step each -/

theorem test_clrR_V1 : view (step running) = some ⟨.awaitingFirst, 0, 3, 3, 6, none, 0⟩ := by decide

theorem test_illR_V4 : after (step (onInput [0x05])) (fun t => (statusWord t, t.hrOutLen)) = some (0x13, 0) := by decide

theorem test_litF_V1 :
    view (step (afterClear running)) = some ⟨.streaming, 0, 6, 3, 6, some 1, 1⟩ ∧
      after (step (afterClear running)) (fun t => t.outSeq) = some [1] := by decide

theorem test_endF_V3 :
    after (step (afterClear (onInput [0x2C]))) (fun t => (statusWord t, t.hrOutLen)) = some (2, 0) := by decide

theorem test_endF_rejected_is_illF :
    after (step { afterClear (onInput [0x2C]) with params := { small with endAfterClear := .reject } }) statusWord =
      some 0x23 := by decide

theorem test_illF_V7 : after (step (afterClear (onInput [0x24]))) statusWord = some 0x23 := by decide

theorem test_endS_V5 :
    after (step (afterLit (onInput [0x4C, 0x01]))) (fun t => (statusWord t, t.hrOutLen, t.outSeq)) =
      some (2, 1, [1]) := by decide

theorem test_litS_V1 :
    view (step (afterLit running)) = some ⟨.streaming, 1, 1, 3, 7, some 1, 2⟩ ∧
      after (step (afterLit running)) (fun t => (t.outSeq, t.slot 6)) = some ([1, 1], [1, 1]) := by decide

theorem test_litS_widens_V1 :
    view (step (afterGrown 1 running)) = some ⟨.streaming, 1, 4, 4, 8, some 2, 3⟩ ∧
      after (step (afterGrown 1 running)) (fun t => (t.outSeq, t.slot 7)) = some ([1, 1, 2], [1, 2]) ∧
      after (step (afterGrown 1 running)) (fun t => (t.curSeq.seq 0, t.prevSeq.seq 0)) = some ([1, 2], [2]) := by decide

theorem test_refS_V6 :
    view (step { afterGrown 6 (onInput [0x8C, 0x5D]) with out := symbols 8 [1, 1, 1] }) =
      some ⟨.streaming, 1, 4, 4, 8, some 6, 5⟩ ∧
    after (step { afterGrown 6 (onInput [0x8C, 0x5D]) with out := symbols 8 [1, 1, 1] })
      (fun t => (t.outSeq, t.slot 7)) = some ([1, 1, 1, 1, 1], [1, 1, 1]) := by decide

theorem test_kwkS_V6 :
    view (step (afterLit (onInput [0x8C, 0x0B]))) = some ⟨.streaming, 1, 1, 3, 7, some 6, 3⟩ ∧
      after (step (afterLit (onInput [0x8C, 0x0B]))) (fun t => (t.outSeq, t.slot 6)) = some ([1, 1, 1], [1, 1]) := by
  decide

theorem test_illS_V10 : after (step (afterLit (onInput [0xCC, 0x01]))) statusWord = some 0x33 := by decide

theorem test_clrS_V1 :
    view (step { afterGrown 2 running with
        bitOff := 4, codeWidth := 4, table := (freshTable 1 2).put blankEntry [[1, 1], [1, 2]]
        out := symbols 8 [1, 1, 2] }) =
      some ⟨.awaitingFirst, 2, 0, 3, 6, none, 3⟩ := by decide

/-- 42_code_lookup.md R91: with the table full a literal adds no entry and the width stays 12. -/
theorem test_litT :
    view (step (full [0x20, 0x00])) = some ⟨.tableFull, 2, 0, 12, 4096, some 2, 2⟩ ∧
      after (step (full [0x20, 0x00])) (fun t => t.outSeq) = some [1, 2] := by decide

/-- 42_code_lookup.md R92: the last slot is a reference, not an error. -/
theorem test_refT :
    view (step (full [0xF0, 0xFF])) = some ⟨.tableFull, 2, 0, 12, 4096, some 4095, 3⟩ ∧
      after (step (full [0xF0, 0xFF])) (fun t => t.outSeq) = some [1, 1, 2] := by decide

theorem test_clrT : view (step (full [0x40, 0x00])) = some ⟨.awaitingFirst, 2, 0, 3, 6, none, 1⟩ := by decide

theorem test_endT : after (step (full [0x50, 0x00])) (fun t => (statusWord t, t.hrOutLen)) = some (2, 1) := by decide

/-- V14: the third code would be illegal, but it is never assembled. -/
theorem test_truncated_V14 :
    after (step (afterLit (onInput [0xCC]))) (fun t => (statusWord t, t.hrOutLen)) = some (0x43, 0) := by decide

/-- V19: `OUT_CAP = 1`, the second literal does not fit. -/
theorem test_full_output_V19 :
    after (step { afterLit running with params := { small with outCap := 1 } }) statusWord = some 0x53 := by decide

/-- 93_implementation_defined.md U14: a lookup of a slot without a value is stuck. -/
theorem test_stuck_slot : faultOf (exec (.refS 5) (afterGrown 1 running)) = some .slotHasNoValue := by decide

/-! ### The host command, the unpacker, the grow engine, the output bufferer -/

theorem test_start_V1 :
    view (exec .start booted) = some ⟨.awaitingReset, 0, 0, 3, 6, none, 0⟩ ∧
      after (exec .start booted) (fun t => [t.slot 0, t.slot 3, t.slot 4]) = some [[0], [3], []] ∧
      after (exec .start booted) (fun t => (t.endCode, statusWord t)) = some (5, 1) ∧
      after (exec .start booted) (fun t => [t.out.cap, t.table.cap, t.curSeq.cap, t.prevSeq.cap]) =
        some [8, 4096, 4091, 4091] := by decide

theorem test_start_refused :
    refusalOf (exec .start { booted with hrIcs := 9 }) = some .illegalInitialCodeSize ∧
      refusalOf (exec .start State.reset) = some .startBeforeBoot := by decide

/-- V17, three rows: a code in three bytes, one that ends at the end of the input, and one that does not fit. -/
theorem test_fetch_V17 :
    let s (b o w : Nat) : State :=
      { onInput [0xA5, 0xC3, 0x3C, 0xFF, 0x00, 0x81] with byteIdx := b, bitOff := o, codeWidth := w }
    after (exec .fetch (s 1 5 12)) (fun t => (t.acc, t.codeReg, t.byteIdx, t.bitOff)) = some (0xFF3CC3, 2534, 3, 1) ∧
      after (exec .fetch (s 4 7 9)) (fun t => (t.acc, t.codeReg, t.byteIdx, t.bitOff)) = some (0x8100, 258, 6, 0) ∧
      after (exec .fetch (s 5 5 4)) statusWord = some 0x43 := by decide

theorem test_grow_V22 :
    view (exec (.grow [1, 2]) (afterGrown 1 running)) = some ⟨.streaming, 1, 1, 4, 8, some 1, 2⟩ ∧
      after (exec (.grow [1, 2]) (afterGrown 1 running)) (fun t => (t.slot 7, t.codeMask)) = some ([1, 2], 15) := by
  decide

theorem test_grow_stops :
    faultOf (exec (.grow [1]) running) = some .growOutsideStreaming ∧
      faultOf (exec (.grow [1]) { full [] with phase := .streaming }) = some .growOfFullTable := by decide

theorem test_widthStep_V22 :
    view (exec .widthStep { full [0] with phase := .streaming }) = some ⟨.tableFull, 0, 4, 12, 4096, some 1, 1⟩ ∧
      view (exec .widthStep (afterGrown 1 running)) = some ⟨.streaming, 1, 1, 3, 7, some 1, 2⟩ := by decide

theorem test_resetDict_V22 :
    view (exec .resetDict (full [0])) = some ⟨.tableFull, 0, 4, 3, 6, some 1, 1⟩ ∧
      after (exec .resetDict (full [0])) (fun t => t.codeMask) = some 7 := by decide

theorem test_emit :
    after (exec (.emit [3, 2]) (afterLit running)) (fun t => t.outSeq) = some [1, 3, 2] ∧
      after (exec (.emit [0, 1, 2, 3, 0, 1, 2, 3]) (afterLit running)) statusWord = some 0x53 := by decide

/-- 44_output_bufferer.md R107: `HR[4] = 3` and `OUT` is kept. -/
theorem test_finish :
    after (exec .finish { running with out := symbols 8 [1, 1, 2] })
      (fun t => (statusWord t, t.hrOutLen, t.outSeq, t.table.cap)) = some (2, 3, [1, 1, 2], 0) := by decide

theorem test_raise :
    after (exec (.raise .allocationError) (afterLit running)) (fun t => (statusWord t, t.hrOutLen, t.out.len)) =
      some (0x53, 0, 0) := by decide

/-! ### The Growable Buffer, V23 with `MIN_FLOOR = 4` -/

/-- A growable scratch buffer of symbols. -/
def scratch (cap : Nat) (xs : List Symbol) : State :=
  { running with curSeq := { symbols cap xs with isFixed := false } }

/-- `(len, cap, data[0 .. len-1])` of the scratch buffer. -/
def curView (t : State) : Nat × Nat × List Symbol := (t.curSeq.len, t.curSeq.cap, t.curSeq.seq 0)

theorem test_create_V23 :
    after (exec (.bufCreate (.sym .curSeq) 2 0 false) running) curView = some (0, 4, []) ∧
      after (exec (.bufCreate (.sym .curSeq) 2 3 true) running) curView = some (0, 3, []) := by decide

theorem test_create_denied_V23 :
    after (exec (.bufCreate (.sym .out) 2 10 false) running) (fun t => (t.out.len, t.out.cap, statusWord t)) =
      some (0, 0, 0x53) := by decide

theorem test_append_V23 :
    after (exec (.bufAppend (.sym .curSeq) (.symbols [1, 2])) (scratch 4 [7, 8, 9])) curView =
      some (5, 7, [7, 8, 9, 1, 2]) := by decide

theorem test_append_fixed_V23 :
    after (exec (.bufAppend (.sym .curSeq) (.symbols [6])) { running with curSeq := symbols 3 [4, 5] }) curView =
        some (3, 3, [4, 5, 6]) ∧
      after (exec (.bufAppend (.sym .curSeq) (.symbols [6, 7])) { running with curSeq := symbols 3 [4, 5] })
        (fun t => (curView t, statusWord t)) = some ((0, 0, []), 0x53) := by decide

/-- 40_buffer_ops.md R67: "`count = 0` changes nothing and cannot fail", whatever the element size. -/
theorem test_append_nothing :
    let s : State := { running with curSeq := { symbols 3 [4, 5] with elemSize := 3 } }
    after (exec (.bufAppend (.sym .curSeq) (.symbols [])) s) curView = some (2, 3, [4, 5]) ∧
      after (exec (.bufAppend (.sym .curSeq) (.entries [])) s) curView = some (2, 3, [4, 5]) ∧
      refusalOf (exec (.bufAppend (.sym .curSeq) (.symbols [6])) s) = some .elementSizeMismatch := by decide

/-- 40_buffer_ops.md R68: `dest = [5, 6, 7]`, `source = [1]` gives `dest = [1]`; an empty source changes nothing. -/
theorem test_copyFrom :
    after (exec (.bufCopyFrom (.sym .curSeq) (.buf (.sym .prevSeq)))
        { scratch 4 [5, 6, 7] with prevSeq := symbols 9 [1] }) curView = some (1, 4, [1]) ∧
      after (exec (.bufCopyFrom (.sym .curSeq) (.buf (.sym .prevSeq))) (scratch 4 [5, 6, 7])) curView =
        some (3, 4, [5, 6, 7]) := by decide

/-- A table to which an empty entry has been appended: slot 6 is valid and holds the empty sequence. -/
def withEmptyEntry : State := { scratch 4 [5, 6, 7] with table := (freshTable 1 2).put blankEntry [[]] }

/-- R68 with an entry as the source, an empty one last, which comes of `BUF.APPEND` and leaves the destination as it is. -/
theorem test_copyFrom_entry :
    after (exec (.bufCopyFrom (.sym .curSeq) (.entry 6)) (afterGrown 1 running)) curView = some (2, 4091, [1, 1]) ∧
      exec (.bufAppend .table (.entries [[]])) (scratch 4 [5, 6, 7]) = .next withEmptyEntry ∧
      after (exec (.bufCopyFrom (.sym .curSeq) (.entry 6)) withEmptyEntry) curView = some (3, 4, [5, 6, 7]) ∧
      faultOf (exec (.bufCopyFrom (.sym .curSeq) (.entry 7)) withEmptyEntry) = some .slotHasNoValue :=
  ⟨by decide, rfl, by decide, by decide⟩

theorem test_clear :
    after (exec (.bufClear (.sym .curSeq)) (scratch 16 [1, 2, 3, 4, 5, 6, 7, 8, 9])) curView = some (0, 16, []) := by
  decide

theorem test_release :
    after (exec (.bufRelease (.sym .curSeq)) (scratch 16 [1, 2, 3])) curView = some (0, 0, []) := by decide

/-! ### The host and reset -/

theorem test_host_reads_status :
    after (step (withAgenda [.host (.readReg 1)] { running with run := .error, err := some .invalidCode }))
      (fun t => t.hostData) = some 0x33 := by decide

theorem test_host_write_ignored_while_busy :
    after (step (withAgenda [.host (.writeReg 2 5)] running)) (fun t => t.hrIcs) = some 2 ∧
      after (step (withAgenda [.host (.writeReg 2 0x15)] booted)) (fun t => t.hrIcs) = some 5 := by decide

/-- 10_state.md R35 with `IN_AW` 8 and 40: bits `IN_AW-1:0` and no other. -/
theorem test_host_writes_length :
    after (step (withAgenda [.host (.writeReg 3 0x1FE)] booted)) (fun t => t.hrInLen) = some 0xFE ∧
      after (step (withAgenda [.host (.writeReg 3 0x1FF00000001)] { booted with params := { small with inAw := 40 } }))
        (fun t => t.hrInLen) = some 0xFF00000001 := by decide

theorem test_host_writes_input :
    after (step (withAgenda [.host (.writeIn 1 0xAB)] booted)) (fun t => (t.inByte 0, t.inByte 1)) =
      some (0x4C, 0xAB) ∧
    refusalOf (step (withAgenda [.host (.writeIn 1 0)] running)) = some .inputWriteWhileBusy := by decide

theorem test_host_reads_result :
    after (step (withAgenda [.host (.readOut 1)] finished)) (fun t => t.hostData) = some 2 := by decide

theorem test_hard_reset_abandons_the_decode :
    after (step (withAgenda [.host .hardReset] (afterLit running))) (fun t => (statusWord t, t.out.len, t.prevCode)) =
      some (0, 0, none) ∧
    after (step (withAgenda [.host .hardReset] (afterLit running))) (fun t => refusalOf (exec .start t)) =
      some (some .startBeforeBoot) := by decide

/-! ### Witnesses: states and operands that meet the hypotheses of a statement, clause by clause at a boundary -/

/-- The slots of V1 after step 3: four literals, two sentinels, one grown entry. -/
theorem witness_slots_afterGrown : ∀ i < (afterGrown 1 running).table.len, SlotOk (afterGrown 1 running) i := by
  intro i hi
  have hi : i < 7 := hi
  interval_cases i
  · decide
  · decide
  · decide
  · decide
  · decide
  · decide
  · rw [SlotOk, if_neg (by decide), if_neg (by decide)]
    refine ⟨by decide, by decide, fun v hv => ?_⟩
    have hs : (afterGrown 1 running).slot 6 = [1, 1] := by decide
    rw [hs] at hv
    simp only [List.mem_cons, List.not_mem_nil, or_false, or_self] at hv
    rw [hv]
    decide

/-- `running` meets the invariant: phase `R`. -/
theorem witness_inv_running : Inv running :=
  ⟨by decide, by decide, by decide, fun _ => ⟨by decide, by decide, by decide, by decide, by decide⟩⟩

/-- V1 after step 2 meets the invariant: phase `S`, the previous code a literal. -/
theorem witness_inv_afterLit : Inv (afterLit running) :=
  ⟨by decide, by decide, by decide, fun _ => ⟨by decide,
    ⟨by decide, by decide, by decide, by decide, by decide, by decide, by decide,
      fun _ => ⟨by decide, fun p hp => by cases hp; decide⟩⟩, by decide, by decide, by decide⟩⟩

/-- V1 after step 3 meets the invariant: one grown entry. -/
theorem witness_inv_afterGrown : Inv (afterGrown 1 running) :=
  ⟨by decide, by decide, by decide, fun _ => ⟨by decide,
    ⟨by decide, by decide, by decide, by decide, by decide, by decide, by decide,
      fun _ => ⟨by decide, fun p hp => by cases hp; decide⟩⟩, witness_slots_afterGrown, by decide, by decide⟩⟩

/-- The idle and the finished machine meet the invariant. -/
theorem witness_inv_not_busy : Inv booted ∧ Inv finished :=
  ⟨⟨by decide, by decide, by decide, fun h => absurd h (by decide)⟩,
    ⟨by decide, by decide, by decide, fun h => absurd h (by decide)⟩⟩

theorem witness_DecodeOfEncodeIsTheInstruction :
    let x : Ctx := { ctxT with bitOff := 7 }
    wellFormed x (.refT 4095) = true ∧ x.bitOff < 8 ∧ x.codeWidth ≤ 12 ∧
      encode x (.refT 4095) = .stream [0b10000000, 0b11111111, 0b00000111] ∧ wellFormed x .start = true ∧
      encode x .start = .hostWrite 0 1 := by decide

/-- The code that ends with the last bit of the input. -/
theorem witness_FetchReadsTheCodeLowBitFirst :
    let s : State := { running with byteIdx := 2, bitOff := 5 }
    s.bitOff < 8 ∧ s.codeWidth ≤ 12 ∧ s.bitPos + s.codeWidth = 8 * s.inLen := by decide

theorem witness_TruncationTestIsFewerBitsThanTheCode :
    (let s : State := { running with byteIdx := 2, bitOff := 6 }
     8 * s.byteIdx + s.bitOff + s.codeWidth = 8 * s.inLen + 1) ∧
    (let s : State := { running with byteIdx := 2, bitOff := 5 }
     8 * s.byteIdx + s.bitOff + s.codeWidth = 8 * s.inLen) := by decide

/-- Two machines whose inputs differ in the first byte the code does not lie in. -/
theorem witness_FetchDependsOnTheCodesBytesOnly :
    let s : State := afterLit running
    let t : State := { running with bitOff := 6, input := inputOf [0x4C, 0x44, 0xFF] }
    t.byteIdx = s.byteIdx ∧ t.bitOff = s.bitOff ∧ t.codeWidth = s.codeWidth ∧ t.inLen = s.inLen ∧
      (∀ a, a < s.byteIdx + (s.bitOff + s.codeWidth + 7) / 8 → t.inByte a = s.inByte a) ∧
      s.bitPos + s.codeWidth ≤ 8 * s.inLen ∧ t.inByte 2 ≠ s.inByte 2 := by decide

theorem witness_FirstLiteralEmitsWithoutGrowing :
    let s : State := { afterClear running with out := symbols 8 [0, 1, 2, 3, 0, 1, 2] }
    s.out.len + 1 = s.params.outCap := by decide

theorem witness_MidStreamClearRestartsTheDictionary :
    (Instr.clrS 4 = .clrS 4 ∨ Instr.clrS 4 = .clrT 4) ∧ (Instr.clrT 4 = .clrS 4 ∨ Instr.clrT 4 = .clrT 4) ∧
      2 ^ running.ics + 2 = (6 : Code).toNat := by decide

theorem witness_StreamingLiteralEmitsAndGrows :
    let s : State := { afterLit running with out := symbols 8 [0, 1, 2, 3, 0, 1, 2] }
    s.phase = .streaming ∧ s.table.len < 4096 ∧ s.prevCode = some 1 ∧ (1 : Code).toNat < s.table.len ∧
      s.slot (1 : Code).toNat = [1] ∧ s.out.len + 1 = s.params.outCap := by decide

/-- The reference to the last entry, which is the previous code's. -/
theorem witness_StreamingReferenceEmitsAndGrows :
    let s : State := { afterGrown 6 running with out := symbols 8 [0, 1, 2, 3, 0, 1] }
    s.phase = .streaming ∧ s.table.len < 4096 ∧ s.prevCode = some 6 ∧ (6 : Code).toNat + 1 = s.table.len ∧
      s.slot (6 : Code).toNat = [1, 1] ∧ s.out.len + 2 = s.params.outCap := by decide

theorem witness_SelfReferenceEmitsAndStoresTheSameSequence :
    let s : State := { afterLit running with out := symbols 8 [0, 1, 2, 3, 0, 1] }
    s.phase = .streaming ∧ (6 : Code).toNat = s.table.len ∧ s.prevCode = some 1 ∧ (1 : Code).toNat < s.table.len ∧
      s.slot (1 : Code).toNat = [1] ∧ s.out.len + (([] : List Symbol).length + 2) = s.params.outCap := by decide

theorem witness_FullTableCodesEmitWithoutGrowing :
    (let s : State := { full [] with out := symbols 8 [0, 1, 2, 3, 0, 1, 2] }
     s.out.len + 1 = s.params.outCap) ∧
    (let s : State := { full [] with out := symbols 8 [0, 1, 2, 3, 0, 1] }
     (4095 : Code).toNat < s.table.len ∧ s.slot (4095 : Code).toNat = [1, 2] ∧
       s.out.len + ([1, 2] : List Symbol).length = s.params.outCap) := by decide

theorem witness_EmittingCodesRaiseWhereTheOutputIsFull :
    (let s : State := { afterLit running with out := symbols 8 [0, 1, 2, 3, 0, 1, 2, 3] }
     s.params.outCap + 1 = s.out.len + 1) ∧
    (let s : State := { afterGrown 6 running with out := symbols 8 [0, 1, 2, 3, 0, 1, 2] }
     (6 : Code).toNat < s.table.len ∧ s.slot (6 : Code).toNat = [1, 1] ∧ s.params.outCap + 1 = s.out.len + 2) ∧
    (let s : State := { afterLit running with out := symbols 8 [0, 1, 2, 3, 0, 1, 2] }
     s.prevCode = some 1 ∧ (1 : Code).toNat < s.table.len ∧ s.slot (1 : Code).toNat = [1] ∧
       s.params.outCap + 1 = s.out.len + (([] : List Symbol).length + 2)) := by decide

theorem witness_GrowAddsOneEntry :
    (let s : State := { full [] with phase := .streaming, table := { (freshTable 1 2) with len := 4095 } }
     s.phase = .streaming ∧ s.table.len < 4096) ∧
    running.phase ≠ .streaming ∧
    (let s : State := { full [] with phase := .streaming }
     s.phase = .streaming ∧ 4096 ≤ s.table.len) := by decide

theorem witness_WidthStepAtPowersOfTwo :
    (let s : State := { afterLit running with table := { (freshTable 1 2) with len := 8 } }
     s.table.len = 2 ^ s.codeWidth ∧ s.codeWidth < 12) ∧
    (let s : State := { full [] with phase := .streaming }
     s.table.len = 2 ^ s.codeWidth ∧ ¬ s.codeWidth < 12) ∧
    (afterGrown 1 running).table.len ≠ 2 ^ (afterGrown 1 running).codeWidth := by decide

theorem witness_ResetDictTruncatesAndRestartsTheWidth :
    ({ running with ics := 8 } : State).ics ≤ 8 ∧ 2 ^ running.ics + 2 = (6 : Code).toNat := by decide

/-- One state for each of the three codes that grow, each going on. -/
theorem witness_NewEntryExtendsAnExistingEntry :
    (afterGrown 1 running).run = .busy ∧ wellFormed (afterGrown 1 running).ctx (.litS 3) = true ∧
      wellFormed (afterGrown 1 running).ctx (.refS 6) = true ∧ wellFormed (afterGrown 1 running).ctx (.kwkS 7) = true ∧
      after (exec (.litS 3) (afterGrown 1 running)) (fun t => t.run) = some .busy ∧
      after (exec (.refS 6) (afterGrown 1 running)) (fun t => t.run) = some .busy ∧
      after (exec (.kwkS 7) (afterGrown 1 running)) (fun t => t.run) = some .busy := by decide

theorem witness_EmitAppendsTheSequenceOrRaises :
    (afterLit running).out.len + ([0, 1, 2, 3, 0, 1, 2] : List Symbol).length = (afterLit running).params.outCap ∧
      (afterLit running).params.outCap + 1 =
        (afterLit running).out.len + ([0, 1, 2, 3, 0, 1, 2, 3] : List Symbol).length := by decide

theorem witness_CreateMakesAnEmptyZeroedBuffer :
    let cap0 (fx : Bool) (n : Nat) := if fx then n else max n running.params.minFloor
    1 ≤ 1 ∧ cap0 true 8 = running.params.outCap ∧ cap0 false 0 = 4 ∧ running.params.outCap + 1 = cap0 false 9 := by
  decide

/-- An append that fits exactly, one that the growth just allows, and one that it just does not; an empty source, also on a
full buffer of another element size. -/
theorem witness_AppendWithRoomAppends :
    HasRoom running.params none running.table [[0]].length ∧ running.out.elemSize = 2 ∧
      HasRoom running.params (some running.params.outCap) running.out 8 ∧
      HasRoom running.params (some running.params.outCap) { symbols 4 [1, 2, 3, 0] with isFixed := false } 4 ∧
      running.table.len ≤ running.table.cap ∧
      ({ symbols 2 [1, 2] with elemSize := 3 } : Buffer Symbol).len =
        ({ symbols 2 [1, 2] with elemSize := 3 } : Buffer Symbol).cap :=
  ⟨.inl (by decide), by decide, .inl (by decide), .inr ⟨rfl, fun c hc => by cases hc; decide⟩, by decide, by decide⟩

theorem witness_AppendWithoutRoomRaises :
    ¬ HasRoom running.params none { (freshTable 1 2) with len := 4096 } [[0]].length ∧ running.out.elemSize = 2 ∧
      ¬ HasRoom running.params (some running.params.outCap) running.out 9 ∧
      ¬ HasRoom running.params (some running.params.outCap) { symbols 4 [1, 2, 3, 0] with isFixed := false } 5 ∧
      ([1] : List Symbol) ≠ [] ∧ ([[]] : List Entry) ≠ [] ∧
      ({ symbols 4 [] with elemSize := 3 } : Buffer Symbol).elemSize ≠ 2 := by
  refine ⟨?_, by decide, ?_, ?_, by decide, by decide, by decide⟩
  · rintro (h | ⟨h, -⟩)
    · exact absurd h (by decide)
    · exact absurd h (by decide)
  · rintro (h | ⟨h, -⟩)
    · exact absurd h (by decide)
    · exact absurd h (by decide)
  · rintro (h | ⟨-, h⟩)
    · exact absurd h (by decide)
    · exact absurd (h 8 rfl) (by decide)

/-- A copy that fits exactly, one that does not, an empty source, an entry, a valid empty entry at the last valid slot, a
slot behind the table, the last sentinel slot, another element size. -/
theorem witness_CopyFromReplacesContents :
    (let s : State := { running with curSeq := symbols 2 [3], prevSeq := symbols 9 [1, 2] }
     (s.symBuf .curSeq).elemSize = (s.symBuf .prevSeq).elemSize ∧ 0 < (s.symBuf .prevSeq).len ∧
       HasRoomToCopy s .curSeq (s.symBuf .prevSeq).len) ∧
    (let s : State := { running with curSeq := symbols 1 [3], prevSeq := symbols 9 [1, 2] }
     0 < (s.symBuf .prevSeq).len ∧ ¬ HasRoomToCopy s .curSeq (s.symBuf .prevSeq).len) ∧
    SymBuf.curSeq ≠ SymBuf.prevSeq ∧ (running.symBuf .prevSeq).len = 0 ∧
    ((6 : Code).toNat < (afterGrown 1 running).table.len ∧ (afterGrown 1 running).slot (6 : Code).toNat = [1, 1]) ∧
    ((withEmptyEntry.symBuf .curSeq).elemSize = 2 ∧ (6 : Code).toNat + 1 = withEmptyEntry.table.len ∧
      withEmptyEntry.slot (6 : Code).toNat = [] ∧ (6 : Code).toNat = withEmptyEntry.endCode + 1) ∧
    (withEmptyEntry.table.len = (7 : Code).toNat ∧ running.slot (5 : Code).toNat = [] ∧
      (5 : Code).toNat = running.endCode) ∧
    ({ symbols 4 [] with elemSize := 3 } : Buffer Symbol).elemSize ≠ 2 := by
  refine ⟨⟨rfl, by decide, .inl (by decide)⟩, ⟨by decide, ?_⟩, by decide, by decide, by decide, by decide, by decide,
    by decide⟩
  rintro (h | ⟨h, -⟩)
  · exact absurd h (by decide)
  · exact absurd h (by decide)

theorem witness_LengthStaysWithinCapacity :
    (running.symBuf .out).len ≤ (running.symBuf .out).cap ∧ running.table.len ≤ running.table.cap ∧
      after (exec (.bufAppend (.sym .out) (.symbols [1])) running) (fun t => t.out.len) = some 1 ∧
      after (exec (.bufCopyFrom (.sym .out) (.entry 1)) running) (fun t => t.out.len) = some 1 ∧
      after (exec (.bufAppend .table (.entries [[1]])) running) (fun t => t.table.len) = some 7 := by decide

/-- Released buffers, which exist at reset, and buffers that do not own their storage. -/
theorem witness_ReleaseIsIdempotent :
    State.reset.table.cap = 0 ∧ State.reset.table.len = 0 ∧ (State.reset.symBuf .out).cap = 0 ∧
      (State.reset.symBuf .out).len = 0 ∧ ({ freshTable 1 2 with owned := false } : Buffer Entry).owned = false ∧
      ({ symbols 4 [1] with owned := false } : Buffer Symbol).owned = false := by decide

/-- The smallest and the largest initial code size, from `IDLE` and from `DONE`. -/
theorem witness_StartBeginsADecode :
    (let s : State := booted
     s.run ≠ .busy ∧ s.icsWritten = true ∧ s.inLenWritten = true ∧ 2 = s.hrIcs.toNat ∧ s.hrIcs.toNat ≤ 8) ∧
    (let s : State := { finished with hrIcs := 8 }
     s.run ≠ .busy ∧ s.icsWritten = true ∧ s.inLenWritten = true ∧ 2 ≤ s.hrIcs.toNat ∧ s.hrIcs.toNat = 8) := by decide

theorem witness_StartIsIgnoredOrRefused :
    running.run = .busy ∧
    (State.reset.run ≠ .busy ∧ State.reset.icsWritten = false) ∧
    ({ booted with inLenWritten := false } : State).inLenWritten = false ∧
    ({ booted with hrIcs := 1 } : State).hrIcs.toNat < 2 ∧ 8 < ({ booted with hrIcs := 9 } : State).hrIcs.toNat := by
  decide

theorem witness_HostWritesFollowTheAccessRights :
    (withAgenda [.host (.writeReg 0 1)] booted).agenda = [.host (.writeReg 0 1)] ∧ 1 % 2 = 1 ∧
      0xFFFFFFFE % 2 = 0 ∧ running.run = .busy ∧ booted.run ≠ .busy := by decide

theorem witness_HostReadsReturnTheRegisters :
    (withAgenda [.host (.readReg 4)] running).agenda = [.host (.readReg 4)] ∧ running.run = .busy ∧
      ¬ (4 = 4 ∧ finished.run = .busy) := by decide

theorem witness_HostWritesInputOnlyWhileNotBusy :
    (withAgenda [.host (.writeIn 255 0)] booted).agenda = [.host (.writeIn 255 0)] ∧ booted.run ≠ .busy ∧
      255 < 2 ^ booted.params.inAw ∧ 2 ^ booted.params.inAw ≤ 256 ∧ running.run = .busy := by decide

/-- The last symbol of the result, the first behind it, the first index that does not exist. -/
theorem witness_HostReadsTheResultAtDone :
    (withAgenda [.host (.readOut 1)] finished).agenda = [.host (.readOut 1)] ∧ finished.run = .done ∧
      1 < finished.hrOutLen.toNat ∧ finished.hrOutLen.toNat ≤ 2 ∧ 2 < finished.params.outCap ∧
      7 < finished.params.outCap ∧ finished.params.outCap ≤ 8 := by decide

theorem witness_HardwareResetLeavesIdle :
    (withAgenda [.host .hardReset] (afterLit running)).agenda = [.host .hardReset] := by decide

theorem witness_IdleCoreDoesNothing :
    finished.run ≠ .busy ∧ finished.agenda = [] ∧ (withAgenda [.core] finished).agenda = [.core] := by decide

/-- A code that decodes and one that does not, with and without a listed turn of the core. -/
theorem witness_StepRunsTheDecodedInstruction :
    (afterLit running).run = .busy ∧ 3 = (afterLit running).codeWidth ∧ (afterLit running).agenda = [] ∧
      (withAgenda [.core] (afterLit running)).agenda = [.core] ∧
      decode (afterLit running).ctx (afterLit running).restOfInput = .instr (.litS 1) 1 1 ∧
      decode (afterLit (onInput [0xCC])).ctx (afterLit (onInput [0xCC])).restOfInput = .rejected .truncatedStream := by
  decide

/-- A step of the core and a step of the host from states that meet the invariant. -/
theorem witness_EveryStepKeepsTheInvariant :
    Inv (afterLit running) ∧ (after (step (afterLit running)) fun t => t.run) = some .busy ∧
      Inv (withAgenda [.host (.writeIn 0 1)] booted) ∧
      (after (step (withAgenda [.host (.writeIn 0 1)] booted)) fun t => t.inByte 0) = some 1 :=
  ⟨witness_inv_afterLit, by decide, witness_inv_not_busy.1, by decide⟩

theorem witness_CoreNeverGetsStuck :
    Inv (afterGrown 1 running) ∧ (afterGrown 1 running).agenda = [] ∧
      Inv (withAgenda [.core] (afterGrown 1 running)) ∧ (withAgenda [.core] (afterGrown 1 running)).agenda = [.core] :=
  ⟨witness_inv_afterGrown, by decide, witness_inv_afterGrown, by decide⟩

theorem witness_EveryDecodeEnds : Inv running ∧ running.run = .busy ∧ running.agenda = [] :=
  ⟨witness_inv_running, by decide, by decide⟩

theorem witness_StepFollowsTheListing :
    Inv (afterGrown 1 running) ∧ (afterGrown 1 running).run = .busy ∧ (afterGrown 1 running).agenda = [] :=
  ⟨witness_inv_afterGrown, by decide, by decide⟩

theorem witness_DecodeFollowsTheListing :
    Inv booted ∧ booted.run ≠ .busy ∧ booted.agenda = [] ∧ booted.icsWritten = true ∧ booted.inLenWritten = true ∧
      2 = booted.hrIcs.toNat ∧ booted.hrIcs.toNat ≤ 8 :=
  ⟨witness_inv_not_busy.1, by decide, by decide, by decide, by decide, by decide, by decide⟩

/-- An idle and a finished machine with an empty input, which no code reaches past. -/
theorem witness_OutcomeDependsOnTheArgumentsOnly :
    let s1 : State := { booted with hrInLen := 0 }
    let s2 : State := { finished with hrInLen := 0 }
    Inv s1 ∧ Inv s2 ∧ s1.run ≠ .busy ∧ s2.run ≠ .busy ∧ s1.agenda = [] ∧ s2.agenda = [] ∧ s2.icsWritten = true ∧
      s2.inLenWritten = true ∧ s2.hrIcs = s1.hrIcs ∧ s2.hrInLen = s1.hrInLen ∧
      s2.params.outCap = s1.params.outCap ∧ s2.params.endAfterClear = s1.params.endAfterClear ∧
      exec .start s1 = .next (started s1) ∧
      (∀ k v, Host.Core.run Sys2Proof.core k (started s1) = .next v → v.run = .busy →
        v.bitPos + v.codeWidth ≤ 8 * v.inLen → v.byteIdx + (v.bitOff + v.codeWidth + 7) / 8 ≤ 0) ∧
      ∀ a, a < s1.hrInLen → a < 0 → s2.inByte a = s1.inByte a := by
  refine ⟨⟨by decide, by decide, by decide, fun h => absurd h (by decide)⟩,
    ⟨by decide, by decide, by decide, fun h => absurd h (by decide)⟩, by decide, by decide, by decide, by decide,
    by decide, by decide, by decide, by decide, by decide, by decide, rfl, ?_, fun a _ h => absurd h (by omega)⟩
  intro k v hv hb hl
  cases k with
  | zero =>
    cases hv
    exact absurd hl (by decide)
  | succ k =>
    rw [run_of_next (t := raiseError .truncatedStream (started { booted with hrInLen := 0 })) rfl,
      run_of_not_busy rfl (by simp)] at hv
    cases hv
    simp at hb

/-- The hypotheses of CoreNeverWritesItsInput, OutputIsOnlyAppendedTo, EntriesAreNeverModified,
FullTableIsLeftByClearOnly and PhaseMovesAsTheTableSays: steps that go on, one from each phase, one from `S` to `T`. -/
theorem witness_steps_that_go_on :
    (running.run = .busy ∧ running.agenda = [] ∧ (after (step running) fun t => t.run) = some .busy) ∧
    (afterClear running).agenda = [] ∧ (after (step (afterClear running)) fun t => t.run) = some .busy ∧
    (Inv (afterLit running) ∧ (afterLit running).run = .busy ∧ (afterLit running).agenda = [] ∧
      (after (step (afterLit running)) fun t => t.run) = some .busy) ∧
    (let s : State := full [0x20, 0x00]
     let s : State := { s with phase := .streaming, table := { s.table with len := 4095 } }
     s.agenda = [] ∧ (after (step s) fun t => t.run) = some .busy ∧ (after (step s) fun t => t.phase) = some .tableFull) ∧
    ((full [0x40, 0x00]).phase = .tableFull ∧ (full [0x40, 0x00]).agenda = [] ∧
      (after (step (full [0x40, 0x00])) fun t => t.run) = some .busy) ∧
    ((full [0x20, 0x00]).phase = .tableFull ∧ (after (step (full [0x20, 0x00])) fun t => t.run) = some .busy) :=
  ⟨by decide, by decide, by decide, ⟨witness_inv_afterLit, by decide⟩, by decide, by decide, by decide⟩

end Sys2Proof.Tests
end

section
/-! SUPPORT. Access to a symbol buffer by its name, what a buffer operation leaves of the state, and what a clear and a
release do to the buffer (40_buffer_ops.md R69, R70). -/

namespace Sys2Proof.Machine

/-! ### A symbol buffer under its name -/

@[simp] theorem symBuf_setSymBuf_same (s : State) (d : SymBuf) (v : Buffer Symbol) :
    (s.setSymBuf d v).symBuf d = v := by
  cases d <;> rfl

@[simp] theorem setSymBuf_setSymBuf_same (s : State) (d : SymBuf) (v w : Buffer Symbol) :
    (s.setSymBuf d v).setSymBuf d w = s.setSymBuf d w := by
  cases d <;> rfl

@[simp] theorem setSymBuf_symBuf_same (s : State) (d : SymBuf) : s.setSymBuf d (s.symBuf d) = s := by
  cases d <;> rfl

theorem onlySymBuf_setSymBuf (s : State) (d : SymBuf) (v : Buffer Symbol) : OnlySymBuf d s (s.setSymBuf d v) := by
  simp [OnlySymBuf]

theorem onlyTable_setTable (s : State) (v : Buffer Entry) : OnlyTable s { s with table := v } := rfl

/-! ### What the two operations are to the state -/

theorem exec_bufClear_table (s : State) : exec (.bufClear .table) s = .next { s with table := s.table.clear } := rfl

theorem exec_bufClear_sym (d : SymBuf) (s : State) :
    exec (.bufClear (.sym d)) s = .next (s.setSymBuf d (s.symBuf d).clear) := rfl

theorem exec_bufRelease_table (s : State) :
    exec (.bufRelease .table) s = .next { s with table := s.table.release } := rfl

theorem exec_bufRelease_sym (d : SymBuf) (s : State) :
    exec (.bufRelease (.sym d)) s = .next (s.setSymBuf d (s.symBuf d).release) := rfl

/-! ### What they are to the buffer -/

variable {α : Type} (b : Buffer α)

theorem Buffer.clear_sameAttributes : b.SameAttributes b.clear := ⟨rfl, rfl, rfl, rfl⟩

/-- A release of a released buffer is a no-op (40_buffer_ops.md R70). -/
theorem Buffer.release_of_empty (h : b.Empty) : b.release = b := by
  obtain ⟨hlen, hcap⟩ := h
  simp [Buffer.release, hlen, hcap]

theorem Buffer.release_empty : b.release.Empty := b.release_len

@[simp] theorem Buffer.release_release : b.release.release = b.release := b.release.release_of_empty b.release_empty

/-- Only storage the buffer owns is freed. -/
theorem Buffer.release_data_of_not_owned (h : b.owned = false) : b.release.data = b.data := by
  unfold Buffer.release
  split
  · rfl
  · simp [h]

end Sys2Proof.Machine
end

section
/-! The obligations on `BUF.CLEAR` and `BUF.RELEASE`. -/

namespace Sys2Proof.Machine

/-- Settles O29: a clear writes the length only, of the buffer it names. -/
theorem clearKeepsTheStorage : Obligations.ClearKeepsTheStorage := by
  intro s
  refine ⟨⟨_, exec_bufClear_table s, onlyTable_setTable s _, rfl, s.table.clear_sameAttributes, fun _ => rfl⟩,
    fun d => ⟨_, exec_bufClear_sym d s, onlySymBuf_setSymBuf s d _, ?_⟩⟩
  rw [symBuf_setSymBuf_same]
  exact ⟨rfl, (s.symBuf d).clear_sameAttributes, fun _ => rfl⟩

/-- Settles O30: `release` is the identity on an empty, zero-capacity buffer, which is what every release leaves. -/
theorem releaseIsIdempotent : Obligations.ReleaseIsIdempotent := by
  intro s
  constructor
  · obtain ⟨hlen, hcap⟩ := s.table.release_empty
    refine ⟨_, exec_bufRelease_table s, onlyTable_setTable s _, hlen, hcap, fun ho k => ?_, fun hc hl => ?_, ?_⟩
    · simp only [State.slot, s.table.release_data_of_not_owned ho]
    · rw [s.table.release_of_empty ⟨hl, hc⟩]
    · simp only [exec_bufRelease_table, Buffer.release_release]
  · intro d
    obtain ⟨hlen, hcap⟩ := (s.symBuf d).release_empty
    refine ⟨_, exec_bufRelease_sym d s, onlySymBuf_setSymBuf s d _, ?_⟩
    rw [symBuf_setSymBuf_same]
    refine ⟨hlen, hcap, fun ho k => ?_, fun hc hl => ?_, ?_⟩
    · rw [(s.symBuf d).release_data_of_not_owned ho]
    · rw [(s.symBuf d).release_of_empty ⟨hl, hc⟩, setSymBuf_symBuf_same]
    · simp only [exec_bufRelease_sym, symBuf_setSymBuf_same, setSymBuf_setSymBuf_same, Buffer.release_release]

end Sys2Proof.Machine
end

section
/-! The obligation on the truncation test of `Fetch` (41_bit_unpacker.md R75). -/

namespace Sys2Proof.Machine

theorem exec_fetch_of_truncated {s : State} (h : s.truncated = true) :
    exec .fetch s = .next (raiseError .truncatedStream s) :=
  fetchThen_truncated h

theorem exec_fetch_of_not_truncated {s : State} (h : s.truncated = false) : exec .fetch s = .next (fetched s) :=
  fetchThen_fetched h

/-- Normalising the cursor loses no bit: it advances by the code's width, wherever it stood (41_bit_unpacker.md R74). -/
@[simp] theorem fetched_bitPos (s : State) : (fetched s).bitPos = s.bitPos + s.codeWidth := by
  simp only [State.bitPos, fetched_byteIdx, fetched_bitOff]
  omega

/-- `truncated` written as the byte test of 41_bit_unpacker.md R74. -/
theorem truncated_iff_byteTest (s : State) :
    s.truncated = true ↔ s.byteIdx + (s.bitOff + s.codeWidth + 7) / 8 > s.inLen :=
  decide_eq_true_iff

/-- Settles O5: both tests are `truncated`, and a fetch that is not truncated moves the cursor to the end of its code. -/
theorem truncationTestIsFewerBitsThanTheCode : Obligations.TruncationTestIsFewerBitsThanTheCode := by
  intro s
  have hbits : s.truncated = true ↔ 8 * s.byteIdx + s.bitOff + s.codeWidth > 8 * s.inLen := truncated_iff s
  refine ⟨(truncated_iff_byteTest s).symm.trans hbits, fun hfew => ?_, fun henough => ?_⟩
  · exact ⟨_, exec_fetch_of_truncated (hbits.mpr hfew), endedInError_raiseError _ s⟩
  · have hfetch : s.truncated = false := by
      rw [← Bool.not_eq_true, hbits]
      exact henough.not_gt
    exact ⟨_, exec_fetch_of_not_truncated hfetch, rfl, (fetched_bitPos s).trans_le henough⟩

end Sys2Proof.Machine
end

section
/-! The obligation on the leading clear (42_code_lookup.md R80). -/

namespace Sys2Proof.Machine

/-- The action of `CLR.R` is the write of one register. -/
theorem exec_clrR (c : Code) (s : State) : exec (.clrR c) s = .next { s with phase := .awaitingFirst } := rfl

/-- The phase is no part of what surrounds the decoder's working state. -/
theorem sameSurroundings_setPhase (s : State) (p : Phase) : SameSurroundings s { s with phase := p } := by
  simp [SameSurroundings, SameHost, SameInput, SameLatch, SameStatus, SameCursor, State.inByte]

/-- Settles O7: `CLR.R` writes the phase, which no other field and none of the frames reads. -/
theorem leadingClearOnlyChangesPhase : Obligations.LeadingClearOnlyChangesPhase := by
  intro c s
  refine ⟨_, exec_clrR c s, rfl, rfl, rfl, ?_, ?_, ?_, ?_⟩
  · exact sameTable_of_eq rfl
  · exact sameOut_of_eq rfl
  · exact ⟨rfl, rfl⟩
  · exact sameSurroundings_setPhase s .awaitingFirst

end Sys2Proof.Machine
end

section
/-! What the grow engine does to the state (43_dictionary_grow.md R98, R99), and the views it moves: the mask and `CLEAR`
as numbers, and a lookup behind the end of the table. -/

namespace Sys2Proof.Machine

theorem exec_widthStep (s : State) : exec .widthStep s = .next (widthStep s) := rfl

theorem exec_resetDict (s : State) : exec .resetDict s = .next (resetDict s) := rfl

/-! ### The views -/

theorem clear_eq_two_pow (s : State) : s.clear = 2 ^ s.ics := Nat.one_shiftLeft s.ics

/-- The mask of a width that fits the register (10_state.md R12). -/
theorem toNat_maskOf {w : Nat} (h : w ≤ 12) : (maskOf w).toNat = 2 ^ w - 1 := by
  have hle : 2 ^ w ≤ 2 ^ 12 := Nat.pow_le_pow_right (by decide) h
  rw [maskOf, Nat.one_shiftLeft, BitVec.toNat_ofNat, Nat.mod_eq_of_lt (by omega)]

theorem lookup_of_len_le {s : State} {c : Code} (h : s.table.len ≤ c.toNat) : lookup s c = none :=
  if_neg (Nat.not_lt.mpr h)

/-! ### `WidthStep`, case by case (43_dictionary_grow.md R98) -/

theorem widthStep_of_below {s : State} (hlen : s.table.len = 2 ^ s.codeWidth) (hw : s.codeWidth < 12) :
    widthStep s = { s with codeWidth := s.codeWidth + 1 } := by
  rw [widthStep, Nat.one_shiftLeft, if_pos hlen, Config.maxWidth, if_pos hw]

theorem widthStep_of_widest {s : State} (hlen : s.table.len = 2 ^ s.codeWidth) (hw : ¬ s.codeWidth < 12) :
    widthStep s = { s with phase := .tableFull } := by
  rw [widthStep, Nat.one_shiftLeft, if_pos hlen, Config.maxWidth, if_neg hw]

theorem widthStep_of_len_ne {s : State} (hlen : s.table.len ≠ 2 ^ s.codeWidth) : widthStep s = s := by
  rw [widthStep, Nat.one_shiftLeft, if_neg hlen]

theorem sameSurroundings_widthStep (s : State) : SameSurroundings s (widthStep s) := by
  simp [SameSurroundings, SameHost, SameInput, SameLatch, SameStatus, SameCursor]

/-! ### `ResetDict` (43_dictionary_grow.md R99) -/

@[simp] theorem resetDict_slot (s : State) (k : Nat) : (resetDict s).slot k = s.slot k := rfl

theorem resetDict_sameAttributes (s : State) : s.table.SameAttributes (resetDict s).table := ⟨rfl, rfl, rfl, rfl⟩

theorem resetDict_len (s : State) : (resetDict s).table.len = 2 ^ s.ics + 2 := by
  rw [← clear_eq_two_pow]
  rfl

theorem sameSurroundings_resetDict (s : State) : SameSurroundings s (resetDict s) := by
  simp [SameSurroundings, SameHost, SameInput, SameLatch, SameStatus, SameCursor]

end Sys2Proof.Machine
end

section
/-! The obligations on the grow engine (43_dictionary_grow.md R98, R99, R102). -/

namespace Sys2Proof.Machine

/-! ### Every new entry extends an existing one -/

/-- Whatever kind of slot it is, its symbols are below `CLEAR` (10_state.md R23). -/
theorem SlotOk.symbol_lt_clear {s : State} {i : Nat} (h : SlotOk s i) : ∀ v ∈ s.slot i, v.toNat < s.clear := by
  unfold SlotOk at h
  split at h
  · next hlit =>
    intro v hv
    obtain rfl : v = BitVec.ofNat 16 i := by simpa [h] using hv
    calc (BitVec.ofNat 16 i).toNat = i % 2 ^ 16 := BitVec.toNat_ofNat i 16
      _ ≤ i := Nat.mod_le i _
      _ < s.clear := hlit
  · split at h
    · simp [h]
    · obtain ⟨-, -, hsyms⟩ := h
      exact hsyms

/-- The first symbol of an entry a lookup finds is below `CLEAR`. -/
theorem lookup_first_lt_clear {s : State} {c : Code} {x : Symbol} {xs : List Symbol}
    (hslots : ∀ i < s.table.len, SlotOk s i) (h : lookup s c = some (x, xs)) : x.toNat < s.clear := by
  obtain ⟨hlen, hslot⟩ := lookup_some h
  exact (hslots c.toNat hlen).symbol_lt_clear x (by simp [hslot])

/-- In phase `S` a previous code is a table index and no sentinel (10_state.md R17). -/
theorem WidthOk.prevCode_ne_sentinel {s : State} {p : Code} (h : WidthOk s) (hphase : s.phase = .streaming)
    (hp : s.prevCode = some p) : p.toNat < s.table.len ∧ p.toNat ≠ s.clear ∧ p.toNat ≠ s.endCode := by
  obtain ⟨-, -, -, -, -, -, -, hprev⟩ := h
  obtain ⟨-, hprev⟩ := hprev (.inl hphase)
  obtain ⟨hlen, hclear, hend, -⟩ := hprev p hp
  exact ⟨hlen, hclear, hend⟩

/-- The entry a data code of phase `S` adds is `T[prevCode]` with the code's symbol behind it. -/
theorem GrewFrom.extends_prevCode {c : Code} {e : Entry} {x : Symbol} {s t : State} (h : GrewFrom c e x s t) :
    ∃ p, s.phase = .streaming ∧ s.prevCode = some p ∧ t.table.len = s.table.len + 1 ∧
      t.slot s.table.len = s.slot p.toNat ++ [x] := by
  obtain ⟨p, q, qs, hphase, -, hp, hl, -, rfl⟩ := h
  obtain ⟨-, ⟨hlen, -, hnew, -⟩, -⟩ := afterGrow_does c e (q :: qs ++ [x]) s
  obtain ⟨-, hslot⟩ := lookup_some hl
  exact ⟨p, hphase, hp, hlen, by rw [hnew, hslot]⟩

/-- A data code of phase `S` that does not end the decode has grown the table, by a symbol below `CLEAR`: the literal
itself, or the first symbol of an entry. -/
theorem dataCode_grewFrom {c : Code} {s t : State} {i : Instr} (hslots : ∀ i < s.table.len, SlotOk s i)
    (hwf : wellFormed s.ctx i = true) (hi : i = .litS c ∨ i = .refS c ∨ i = .kwkS c) (h : exec i s = .next t)
    (hrun : t.run = .busy) : ∃ e x, GrewFrom c e x s t ∧ x.toNat < s.clear := by
  rcases hi with rfl | rfl | rfl
  · rcases execLitS_next h with rfl | hg
    · cases hrun
    · have hc : c.toNat < s.clear := of_decide_eq_true (Bool.and_eq_true_iff.mp hwf).2
      have hsym : (literalSymbol c).toNat = c.toNat := BitVec.toNat_setWidth_of_le (by decide)
      exact ⟨_, _, hg, hsym ▸ hc⟩
  · rcases execRefS_next h with rfl | ⟨y, ys, hl, hg⟩
    · cases hrun
    · exact ⟨_, _, hg, lookup_first_lt_clear hslots hl⟩
  · rcases execKwkS_next h with rfl | ⟨p, q, qs, -, hl, hg⟩
    · cases hrun
    · exact ⟨_, _, hg, lookup_first_lt_clear hslots hl⟩

/-- Settles O20: `j` is the previous code, which the invariant keeps off the sentinels, and `x` is the symbol of
`dataCode_grewFrom`. -/
theorem newEntryExtendsAnExistingEntry : Obligations.NewEntryExtendsAnExistingEntry := by
  intro c s t i hinv hbusy hwf hi h hrun
  obtain ⟨-, -, -, hok⟩ := hinv
  obtain ⟨-, hwidth, hslots, -, -⟩ := hok hbusy
  obtain ⟨e, x, hgrew, hx⟩ := dataCode_grewFrom hslots hwf hi h hrun
  obtain ⟨p, hphase, hp, hlen, hnew⟩ := hgrew.extends_prevCode
  obtain ⟨hplen, hpclear, hpend⟩ := WidthOk.prevCode_ne_sentinel hwidth hphase hp
  exact ⟨p, x, hp, hplen, hpclear, hpend, hx, hlen, hnew⟩

/-! ### The width and the truncation -/

/-- Settles O18: the three cases of `WidthStep` write the width, the phase or nothing, and no frame reads these two. -/
theorem widthStepAtPowersOfTwo : Obligations.WidthStepAtPowersOfTwo := by
  intro s
  refine ⟨_, exec_widthStep s, fun ⟨hlen, hw⟩ => ?_, fun ⟨hlen, hw⟩ => ?_, fun hlen => ?_, fun hw => toNat_maskOf hw,
    widthStep_prevCode s, sameTable_of_eq (widthStep_table s), sameOut_of_eq (widthStep_out s),
    ⟨widthStep_curSeq s, widthStep_prevSeq s⟩, sameSurroundings_widthStep s⟩
  · rw [widthStep_of_below hlen hw]
    exact ⟨rfl, rfl⟩
  · rw [widthStep_of_widest hlen hw]
    exact ⟨rfl, rfl⟩
  · rw [widthStep_of_len_ne hlen]
    exact ⟨rfl, rfl⟩

/-- Settles O19: `ResetDict` writes the table's length and the width; a lookup stops at the length, so the storage it
keeps behind it is out of reach. -/
theorem resetDictTruncatesAndRestartsTheWidth : Obligations.ResetDictTruncatesAndRestartsTheWidth := by
  intro s
  refine ⟨_, exec_resetDict s, resetDict_len s, resetDict_sameAttributes s, resetDict_slot s, fun d hd => ?_,
    resetDict_codeWidth s, fun hics => ?_, rfl, rfl, sameOut_of_eq rfl, ⟨rfl, rfl⟩, sameSurroundings_resetDict s⟩
  · exact lookup_of_len_le ((resetDict_len s).trans_le hd)
  · have hw : s.ics + 1 ≤ 12 := by omega
    exact toNat_maskOf hw

end Sys2Proof.Machine
end

section
/-! The obligation on the output bufferer (44_output_bufferer.md R107). -/

namespace Sys2Proof.Machine

/-- `Finish` always completes: it checks nothing and its outcome is the successful end of the decode. -/
theorem exec_finish (s : State) : exec .finish s = .next (finishDecode s) := rfl

/-- Settles O22: what `Finish` leaves is `finishDecode`, which keeps `OUT` and empties the three released buffers. -/
theorem finishHandsOverTheOutput : Obligations.FinishHandsOverTheOutput := by
  intro s
  exact ⟨finishDecode s, exec_finish s, endedWell_finishDecode s⟩

end Sys2Proof.Machine
end

section
/-! The obligations on errors and on the core's rest (60_exceptions.md R121, R133): what `raise` does, and what the core's
move is while it is not `BUSY`. -/

namespace Sys2Proof.Machine

/-! ### Taking an error -/

/-- `raise` always completes: it tests neither the error nor the state. -/
theorem exec_raise (e : DecodeError) (s : State) : exec (.raise e) s = .next (raiseError e s) := rfl

/-- Settles O23: what `raise` leaves is `raiseError`, with the number R120 gives the error. -/
theorem raiseEndsTheDecodeWithItsError : Obligations.RaiseEndsTheDecodeWithItsError := by
  intro e s
  refine ⟨raiseError e s, exec_raise e s, endedInError_raiseError e s, ?_⟩
  rw [raiseError_err]
  cases e <;> rfl

/-! ### The move of a core that is not `BUSY` -/

/-- With nothing listed the move is the core's. -/
theorem step_of_nothing_listed {s : State} (h : s.agenda = []) : step s = coreTurn s := by
  simp only [step, turn, h]

/-- A listed turn of the core is used up by its move. -/
theorem step_of_core_listed {s : State} {rest : List Turn} (h : s.agenda = .core :: rest) :
    step s = coreTurn { s with agenda := rest } := by
  simp only [step, turn, h]

theorem coreTurn_of_not_busy {s : State} (h : s.run ≠ .busy) : coreTurn s = .next s := if_neg h

/-- Settles O38: in both forms the step is the core's move, from a state with the same `RUN`. -/
theorem idleCoreDoesNothing : Obligations.IdleCoreDoesNothing := by
  intro s hidle
  refine ⟨fun hnone => ?_, fun rest hcore => ?_⟩
  · rw [step_of_nothing_listed hnone, coreTurn_of_not_busy hidle]
  · have hidle' : { s with agenda := rest }.run ≠ .busy := hidle
    rw [step_of_core_listed hcore, coreTurn_of_not_busy hidle']

end Sys2Proof.Machine
end

section
/-! The code map row by row (30_encoding.md R58): when each code instruction is well formed, and which one the decoder
selects. -/

namespace Sys2Proof.Machine

/-! ### When each code is well formed -/

section
variable (x : Ctx) (c : Code)

@[simp] theorem wellFormed_clrR :
    wellFormed x (.clrR c) = true ↔ x.phase = .awaitingReset ∧ x.fits c = true ∧ c.toNat = x.clear := by
  simp [wellFormed, Ctx.inPhase, and_assoc]

@[simp] theorem wellFormed_illR :
    wellFormed x (.illR c) = true ↔ x.phase = .awaitingReset ∧ x.fits c = true ∧ c.toNat ≠ x.clear := by
  simp [wellFormed, Ctx.inPhase, and_assoc]

@[simp] theorem wellFormed_litF :
    wellFormed x (.litF c) = true ↔ x.phase = .awaitingFirst ∧ x.fits c = true ∧ c.toNat < x.clear := by
  simp [wellFormed, Ctx.inPhase, and_assoc]

@[simp] theorem wellFormed_endF :
    wellFormed x (.endF c) = true ↔
      x.phase = .awaitingFirst ∧ x.fits c = true ∧ c.toNat = x.endCode ∧ x.endAfterClear = .accept := by
  simp [wellFormed, Ctx.inPhase, and_assoc]

@[simp] theorem wellFormed_illF :
    wellFormed x (.illF c) = true ↔
      x.phase = .awaitingFirst ∧ x.fits c = true ∧
        (c.toNat = x.clear ∨ x.endCode < c.toNat ∨ (c.toNat = x.endCode ∧ x.endAfterClear = .reject)) := by
  simp [wellFormed, Ctx.inPhase, and_assoc, or_assoc]

@[simp] theorem wellFormed_endS :
    wellFormed x (.endS c) = true ↔ x.phase = .streaming ∧ x.fits c = true ∧ c.toNat = x.endCode := by
  simp [wellFormed, Ctx.inPhase, and_assoc]

@[simp] theorem wellFormed_clrS :
    wellFormed x (.clrS c) = true ↔ x.phase = .streaming ∧ x.fits c = true ∧ c.toNat = x.clear := by
  simp [wellFormed, Ctx.inPhase, and_assoc]

@[simp] theorem wellFormed_litS :
    wellFormed x (.litS c) = true ↔ x.phase = .streaming ∧ x.fits c = true ∧ c.toNat < x.clear := by
  simp [wellFormed, Ctx.inPhase, and_assoc]

@[simp] theorem wellFormed_refS :
    wellFormed x (.refS c) = true ↔
      x.phase = .streaming ∧ x.fits c = true ∧ x.endCode < c.toNat ∧ c.toNat < x.tableLen := by
  simp [wellFormed, Ctx.inPhase, and_assoc]

@[simp] theorem wellFormed_kwkS :
    wellFormed x (.kwkS c) = true ↔
      x.phase = .streaming ∧ x.fits c = true ∧ x.endCode < c.toNat ∧ c.toNat = x.tableLen := by
  simp [wellFormed, Ctx.inPhase, and_assoc]

@[simp] theorem wellFormed_illS :
    wellFormed x (.illS c) = true ↔
      x.phase = .streaming ∧ x.fits c = true ∧ x.endCode < c.toNat ∧ x.tableLen < c.toNat := by
  simp [wellFormed, Ctx.inPhase, and_assoc]

@[simp] theorem wellFormed_endT :
    wellFormed x (.endT c) = true ↔ x.phase = .tableFull ∧ x.fits c = true ∧ c.toNat = x.endCode := by
  simp [wellFormed, Ctx.inPhase, and_assoc]

@[simp] theorem wellFormed_clrT :
    wellFormed x (.clrT c) = true ↔ x.phase = .tableFull ∧ x.fits c = true ∧ c.toNat = x.clear := by
  simp [wellFormed, Ctx.inPhase, and_assoc]

@[simp] theorem wellFormed_litT :
    wellFormed x (.litT c) = true ↔ x.phase = .tableFull ∧ x.fits c = true ∧ c.toNat < x.clear := by
  simp [wellFormed, Ctx.inPhase, and_assoc]

@[simp] theorem wellFormed_refT :
    wellFormed x (.refT c) = true ↔ x.phase = .tableFull ∧ x.fits c = true ∧ x.endCode < c.toNat := by
  simp [wellFormed, Ctx.inPhase, and_assoc]

end

/-! ### Which code the decoder selects -/

section
variable {x : Ctx} {c : Code}

theorem classify_clrR (hp : x.phase = .awaitingReset) (hc : c.toNat = x.clear) : classify x c = .clrR c := by
  simp [classify, hp, hc]

theorem classify_illR (hp : x.phase = .awaitingReset) (hc : c.toNat ≠ x.clear) : classify x c = .illR c := by
  simp [classify, hp, hc]

theorem classify_litF (hp : x.phase = .awaitingFirst) (hc : c.toNat < x.clear) : classify x c = .litF c := by
  simp [classify, classifyFirst, hp, hc]

theorem classify_endF (hp : x.phase = .awaitingFirst) (hc : c.toNat = x.endCode) (he : x.endAfterClear = .accept) :
    classify x c = .endF c := by
  simp [classify, classifyFirst, hp, hc, he, Ctx.endCode]

/-- `CLEAR` and every code above `END` in phase `F` (42_code_lookup.md R84). -/
theorem classify_illF (hp : x.phase = .awaitingFirst) (hc : x.clear ≤ c.toNat) (he : c.toNat ≠ x.endCode) :
    classify x c = .illF c := by
  simp [classify, classifyFirst, hp, Nat.not_lt.mpr hc, he]

/-- `END` in phase `F`, in the configuration that rejects it. -/
theorem classify_illF_of_end (hp : x.phase = .awaitingFirst) (hc : c.toNat = x.endCode)
    (he : x.endAfterClear = .reject) : classify x c = .illF c := by
  simp [classify, classifyFirst, hp, hc, he, Ctx.endCode]

theorem classify_endS (hp : x.phase = .streaming) (hc : c.toNat = x.endCode) : classify x c = .endS c := by
  simp [classify, classifyStreaming, hp, hc]

theorem classify_clrS (hp : x.phase = .streaming) (hc : c.toNat = x.clear) : classify x c = .clrS c := by
  simp [classify, classifyStreaming, hp, hc, Ctx.endCode]

theorem classify_litS (hp : x.phase = .streaming) (hc : c.toNat < x.clear) : classify x c = .litS c := by
  have he : c.toNat ≠ x.endCode := by unfold Ctx.endCode; omega
  simp [classify, classifyStreaming, hp, he, hc, hc.ne]

theorem classify_refS (hp : x.phase = .streaming) (he : x.endCode < c.toNat) (hc : c.toNat < x.tableLen) :
    classify x c = .refS c := by
  have hl : x.clear < c.toNat := Nat.lt_of_succ_lt he
  simp [classify, classifyStreaming, hp, he.ne', hl.ne', hl.not_gt, hc]

theorem classify_kwkS (hp : x.phase = .streaming) (he : x.endCode < c.toNat) (hc : c.toNat = x.tableLen) :
    classify x c = .kwkS c := by
  have hl : x.clear < c.toNat := Nat.lt_of_succ_lt he
  rw [hc] at he hl
  simp [classify, classifyStreaming, hp, hc, he.ne', hl.ne', hl.not_gt]

theorem classify_illS (hp : x.phase = .streaming) (he : x.endCode < c.toNat) (hc : x.tableLen < c.toNat) :
    classify x c = .illS c := by
  have hl : x.clear < c.toNat := Nat.lt_of_succ_lt he
  simp [classify, classifyStreaming, hp, he.ne', hl.ne', hl.not_gt, hc.not_gt, hc.ne']

theorem classify_endT (hp : x.phase = .tableFull) (hc : c.toNat = x.endCode) : classify x c = .endT c := by
  simp [classify, classifyFull, hp, hc]

theorem classify_clrT (hp : x.phase = .tableFull) (hc : c.toNat = x.clear) : classify x c = .clrT c := by
  simp [classify, classifyFull, hp, hc, Ctx.endCode]

theorem classify_litT (hp : x.phase = .tableFull) (hc : c.toNat < x.clear) : classify x c = .litT c := by
  have he : c.toNat ≠ x.endCode := by unfold Ctx.endCode; omega
  simp [classify, classifyFull, hp, he, hc, hc.ne]

theorem classify_refT (hp : x.phase = .tableFull) (he : x.endCode < c.toNat) : classify x c = .refT c := by
  have hl : x.clear < c.toNat := Nat.lt_of_succ_lt he
  simp [classify, classifyFull, hp, he.ne', hl.ne', hl.not_gt]

end

/-! ### The rows are disjoint and complete -/

/-- The rows are disjoint: a code instruction that may stand in a context fits its width and is the one the decoder
selects there. -/
theorem fits_and_eq_classify {x : Ctx} {c : Code} {i : Instr} (h : wellFormed x i = true) (hc : i.code = some c) :
    x.fits c = true ∧ i = classify x c := by
  cases i with
  | clrR _ =>
    cases hc
    obtain ⟨hp, hf, hv⟩ := (wellFormed_clrR x c).mp h
    exact ⟨hf, (classify_clrR hp hv).symm⟩
  | illR _ =>
    cases hc
    obtain ⟨hp, hf, hv⟩ := (wellFormed_illR x c).mp h
    exact ⟨hf, (classify_illR hp hv).symm⟩
  | litF _ =>
    cases hc
    obtain ⟨hp, hf, hv⟩ := (wellFormed_litF x c).mp h
    exact ⟨hf, (classify_litF hp hv).symm⟩
  | endF _ =>
    cases hc
    obtain ⟨hp, hf, hv, he⟩ := (wellFormed_endF x c).mp h
    exact ⟨hf, (classify_endF hp hv he).symm⟩
  | illF _ =>
    cases hc
    obtain ⟨hp, hf, hv | hv | ⟨hv, he⟩⟩ := (wellFormed_illF x c).mp h
    · exact ⟨hf, (classify_illF hp hv.ge (hv.trans_lt x.clear.lt_succ_self).ne).symm⟩
    · exact ⟨hf, (classify_illF hp (Nat.le_of_succ_le hv.le) hv.ne').symm⟩
    · exact ⟨hf, (classify_illF_of_end hp hv he).symm⟩
  | endS _ =>
    cases hc
    obtain ⟨hp, hf, hv⟩ := (wellFormed_endS x c).mp h
    exact ⟨hf, (classify_endS hp hv).symm⟩
  | endT _ =>
    cases hc
    obtain ⟨hp, hf, hv⟩ := (wellFormed_endT x c).mp h
    exact ⟨hf, (classify_endT hp hv).symm⟩
  | clrS _ =>
    cases hc
    obtain ⟨hp, hf, hv⟩ := (wellFormed_clrS x c).mp h
    exact ⟨hf, (classify_clrS hp hv).symm⟩
  | clrT _ =>
    cases hc
    obtain ⟨hp, hf, hv⟩ := (wellFormed_clrT x c).mp h
    exact ⟨hf, (classify_clrT hp hv).symm⟩
  | litS _ =>
    cases hc
    obtain ⟨hp, hf, hv⟩ := (wellFormed_litS x c).mp h
    exact ⟨hf, (classify_litS hp hv).symm⟩
  | refS _ =>
    cases hc
    obtain ⟨hp, hf, he, hv⟩ := (wellFormed_refS x c).mp h
    exact ⟨hf, (classify_refS hp he hv).symm⟩
  | kwkS _ =>
    cases hc
    obtain ⟨hp, hf, he, hv⟩ := (wellFormed_kwkS x c).mp h
    exact ⟨hf, (classify_kwkS hp he hv).symm⟩
  | illS _ =>
    cases hc
    obtain ⟨hp, hf, he, hv⟩ := (wellFormed_illS x c).mp h
    exact ⟨hf, (classify_illS hp he hv).symm⟩
  | litT _ =>
    cases hc
    obtain ⟨hp, hf, hv⟩ := (wellFormed_litT x c).mp h
    exact ⟨hf, (classify_litT hp hv).symm⟩
  | refT _ =>
    cases hc
    obtain ⟨hp, hf, he⟩ := (wellFormed_refT x c).mp h
    exact ⟨hf, (classify_refT hp he).symm⟩
  | _ => cases hc

/-- Whatever the decoder selects carries the whole code. -/
@[simp] theorem code_classify (x : Ctx) (c : Code) : (classify x c).code = some c := by
  cases hp : x.phase <;> simp only [classify, classifyFirst, classifyStreaming, classifyFull, hp] <;>
    (repeat' split) <;> rfl

/-- The rows are complete: what the decoder selects for a code that fits is well formed. -/
theorem wellFormed_classify {x : Ctx} {c : Code} (h : x.fits c = true) :
    wellFormed x (classify x c) = true := by
  cases hp : x.phase with
  | awaitingReset =>
    by_cases hc : c.toNat = x.clear
    · rw [classify_clrR hp hc]
      simp [hp, h, hc]
    · rw [classify_illR hp hc]
      simp [hp, h, hc]
  | awaitingFirst =>
    rcases Nat.lt_or_ge c.toNat x.clear with hc | hc
    · rw [classify_litF hp hc]
      simp [hp, h, hc]
    by_cases he : c.toNat = x.endCode
    · cases ha : x.endAfterClear with
      | accept =>
        rw [classify_endF hp he ha]
        simp [hp, h, he, ha]
      | reject =>
        rw [classify_illF_of_end hp he ha]
        simp [hp, h, he, ha]
    · rw [classify_illF hp hc he]
      have hv : c.toNat = x.clear ∨ x.endCode < c.toNat := by unfold Ctx.endCode at he ⊢; omega
      exact (wellFormed_illF x c).mpr ⟨hp, h, hv.imp_right .inl⟩
  | streaming =>
    rcases lt_trichotomy c.toNat x.clear with hc | hc | hc
    · rw [classify_litS hp hc]
      simp [hp, h, hc]
    · rw [classify_clrS hp hc]
      simp [hp, h, hc]
    rcases Nat.eq_or_lt_of_le (Nat.succ_le_of_lt hc) with he | he
    · rw [classify_endS hp he.symm]
      exact (wellFormed_endS x c).mpr ⟨hp, h, he.symm⟩
    rcases lt_trichotomy c.toNat x.tableLen with hl | hl | hl
    · rw [classify_refS hp he hl]
      exact (wellFormed_refS x c).mpr ⟨hp, h, he, hl⟩
    · rw [classify_kwkS hp he hl]
      exact (wellFormed_kwkS x c).mpr ⟨hp, h, he, hl⟩
    · rw [classify_illS hp he hl]
      exact (wellFormed_illS x c).mpr ⟨hp, h, he, hl⟩
  | tableFull =>
    rcases lt_trichotomy c.toNat x.clear with hc | hc | hc
    · rw [classify_litT hp hc]
      simp [hp, h, hc]
    · rw [classify_clrT hp hc]
      simp [hp, h, hc]
    rcases Nat.eq_or_lt_of_le (Nat.succ_le_of_lt hc) with he | he
    · rw [classify_endT hp he.symm]
      exact (wellFormed_endT x c).mpr ⟨hp, h, he.symm⟩
    · rw [classify_refT hp he]
      exact (wellFormed_refT x c).mpr ⟨hp, h, he⟩

end Sys2Proof.Machine
end

section
/-! The obligations on the code map, the decoder and the encoder (30_encoding.md). -/

namespace Sys2Proof.Machine

/-- Settles O1: the rows are disjoint (`fits_and_eq_classify`) and complete (`wellFormed_classify`). -/
theorem codeMapIsCompleteAndDisjoint : Obligations.CodeMapIsCompleteAndDisjoint := by
  intro x c i
  constructor
  · rintro ⟨hwf, hc⟩
    exact fits_and_eq_classify hwf hc
  · rintro ⟨hfits, rfl⟩
    exact ⟨wellFormed_classify hfits, code_classify x c⟩

/-- What the encoder writes for a code instruction is its value's bytes. -/
theorem encode_of_code {x : Ctx} {i : Instr} {c : Code} (h : i.code = some c) :
    encode x i = .stream (encodeCode x.bitOff x.codeWidth c) := by
  unfold encode
  rw [h]

/-- Of the instructions that are no code, the host command alone is written anywhere. -/
theorem encode_of_no_code {x : Ctx} {i : Instr} (h : i.code = none) :
    (i = .start ∧ encode x i = .hostWrite 0 1) ∨ encode x i = .internal := by
  cases i with
  | start => exact .inl ⟨rfl, rfl⟩
  | clrR _ | illR _ | litF _ | endF _ | illF _ | endS _ | endT _ | clrS _ | clrT _ | litS _ | refS _ | kwkS _ | illS _
  | litT _ | refT _ => cases h
  | _ => exact .inr rfl

/-- Bit `o + j` of the encoded code is bit `j` of the code (30_encoding.md R56). -/
theorem extractCode_encodeCode {o w : Nat} {c : Code} (ho : o < 8) (hc : c.toNat < 2 ^ w) :
    extractCode (assemble (encodeCode o w c)) o w = c := by
  apply BitVec.eq_of_getLsbD_eq
  intro j hj
  rw [getLsbD_extractCode]
  by_cases hjw : j < w
  · have hbyte : (o + j) / 8 < bytesNeeded o w := by unfold bytesNeeded; omega
    rw [getLsbD_assemble _ _ (by omega), encodeCode, getD_bytesOf _ _ _ hbyte, BitVec.getLsbD_ofNat,
      Nat.testBit_shiftRight, Nat.div_add_mod, Nat.testBit_shiftLeft, Nat.add_sub_cancel_left, BitVec.testBit_toNat]
    simp [hj, hjw, Nat.mod_lt]
  · have hbit : c.toNat.testBit j = false :=
      Nat.testBit_lt_two_pow (hc.trans_le (Nat.pow_le_pow_right (by decide) (Nat.not_lt.mp hjw)))
    simp [hjw, ← BitVec.testBit_toNat, hbit]

/-- The decoder reads an encoded code back, whatever follows it. -/
theorem decode_encodeCode {x : Ctx} {c : Code} (rest : List Byte) (hfits : x.fits c = true) (ho : x.bitOff < 8) :
    decode x (encodeCode x.bitOff x.codeWidth c ++ rest) =
      .instr (classify x c) ((x.bitOff + x.codeWidth) / 8) ((x.bitOff + x.codeWidth) % 8) := by
  have hlen : (encodeCode x.bitOff x.codeWidth c).length = bytesNeeded x.bitOff x.codeWidth := length_bytesOf _ _
  have hc : c.toNat < 2 ^ x.codeWidth := by simpa [Ctx.fits, Nat.one_shiftLeft] using hfits
  have htake : (encodeCode x.bitOff x.codeWidth c ++ rest).take (bytesNeeded x.bitOff x.codeWidth) =
      encodeCode x.bitOff x.codeWidth c := List.take_left' hlen
  rw [decode, if_neg (by rw [List.length_append, hlen]; omega), htake, extractCode_encodeCode ho hc]

/-- Settles O2: a code is read back bit by bit (`decode_encodeCode`) and classified as the instruction it came from, its
row being the only one that applies. -/
theorem decodeOfEncodeIsTheInstruction : Obligations.DecodeOfEncodeIsTheInstruction := by
  intro x i hwf ho _
  cases hc : i.code with
  | some c =>
    obtain ⟨hfits, hi⟩ := fits_and_eq_classify hwf hc
    rw [encode_of_code hc]
    refine ⟨fun bs rest hbs => ?_, nofun⟩
    cases hbs
    rw [decode_encodeCode rest hfits ho, ← hi]
  | none =>
    rcases encode_of_no_code (x := x) hc with ⟨rfl, he⟩ | he
    · rw [he]
      refine ⟨nofun, fun n v hv => ?_⟩
      cases hv
      decide
    · rw [he]
      exact ⟨nofun, nofun⟩

/-- Settles O3: the words are closed, so the decoder is run on each. -/
theorem writtenWordsDecode : Obligations.WrittenWordsDecode := by
  unfold Obligations.WrittenWordsDecode
  decide

end Sys2Proof.Machine
end

section
/-! The obligations on `Fetch` (41_bit_unpacker.md R74, R77) and on the code step it begins (45_host_operations.md
R113). -/

namespace Sys2Proof.Machine

/-! ### The code a fetch returns -/

/-- Bit `j` of the fetched code is bit `bitOff + j` of `IN` from the cursor's byte on (41_bit_unpacker.md R74). -/
theorem getLsbD_fetched_codeReg {s : State} {j : Nat} (ho : s.bitOff < 8) (hw : s.codeWidth ≤ 12)
    (hj : j < s.codeWidth) :
    (fetched s).codeReg.getLsbD j =
      (s.inByte (s.byteIdx + (s.bitOff + j) / 8)).getLsbD ((s.bitOff + j) % 8) := by
  have hbyte : (s.bitOff + j) / 8 < s.fetchBytes := by unfold State.fetchBytes bytesNeeded; omega
  rw [fetched_codeReg, getLsbD_extractCode, getLsbD_assemble _ _ (by omega), getD_bytesAt s _ _ hbyte]
  simp [hj, hj.trans_le hw]

/-- No bit of the fetched code is set at or above the width. -/
theorem getLsbD_fetched_codeReg_of_ge {s : State} {j : Nat} (hj : s.codeWidth ≤ j) :
    (fetched s).codeReg.getLsbD j = false := by
  simp [getLsbD_extractCode, Nat.not_lt.mpr hj]

/-- Fewer bits remain than the code needs, or they do not. -/
theorem truncated_eq_false_iff (s : State) : s.truncated = false ↔ s.bitPos + s.codeWidth ≤ 8 * s.inLen := by
  rw [← Bool.not_eq_true, truncated_iff, Nat.not_lt]

/-- Settles O4: the fetch completes with `fetched s`, whose code is read bit by bit above. -/
theorem fetchReadsTheCodeLowBitFirst : Obligations.FetchReadsTheCodeLowBitFirst := by
  intro s ho hw hbits
  refine ⟨fetched s, exec_fetch_of_not_truncated ((truncated_eq_false_iff s).mpr hbits),
    fun j hj => getLsbD_fetched_codeReg ho hw hj, fun j hj => getLsbD_fetched_codeReg_of_ge hj, fetched_bitPos s,
    Nat.mod_lt _ (by decide), ⟨rfl, rfl, rfl, rfl, rfl, rfl, rfl⟩, fun _ => rfl, ⟨rfl, rfl⟩, ⟨rfl, rfl, rfl⟩,
    sameTable_of_eq rfl, sameOut_of_eq rfl, ⟨rfl, rfl⟩, rfl, rfl, rfl⟩

/-- Two machines whose inputs agree from the cursor on have the same bytes there. -/
theorem bytesAt_congr {s t : State} {n : Nat} (hi : t.byteIdx = s.byteIdx)
    (h : ∀ a, s.byteIdx ≤ a → a < s.byteIdx + n → t.inByte a = s.inByte a) : t.bytesAt n = s.bytesAt n := by
  refine List.map_congr_left fun k hk => ?_
  rw [hi]
  exact h _ (Nat.le_add_right _ _) (Nat.add_lt_add_left (List.mem_range.mp hk) _)

/-- Settles O6: the accumulator is the assembly of the code's own bytes (`bytesAt_congr`), and the code and the new
cursor are functions of it, the old cursor and the width. -/
theorem fetchDependsOnTheCodesBytesOnly : Obligations.FetchDependsOnTheCodesBytesOnly := by
  intro s t hi ho hw hl hbytes hbits
  have hpos : t.bitPos = s.bitPos := by rw [State.bitPos, State.bitPos, hi, ho]
  have hn : t.fetchBytes = s.fetchBytes := by rw [State.fetchBytes, State.fetchBytes, ho, hw]
  have hacc : t.bytesAt t.fetchBytes = s.bytesAt s.fetchBytes := by rw [hn]; exact bytesAt_congr hi hbytes
  have hbits' : t.bitPos + t.codeWidth ≤ 8 * t.inLen := by rw [hpos, hw, hl]; exact hbits
  refine ⟨fetched s, fetched t, exec_fetch_of_not_truncated ((truncated_eq_false_iff s).mpr hbits),
    exec_fetch_of_not_truncated ((truncated_eq_false_iff t).mpr hbits'), ?_, ?_, ?_, ?_⟩
  · rw [fetched_codeReg, fetched_codeReg, hacc, ho, hw]
  · rw [fetched_acc, fetched_acc, hacc]
  · rw [fetched_byteIdx, fetched_byteIdx, hi, ho, hw]
  · rw [fetched_bitOff, fetched_bitOff, ho, hw]

/-! ### The code step -/

/-- The code map reads neither the cursor nor the width, so a fetch leaves it as it was. -/
theorem classify_fetched_ctx (s : State) (c : Code) : classify (fetched s).ctx c = classify s.ctx c := rfl

/-- The decoder on the rest of the input is short of bytes exactly where the fetch is truncated. -/
theorem restOfInput_short_iff {s : State} (hw : 3 ≤ s.codeWidth) :
    s.restOfInput.length < s.fetchBytes ↔ s.truncated = true := by
  have hn : 1 ≤ s.fetchBytes := by unfold State.fetchBytes bytesNeeded; omega
  rw [State.restOfInput, length_bytesAt, State.truncated, decide_eq_true_iff]
  omega

/-- The bytes the decoder takes are the ones the fetch reads. -/
theorem take_restOfInput {s : State} (hw : 3 ≤ s.codeWidth) (h : s.truncated = false) :
    s.restOfInput.take s.fetchBytes = s.bytesAt s.fetchBytes := by
  have hlen := (not_congr (restOfInput_short_iff hw)).mpr (by simp [h])
  rw [State.restOfInput, length_bytesAt] at hlen
  exact take_bytesAt s _ _ (Nat.not_lt.mp hlen)

theorem decode_of_truncated {s : State} (hw : 3 ≤ s.codeWidth) (h : s.truncated = true) :
    decode s.ctx s.restOfInput = .rejected .truncatedStream :=
  if_pos ((restOfInput_short_iff hw).mpr h)

theorem decode_of_not_truncated {s : State} (hw : 3 ≤ s.codeWidth) (h : s.truncated = false) :
    decode s.ctx s.restOfInput =
      .instr (classify s.ctx (fetched s).codeReg) ((s.bitOff + s.codeWidth) / 8) ((s.bitOff + s.codeWidth) % 8) := by
  rw [fetched_codeReg, ← take_restOfInput hw h]
  exact if_neg ((not_congr (restOfInput_short_iff hw)).mpr (by simp [h]))

/-- Where the bytes at the cursor decode to an instruction, the code step executes it after the fetch. -/
theorem codeStep_of_decoded {s : State} (hw : 3 ≤ s.codeWidth) {i : Instr} {adv off : Nat}
    (h : decode s.ctx s.restOfInput = .instr i adv off) :
    ∃ c, i.code = some c ∧ codeStep s =
      exec i { s with
        acc := assemble (s.restOfInput.take s.fetchBytes), codeReg := c
        byteIdx := s.byteIdx + adv, bitOff := off } := by
  rcases codeStep_cases s with ⟨ht, -⟩ | ⟨hf, hstep⟩
  · rw [decode_of_truncated hw ht] at h
    cases h
  · rw [decode_of_not_truncated hw hf] at h
    cases h
    refine ⟨_, code_classify _ _, ?_⟩
    rw [hstep, take_restOfInput hw hf, classify_fetched_ctx]
    rfl

/-- Where the decoder rejects the bytes at the cursor, the code step takes that error. -/
theorem codeStep_of_rejected {s : State} (hw : 3 ≤ s.codeWidth) {e : DecodeError}
    (h : decode s.ctx s.restOfInput = .rejected e) : codeStep s = .next (raiseError e s) := by
  rcases codeStep_cases s with ⟨ht, hstep⟩ | ⟨hf, -⟩
  · rw [decode_of_truncated hw ht] at h
    cases h
    exact hstep
  · rw [decode_of_not_truncated hw hf] at h
    cases h

/-- A listed turn of the core, while a decode runs, is a code step of the rest. -/
theorem step_of_busy_listed {s : State} {rest : List Turn} (ha : s.agenda = .core :: rest) (hb : s.run = .busy) :
    step s = codeStep { s with agenda := rest } := by
  rw [step_of_core_listed ha]
  exact if_pos hb

/-- Settles O39: in both forms the core's turn is a code step, and the decoder does not see the agenda. -/
theorem stepRunsTheDecodedInstruction : Obligations.StepRunsTheDecodedInstruction := by
  intro s s0 rest hb hw hturn
  rcases hturn with ⟨ha, rfl⟩ | ⟨ha, rfl⟩
  · rw [step_of_busy ha hb]
    exact ⟨fun i adv off h => codeStep_of_decoded hw h,
      fun e h => ⟨_, codeStep_of_rejected hw h, endedInError_raiseError e _⟩⟩
  · rw [step_of_busy_listed ha hb]
    exact ⟨fun i adv off h => codeStep_of_decoded (s := { s with agenda := rest }) hw h,
      fun e h => ⟨_, codeStep_of_rejected (s := { s with agenda := rest }) hw h, endedInError_raiseError e _⟩⟩

end Sys2Proof.Machine
end

section
/-! The obligations on the codes of the stream (42_code_lookup.md), on `Grow` (43_dictionary_grow.md R97) and on `Emit`
(44_output_bufferer.md R105). -/

namespace Sys2Proof.Machine

/-! ### The codes that end a decode -/

/-- `HR[1]` after an error (60_exceptions.md R120, R121). -/
theorem statusWord_raiseError (e : DecodeError) (s : State) :
    statusWord (raiseError e s) = 3 ||| ((errBits (some e)).setWidth 32 <<< 4) := rfl

/-- `HR[1]` after a successful end (44_output_bufferer.md R107). -/
theorem statusWord_finishDecode (s : State) : statusWord (finishDecode s) = 2 := by
  rw [statusWord, finishDecode_run, finishDecode_err]
  decide

/-- Settles O8: each of the three is `raiseError` with its own error, whose number is evaluated. -/
theorem illegalCodesEndTheDecode : Obligations.IllegalCodesEndTheDecode := by
  intro c s
  refine ⟨⟨_, rfl, endedInError_raiseError _ s, ?_⟩, ⟨_, rfl, endedInError_raiseError _ s, ?_⟩,
    ⟨_, rfl, endedInError_raiseError _ s, ?_⟩⟩
  all_goals
    rw [statusWord_raiseError]
    decide

/-- Settles O10: each of the three is `finishDecode`. -/
theorem endCodesEndTheDecodeWell : Obligations.EndCodesEndTheDecodeWell := by
  intro c s
  have h := And.intro (endedWell_finishDecode s) (statusWord_finishDecode s)
  exact ⟨⟨_, rfl, h⟩, ⟨_, rfl, h⟩, ⟨_, rfl, h⟩⟩

/-! ### The clear in mid-stream -/

theorem sameSurroundings_clearDict (s : State) : SameSurroundings s (clearDict s) := by
  simp [SameSurroundings, SameHost, SameInput, SameLatch, SameStatus, SameCursor]

@[simp] theorem clearDict_slot (s : State) (k : Nat) : (clearDict s).slot k = s.slot k := rfl

/-- Settles O11: both codes are `clearDict`, which is `ResetDict` with the phase and the previous code beside it. -/
theorem midStreamClearRestartsTheDictionary : Obligations.MidStreamClearRestartsTheDictionary := by
  intro c s i hi
  have hexec : exec i s = .next (clearDict s) := by rcases hi with rfl | rfl <;> rfl
  exact ⟨clearDict s, hexec, resetDict_len s, resetDict_sameAttributes s, clearDict_slot s,
    fun d hd => lookup_of_len_le ((resetDict_len s).trans_le hd), rfl, rfl, rfl, sameOut_of_eq rfl, ⟨rfl, rfl⟩,
    sameSurroundings_clearDict s⟩

/-! ### The codes that emit and add no entry -/

/-- Everything a data code that adds no entry leaves, in the terms of the statements. -/
theorem afterEmit_does (c : Code) (e : Entry) (s : State) :
    Emitted e s (afterEmit c e s) ∧ Remembered c e s (afterEmit c e s) ∧ InScratch e s (afterEmit c e s) ∧
      SameTable s (afterEmit c e s) ∧ SameSurroundings s (afterEmit c e s) := by
  unfold afterEmit
  refine ⟨emitted_putOut e s, remembered_remember c e s, inScratch_holdSeq e s, sameTable_of_eq rfl, ?_⟩
  simp [SameSurroundings, SameHost, SameInput, SameLatch, SameStatus, SameCursor]

/-- Settles O9: what `LIT.F` leaves is `afterEmit` with the phase set, which none of the frames reads. -/
theorem firstLiteralEmitsWithoutGrowing : Obligations.FirstLiteralEmitsWithoutGrowing := by
  intro c s hroom
  obtain ⟨hemit, hrem, hscr, htab, hsur⟩ := afterEmit_does c [literalSymbol c] s
  exact ⟨_, execLitF_fits hroom, hemit, hrem, hscr, rfl, rfl, htab, hsur⟩

/-- Settles O15: both codes of the full table are `afterEmit` of the resolved sequence. -/
theorem fullTableCodesEmitWithoutGrowing : Obligations.FullTableCodesEmitWithoutGrowing := by
  intro c s
  constructor
  · intro hroom
    obtain ⟨hemit, hrem, hscr, htab, hsur⟩ := afterEmit_does c [literalSymbol c] s
    exact ⟨_, execLitT_fits hroom, hemit, hrem, hscr, rfl, rfl, htab, hsur⟩
  · intro y ys hlen hslot hroom
    obtain ⟨hemit, hrem, hscr, htab, hsur⟩ := afterEmit_does c (y :: ys) s
    exact ⟨_, execRefT_fits (lookup_of_slot hlen hslot) hroom, hemit, hrem, hscr, rfl, rfl, htab, hsur⟩

/-! ### The codes that emit and grow -/

/-- Settles O12: what `LIT.S` leaves is `afterGrow` of the literal. -/
theorem streamingLiteralEmitsAndGrows : Obligations.StreamingLiteralEmitsAndGrows := by
  intro c p x xs s hphase hfree hprev hplen hpslot hroom
  exact ⟨_, execLitS_fits hphase hfree hprev (lookup_of_slot hplen hpslot) hroom, afterGrow_does c _ _ s⟩

/-- Settles O13: what `REF.S` leaves is `afterGrow` of the entry the code names. -/
theorem streamingReferenceEmitsAndGrows : Obligations.StreamingReferenceEmitsAndGrows := by
  intro c p x y xs ys s hphase hfree hprev hplen hpslot hclen hcslot hroom
  exact ⟨_, execRefS_fits hphase hfree hprev (lookup_of_slot hplen hpslot) (lookup_of_slot hclen hcslot) hroom,
    afterGrow_does c _ _ s⟩

/-- Settles O14: what `KWK.S` leaves is `afterGrow` of the entry it forms. A code has 12 bits, so the table it names the
end of is not full. -/
theorem selfReferenceEmitsAndStoresTheSameSequence : Obligations.SelfReferenceEmitsAndStoresTheSameSequence := by
  intro c p x xs s hphase hc hprev hplen hpslot hroom
  have hfree : s.table.len < 4096 := hc ▸ c.isLt
  obtain ⟨hemit, hgrown, hwidth, hrem, hscr, hsur⟩ := afterGrow_does c (x :: xs ++ [x]) (x :: xs ++ [x]) s
  obtain ⟨-, -, hnew, -⟩ := id hgrown
  exact ⟨_, execKwkS_fits hphase hfree hprev (lookup_of_slot hplen hpslot) hroom, hemit, hgrown,
    hc ▸ hnew, hwidth, hrem, hscr, hsur⟩

/-- Settles O16: `Emit` tests the whole resolved sequence before anything is written, so each code is `raiseError`. -/
theorem emittingCodesRaiseWhereTheOutputIsFull : Obligations.EmittingCodesRaiseWhereTheOutputIsFull := by
  intro c s
  refine ⟨fun hfull i hi => ?_, fun y ys hlen hslot hfull i hi => ?_, fun p x xs hprev hlen hslot hfull => ?_⟩
  · have hexec : exec i s = .next (raiseError .allocationError s) := by
      rcases hi with rfl | rfl | rfl
      · exact execLitF_overflow hfull
      · exact execLitS_overflow hfull
      · exact execLitT_overflow hfull
    exact ⟨_, hexec, endedInError_raiseError _ s⟩
  · have hexec : exec i s = .next (raiseError .allocationError s) := by
      rcases hi with rfl | rfl
      · exact execRefS_overflow (lookup_of_slot hlen hslot) hfull
      · exact execRefT_overflow (lookup_of_slot hlen hslot) hfull
    exact ⟨_, hexec, endedInError_raiseError _ s⟩
  · exact ⟨_, execKwkS_overflow hprev (lookup_of_slot hlen hslot) hfull, endedInError_raiseError _ s⟩

/-! ### `Grow` and `Emit` as operations of their own -/

theorem sameSurroundings_widthStep_appendEntry (e : Entry) (s : State) :
    SameSurroundings s (widthStep (appendEntry e s)) := by
  simp [SameSurroundings, SameHost, SameInput, SameLatch, SameStatus, SameCursor]

/-- The width rule moves no slot: the entry added stays where it was put. -/
theorem grown_widthStep_appendEntry (e : Entry) (s : State) : Grown e s (widthStep (appendEntry e s)) := by
  simpa [Grown] using grown_appendEntry e s

/-- Settles O17: `Grow` adds the entry and applies the width rule, or stops at the first of its two tests. -/
theorem growAddsOneEntry : Obligations.GrowAddsOneEntry := by
  intro e s
  refine ⟨fun hphase hfree => ⟨_, growThen_grows hphase hfree, grown_widthStep_appendEntry e s,
    widthStepped_widthStep e s, ?_, ?_, ?_, sameSurroundings_widthStep_appendEntry e s⟩,
    growThen_outside, growThen_full⟩
  · rw [widthStep_prevCode, appendEntry_prevCode]
  · exact sameOut_of_eq (widthStep_out _)
  · exact ⟨widthStep_curSeq _, widthStep_prevSeq _⟩

theorem sameSurroundings_putOut (xs : List Symbol) (s : State) : SameSurroundings s (putOut xs s) := by
  simp [SameSurroundings, SameHost, SameInput, SameLatch, SameStatus, SameCursor]

/-- Settles O21: `Emit` is `putOut` where the sequence fits and `raiseError` where it does not. -/
theorem emitAppendsTheSequenceOrRaises : Obligations.EmitAppendsTheSequenceOrRaises := by
  intro xs s
  refine ⟨fun hroom => ⟨_, emitThen_fits hroom, emitted_putOut xs s, outSeq_putOut xs s, rfl, rfl, rfl,
    sameTable_of_eq rfl, ⟨rfl, rfl⟩, sameSurroundings_putOut xs s⟩, fun hfull => ?_⟩
  exact ⟨_, emitThen_overflow hfull, endedInError_raiseError _ s⟩

end Sys2Proof.Machine
end

section
/-! What a creation, an append and a copy do to a buffer, and what they are to the state (40_buffer_ops.md R66 to
R68). -/

namespace Sys2Proof.Machine

/-! ### The buffer -/

/-- A ceiling grants what does not exceed it (40_buffer_ops.md R71). -/
theorem allocOk_iff {ceiling : Option Nat} {n : Nat} : allocOk ceiling n = true ↔ ∀ c, ceiling = some c → n ≤ c := by
  cases ceiling <;> simp [allocOk]

/-- The capacity a creation asks for (40_buffer_ops.md R66). -/
def createCap (p : Params) (n : Nat) (fx : Bool) : Nat := if fx then n else max n p.minFloor

/-- The buffer a granted creation makes: empty, its storage zeroed and its own (40_buffer_ops.md R66). -/
def Buffer.zeroed {α : Type} (z cap : Nat) (fx : Bool) : Buffer α where
  elemSize := z
  len := 0
  cap := cap
  owned := true
  isFixed := fx
  data := []

section
variable {α : Type} {p : Params} {limit : Option Nat} {b : Buffer α}

theorem Buffer.create_of_granted {z n : Nat} {fx : Bool} (h : ∀ c, limit = some c → createCap p n fx ≤ c) :
    b.create p limit z n fx = .done (Buffer.zeroed z (createCap p n fx) fx) :=
  if_pos (allocOk_iff.mpr h)

theorem Buffer.create_of_denied {z n c : Nat} {fx : Bool} (h : c < createCap p n fx) :
    b.create p (some c) z n fx = .failed b.degrade :=
  if_neg (by rw [allocOk_iff]; exact fun hc => (hc c rfl).not_gt h)

variable [DecidableEq α] {z : α} {xs : List α}

/-- What an append of `xs` leaves: `xs` behind the valid elements, the capacity grown only where it must be, the other
attributes and the storage outside `xs` as before (40_buffer_ops.md R67). -/
def Buffer.Appended (z : α) (p : Params) (xs : List α) (b v : Buffer α) : Prop :=
  v.seq z = b.seq z ++ xs ∧ v.len = b.len + xs.length ∧ (b.len + xs.length ≤ b.cap → v.cap = b.cap) ∧
    (b.cap < b.len + xs.length → v.cap = growCap p b.cap b.len xs.length) ∧ v.elemSize = b.elemSize ∧
    v.owned = b.owned ∧ v.isFixed = b.isFixed ∧
    ∀ k, k < b.len ∨ b.len + xs.length ≤ k → Memory.read z v.data k = Memory.read z b.data k

/-- An append with room appends. -/
theorem Buffer.append_of_room (h : HasRoom p limit b xs.length) :
    ∃ v, b.append z p limit xs = .done v ∧ b.Appended z p xs v := by
  rcases Nat.lt_or_ge b.cap (b.len + xs.length) with hgrow | hfits
  · obtain ⟨hfixed, hgrant⟩ : b.isFixed = false ∧ ∀ c, limit = some c → growCap p b.cap b.len xs.length ≤ c :=
      h.resolve_left hgrow.not_ge
    refine ⟨Buffer.put z { b with cap := growCap p b.cap b.len xs.length } xs, ?_, ?_⟩
    · rw [Buffer.append, if_pos hgrow, hfixed, if_neg (by decide), if_pos (allocOk_iff.mpr hgrant)]
    · exact ⟨Buffer.seq_put z _ xs, rfl, fun hle => absurd hle hgrow.not_ge, fun _ => rfl, rfl, rfl, rfl,
        fun k hk => Buffer.read_put_outside z _ xs k hk⟩
  · refine ⟨b.put z xs, if_neg hfits.not_gt, Buffer.seq_put z b xs, rfl, fun _ => rfl,
      fun hlt => absurd hlt hfits.not_gt, rfl, rfl, rfl, fun k hk => Buffer.read_put_outside z b xs k hk⟩

/-- An append without room fails. -/
theorem Buffer.append_of_no_room (h : ¬ HasRoom p limit b xs.length) :
    b.append z p limit xs = .failed b.degrade := by
  obtain ⟨hgrow, hdenied⟩ := not_or.mp h
  rw [Buffer.append, if_pos (Nat.not_le.mp hgrow)]
  by_cases hfixed : b.isFixed = true
  · rw [if_pos hfixed]
  · have hdenied : ¬ ∀ c, limit = some c → growCap p b.cap b.len xs.length ≤ c :=
      fun hgrant => hdenied ⟨by simpa using hfixed, hgrant⟩
    rw [if_neg hfixed, if_neg (mt allocOk_iff.mp hdenied)]

/-- An append of nothing to a buffer within its capacity changes nothing. -/
theorem Buffer.append_nil (h : b.len ≤ b.cap) : b.append z p limit [] = .done b :=
  if_neg h.not_gt

/-- An append to a buffer within its capacity leaves it so: a growth adds at least the longer of the two runs
(40_buffer_ops.md R73). -/
theorem Buffer.append_len_le_cap {v : Buffer α} (hb : b.len ≤ b.cap) (h : b.append z p limit xs = .done v) :
    v.len ≤ v.cap := by
  rcases Buffer.append_done z h with ⟨hfits, rfl⟩ | ⟨-, -, -, rfl⟩
  · exact hfits
  · simp only [Buffer.put_len, Buffer.put_cap, growCap]
    omega

/-- A copy of nothing changes nothing (40_buffer_ops.md R68). -/
theorem Buffer.copyFrom_nil : b.copyFrom z p limit [] = .done b := if_pos rfl

/-- Any other copy is an append to the cleared destination. -/
theorem Buffer.copyFrom_of_ne_nil (h : xs ≠ []) : b.copyFrom z p limit xs = b.clear.append z p limit xs := if_neg h

theorem Buffer.copyFrom_len_le_cap {v : Buffer α} (hb : b.len ≤ b.cap) (h : b.copyFrom z p limit xs = .done v) :
    v.len ≤ v.cap := by
  by_cases hxs : xs = []
  · rw [hxs, Buffer.copyFrom_nil] at h
    cases h
    exact hb
  · rw [Buffer.copyFrom_of_ne_nil hxs] at h
    exact Buffer.append_len_le_cap (Nat.zero_le _) h

end

/-! ### The state -/

/-- The ceiling of a symbol buffer as the statements write it. -/
theorem symCeiling_eq (p : Params) (d : SymBuf) : symCeiling p d = if d = .out then some p.outCap else none := by
  cases d <;> rfl

/-- If something comes of putting a symbol buffer back, it is the buffer's new value or an `AllocationError`. -/
theorem storeSym_next {d : SymBuf} {r : BufResult Symbol} {s t : State} (h : storeSym d r s = .next t) :
    (∃ v, r = .done v ∧ t = s.setSymBuf d v) ∨ ∃ v, t = raiseError .allocationError (s.setSymBuf d v) := by
  cases r with
  | done v =>
    cases h
    exact .inl ⟨v, rfl, rfl⟩
  | failed v =>
    cases h
    exact .inr ⟨v, rfl⟩

theorem storeTable_next {r : BufResult Entry} {s t : State} (h : storeTable r s = .next t) :
    (∃ v, r = .done v ∧ t = { s with table := v }) ∨
      ∃ v, t = raiseError .allocationError { s with table := v } := by
  cases r with
  | done v =>
    cases h
    exact .inl ⟨v, rfl, rfl⟩
  | failed v =>
    cases h
    exact .inr ⟨v, rfl⟩

/-- An error taken after a failed operation on the table leaves what any error leaves. -/
theorem endedInError_setTable (e : DecodeError) (s : State) (v : Buffer Entry) :
    EndedInError e s (raiseError e { s with table := v }) :=
  endedInError_raiseError e { s with table := v }

theorem endedInError_setSymBuf (e : DecodeError) (s : State) (d : SymBuf) (v : Buffer Symbol) :
    EndedInError e s (raiseError e (s.setSymBuf d v)) := by
  have h := endedInError_raiseError e (s.setSymBuf d v)
  cases d <;> exact h

/-- An error releases every buffer. -/
theorem symBuf_raiseError (e : DecodeError) (s : State) (d : SymBuf) :
    (raiseError e s).symBuf d = (s.symBuf d).release := by
  cases d <;> rfl

/-! ### The instructions -/

section
variable {s : State} {d : SymBuf}

theorem exec_bufCreate_table {z n : Nat} {fx : Bool} (hz : 1 ≤ z) :
    exec (.bufCreate .table z n fx) s = storeTable (s.table.create s.params none z n fx) s :=
  if_neg (Nat.one_le_iff_ne_zero.mp hz)

theorem exec_bufCreate_sym {z n : Nat} {fx : Bool} (hz : 1 ≤ z) :
    exec (.bufCreate (.sym d) z n fx) s =
      storeSym d ((s.symBuf d).create s.params (symCeiling s.params d) z n fx) s :=
  if_neg (Nat.one_le_iff_ne_zero.mp hz)

theorem exec_bufAppend_table (es : List Entry) :
    exec (.bufAppend .table (.entries es)) s = storeTable (s.table.append blankEntry s.params none es) s := rfl

theorem exec_bufAppend_sym {xs : List Symbol} (h : xs = [] ∨ (s.symBuf d).elemSize = 2) :
    exec (.bufAppend (.sym d) (.symbols xs)) s =
      storeSym d ((s.symBuf d).append blankSymbol s.params (symCeiling s.params d) xs) s :=
  if_pos h

theorem exec_bufAppend_sym_mismatch {xs : List Symbol} (hxs : xs ≠ []) (h : (s.symBuf d).elemSize ≠ 2) :
    exec (.bufAppend (.sym d) (.symbols xs)) s = .refused .elementSizeMismatch :=
  if_neg (not_or.mpr ⟨hxs, h⟩)

/-- An empty source is one of either kind (log entry 25). -/
theorem exec_bufAppend_table_nil :
    exec (.bufAppend .table (.symbols [])) s = exec (.bufAppend .table (.entries [])) s := rfl

theorem exec_bufAppend_sym_nil :
    exec (.bufAppend (.sym d) (.entries [])) s = exec (.bufAppend (.sym d) (.symbols [])) s := rfl

theorem exec_bufAppend_table_symbols {xs : List Symbol} (h : xs ≠ []) :
    exec (.bufAppend .table (.symbols xs)) s = .refused .elementSizeMismatch :=
  if_neg h

theorem exec_bufAppend_sym_entries {es : List Entry} (h : es ≠ []) :
    exec (.bufAppend (.sym d) (.entries es)) s = .refused .elementSizeMismatch :=
  if_neg h

theorem exec_bufCopyFrom_sym {b : SymBuf} (h : d ≠ b) :
    exec (.bufCopyFrom (.sym d) (.buf (.sym b))) s =
      copySymbols d (s.symBuf b).elemSize ((s.symBuf b).seq blankSymbol) s :=
  if_neg h

theorem exec_bufCopyFrom_entry {i : Code} (h : s.HasEntry i.toNat) :
    exec (.bufCopyFrom (.sym d) (.entry i)) s = copySymbols d 2 (s.slot i.toNat) s :=
  entryThen_valid (k := fun e => copySymbols d 2 e s) h

theorem exec_bufCopyFrom_no_entry {i : Code} (h : ¬ s.HasEntry i.toNat) :
    exec (.bufCopyFrom (.sym d) (.entry i)) s = .fault .slotHasNoValue :=
  entryThen_none (k := fun e => copySymbols d 2 e s) h

theorem copySymbols_of_size {n : Nat} {q : List Symbol} (h : (s.symBuf d).elemSize = n) :
    copySymbols d n q s =
      storeSym d ((s.symBuf d).copyFrom blankSymbol s.params (symCeiling s.params d) q) s :=
  if_pos h

theorem copySymbols_mismatch {n : Nat} {q : List Symbol} (h : (s.symBuf d).elemSize ≠ n) :
    copySymbols d n q s = .refused .elementSizeMismatch :=
  if_neg h

/-- A copy of nothing leaves the state as it is. -/
theorem copySymbols_nil {n : Nat} (h : (s.symBuf d).elemSize = n) : copySymbols d n [] s = .next s := by
  rw [copySymbols_of_size h, Buffer.copyFrom_nil, storeSym, setSymBuf_symBuf_same]

/-- The room of a copy is that of an append to the cleared destination. -/
theorem hasRoomToCopy_iff {n : Nat} :
    HasRoomToCopy s d n ↔ HasRoom s.params (symCeiling s.params d) (s.symBuf d).clear n := by
  rw [symCeiling_eq]
  rfl

/-- A copy with room replaces the contents of its destination. -/
theorem copySymbols_of_room {n : Nat} {q : List Symbol} (h : (s.symBuf d).elemSize = n) (hq : q ≠ [])
    (hroom : HasRoomToCopy s d q.length) : ∃ t, copySymbols d n q s = .next t ∧ CopiedTo d q s t := by
  obtain ⟨v, hv, hseq, hlen, hfits, hgrows, hsize, howned, hfixed, hdata⟩ :=
    Buffer.append_of_room (z := blankSymbol) (hasRoomToCopy_iff.mp hroom)
  refine ⟨s.setSymBuf d v, ?_, onlySymBuf_setSymBuf s d v, ?_⟩
  · rw [copySymbols_of_size h, Buffer.copyFrom_of_ne_nil hq, hv, storeSym]
  · rw [symBuf_setSymBuf_same]
    simp only [Buffer.clear_len, Buffer.clear_cap, Nat.zero_add, growCap, Nat.max_zero] at hlen hfits hgrows hdata
    exact ⟨hseq, hlen, hfits, hgrows, hsize, howned, hfixed, fun k hk => hdata k (.inr hk)⟩

/-- A copy without room takes the error. -/
theorem copySymbols_of_no_room {n : Nat} {q : List Symbol} (h : (s.symBuf d).elemSize = n) (hq : q ≠ [])
    (hroom : ¬ HasRoomToCopy s d q.length) :
    ∃ t, copySymbols d n q s = .next t ∧ EndedInError .allocationError s t := by
  refine ⟨_, ?_, endedInError_setSymBuf .allocationError s d (s.symBuf d).clear.degrade⟩
  rw [copySymbols_of_size h, Buffer.copyFrom_of_ne_nil hq,
    Buffer.append_of_no_room (mt hasRoomToCopy_iff.mpr hroom), storeSym]

end

end Sys2Proof.Machine
end

section
/-! The obligations on `BUF.CREATE`, `BUF.APPEND` and `BUF.COPYFROM` (40_buffer_ops.md R66 to R68, R73). -/

namespace Sys2Proof.Machine

/-- Settles O24: a granted creation stores the new buffer under its name, a denied one takes the error. -/
theorem createMakesAnEmptyZeroedBuffer : Obligations.CreateMakesAnEmptyZeroedBuffer := by
  intro z n fx s cap0
  refine ⟨fun hz => ?_, fun d hz hgrant => ?_, fun hz hdenied => ?_, fun b => rfl⟩
  · refine ⟨_, ?_, onlyTable_setTable s (Buffer.zeroed z (createCap s.params n fx) fx), rfl, rfl, rfl, rfl, rfl,
      fun k => rfl⟩
    rw [exec_bufCreate_table hz, Buffer.create_of_granted (limit := none) nofun, storeTable]
  · have hgrant : ∀ c, symCeiling s.params d = some c → createCap s.params n fx ≤ c := by
      rw [symCeiling_eq]
      intro c hc
      split at hc
      · next hd =>
        cases hc
        exact hgrant hd
      · cases hc
    refine ⟨_, ?_, onlySymBuf_setSymBuf s d (Buffer.zeroed z (createCap s.params n fx) fx), ?_⟩
    · rw [exec_bufCreate_sym hz, Buffer.create_of_granted hgrant, storeSym]
    · rw [symBuf_setSymBuf_same]
      exact ⟨rfl, rfl, rfl, rfl, rfl, fun k => rfl⟩
  · refine ⟨_, ?_, endedInError_setSymBuf .allocationError s .out s.out.degrade⟩
    rw [exec_bufCreate_sym hz]
    exact congrArg (storeSym .out · s) (Buffer.create_of_denied hdenied)

/-- Settles O25: the buffer an append with room is done with (`Buffer.append_of_room`) is stored under its name; of an
empty source it is the same buffer. -/
theorem appendWithRoomAppends : Obligations.AppendWithRoomAppends := by
  intro s
  refine ⟨fun es hroom => ?_, fun d xs hsize hroom => ?_, fun hcap e he => ?_, fun d hcap e he => ?_⟩
  · obtain ⟨v, hv, hseq, hlen, hfits, hgrows, hattr⟩ := Buffer.append_of_room (z := blankEntry) hroom
    refine ⟨_, ?_, onlyTable_setTable s v, hseq, hlen, hfits, hgrows, hattr⟩
    rw [exec_bufAppend_table, hv, storeTable]
  · rw [← symCeiling_eq] at hroom
    obtain ⟨v, hv, hseq, hlen, hfits, hgrows, hattr⟩ := Buffer.append_of_room (z := blankSymbol) hroom
    refine ⟨s.setSymBuf d v, ?_, onlySymBuf_setSymBuf s d v, ?_⟩
    · rw [exec_bufAppend_sym hsize, hv, storeSym]
    · rw [symBuf_setSymBuf_same]
      exact ⟨hseq, hlen, hfits, hgrows, hattr⟩
  · have hnil : exec (.bufAppend .table (.entries [])) s = .next s := by
      rw [exec_bufAppend_table, Buffer.append_nil hcap, storeTable]
    rcases he with rfl | rfl
    · exact hnil
    · rw [exec_bufAppend_table_nil, hnil]
  · have hnil : exec (.bufAppend (.sym d) (.symbols [])) s = .next s := by
      rw [exec_bufAppend_sym (.inl rfl), Buffer.append_nil hcap, storeSym, setSymBuf_symBuf_same]
    rcases he with rfl | rfl
    · rw [exec_bufAppend_sym_nil, hnil]
    · exact hnil

/-- Settles O26: without room the append fails and the error is taken; the refusals are the tests before it. -/
theorem appendWithoutRoomRaises : Obligations.AppendWithoutRoomRaises := by
  intro s
  refine ⟨fun es hroom => ?_, fun d xs hsize hroom => ?_, fun d xs => exec_bufAppend_sym_mismatch,
    fun d es => exec_bufAppend_sym_entries, fun xs => exec_bufAppend_table_symbols⟩
  · refine ⟨_, ?_, endedInError_setTable .allocationError s s.table.degrade⟩
    rw [exec_bufAppend_table, Buffer.append_of_no_room hroom, storeTable]
  · rw [← symCeiling_eq] at hroom
    refine ⟨_, ?_, endedInError_setSymBuf .allocationError s d (s.symBuf d).degrade⟩
    rw [exec_bufAppend_sym hsize, Buffer.append_of_no_room hroom, storeSym]

/-- A slot below `tableLen` that holds symbols is an entry. -/
theorem hasEntry_of_slot {s : State} {i : Code} {y : Symbol} {ys : List Symbol} (hlen : i.toNat < s.table.len)
    (hslot : s.slot i.toNat = y :: ys) : s.HasEntry i.toNat :=
  ⟨hlen, .inl (by simp [hslot])⟩

/-- Settles O27: from a buffer or from an entry, a copy is `copySymbols` of the source's elements; what is neither stops
at a test before it. -/
theorem copyFromReplacesContents : Obligations.CopyFromReplacesContents := by
  intro d b s
  refine ⟨fun hne hsize hlen => ?_, fun hne hsize hlen => ?_, fun i y ys hsize hlen hslot => ?_, fun hne hsize => ?_,
    fun i hsize hlen hslot hclear hend => ?_, fun i hnone => ?_, fun i hsize hlen hentry => ?_, fun i => rfl, ?_, rfl,
    rfl, rfl⟩
  · have hnil : (s.symBuf b).seq blankSymbol = [] := List.length_eq_zero_iff.mp (by rw [Buffer.length_seq, hlen])
    rw [exec_bufCopyFrom_sym hne, hnil, copySymbols_nil hsize]
  · have hcons : (s.symBuf b).seq blankSymbol ≠ [] :=
      List.ne_nil_of_length_pos (by rw [Buffer.length_seq]; exact hlen)
    rw [exec_bufCopyFrom_sym hne, ← Buffer.length_seq blankSymbol (s.symBuf b)]
    exact ⟨copySymbols_of_room hsize hcons, copySymbols_of_no_room hsize hcons⟩
  · rw [exec_bufCopyFrom_entry (hasEntry_of_slot hlen hslot), hslot]
    exact ⟨copySymbols_of_room hsize (by simp), copySymbols_of_no_room hsize (by simp)⟩
  · rw [exec_bufCopyFrom_sym hne, copySymbols_mismatch hsize]
  · rw [exec_bufCopyFrom_entry ⟨hlen, .inr ⟨hclear, hend⟩⟩, hslot, copySymbols_nil hsize]
  · have hno : ¬ s.HasEntry i.toNat := by
      rintro ⟨hlen, hentry⟩
      rcases hnone with hle | ⟨hempty, hsentinel⟩
      · exact hle.not_gt hlen
      · rcases hentry with hne | ⟨hclear, hend⟩
        · exact hne hempty
        · exact hsentinel.elim hclear hend
    exact exec_bufCopyFrom_no_entry hno
  · rw [exec_bufCopyFrom_entry ⟨hlen, hentry⟩, copySymbols_mismatch hsize]
  · exact if_pos rfl

/-! ### The length stays within the capacity -/

/-- A released buffer is within its capacity. -/
theorem Buffer.release_len_le_cap {α : Type} (b : Buffer α) : b.release.len ≤ b.release.cap := by
  obtain ⟨hlen, hcap⟩ := b.release_len
  rw [hlen, hcap]

/-- Whatever comes of putting a symbol buffer back is within its capacity if the operation left it so: the error
releases it. -/
theorem storeSym_len_le_cap {d : SymBuf} {r : BufResult Symbol} {s t : State} (h : storeSym d r s = .next t)
    (hr : ∀ v, r = .done v → v.len ≤ v.cap) : (t.symBuf d).len ≤ (t.symBuf d).cap := by
  rcases storeSym_next h with ⟨v, hv, rfl⟩ | ⟨v, rfl⟩
  · rw [symBuf_setSymBuf_same]
    exact hr v hv
  · rw [symBuf_raiseError]
    exact Buffer.release_len_le_cap _

theorem storeTable_len_le_cap {r : BufResult Entry} {s t : State} (h : storeTable r s = .next t)
    (hr : ∀ v, r = .done v → v.len ≤ v.cap) : t.table.len ≤ t.table.cap := by
  rcases storeTable_next h with ⟨v, hv, rfl⟩ | ⟨v, rfl⟩
  · exact hr v hv
  · exact Buffer.release_len_le_cap _

theorem appendSymbols_len_le_cap {d : SymBuf} {xs : List Symbol} {s t : State}
    (hb : (s.symBuf d).len ≤ (s.symBuf d).cap) (h : appendSymbols d xs s = .next t) :
    (t.symBuf d).len ≤ (t.symBuf d).cap := by
  unfold appendSymbols at h
  split at h
  · exact storeSym_len_le_cap h fun v => Buffer.append_len_le_cap hb
  · cases h

theorem copySymbols_len_le_cap {d : SymBuf} {n : Nat} {q : List Symbol} {s t : State}
    (hb : (s.symBuf d).len ≤ (s.symBuf d).cap) (h : copySymbols d n q s = .next t) :
    (t.symBuf d).len ≤ (t.symBuf d).cap := by
  unfold copySymbols at h
  split at h
  · exact storeSym_len_le_cap h fun v => Buffer.copyFrom_len_le_cap hb
  · cases h

theorem appendEntries_len_le_cap {es : List Entry} {s t : State} (hb : s.table.len ≤ s.table.cap)
    (h : appendEntries es s = .next t) : t.table.len ≤ t.table.cap :=
  storeTable_len_le_cap h fun _ => Buffer.append_len_le_cap hb

/-- If something comes of an append to a symbol buffer, it is an append of symbols. -/
theorem bufAppend_sym_next {d : SymBuf} {e : Elems} {s t : State} (h : exec (.bufAppend (.sym d) e) s = .next t) :
    ∃ xs, appendSymbols d xs s = .next t := by
  cases e with
  | symbols xs => exact ⟨xs, h⟩
  | entries es =>
    by_cases hes : es = []
    · exact ⟨[], (if_pos hes).symm.trans h⟩
    · rw [exec_bufAppend_sym_entries hes] at h
      cases h

/-- If something comes of an append to the table, it is an append of entries. -/
theorem bufAppend_table_next {e : Elems} {s t : State} (h : exec (.bufAppend .table e) s = .next t) :
    ∃ es, appendEntries es s = .next t := by
  cases e with
  | entries es => exact ⟨es, h⟩
  | symbols xs =>
    by_cases hxs : xs = []
    · exact ⟨[], (if_pos hxs).symm.trans h⟩
    · rw [exec_bufAppend_table_symbols hxs] at h
      cases h

/-- If something comes of a copy to a symbol buffer, it is a copy of symbols. -/
theorem bufCopyFrom_sym_next {d : SymBuf} {src : BufSource} {s t : State}
    (h : exec (.bufCopyFrom (.sym d) src) s = .next t) : ∃ n q, copySymbols d n q s = .next t := by
  match src with
  | .buf (.sym b) =>
    by_cases hd : d = b
    · have hself : exec (.bufCopyFrom (.sym d) (.buf (.sym b))) s = .refused .copyToItself := if_pos hd
      rw [hself] at h
      cases h
    · rw [exec_bufCopyFrom_sym hd] at h
      exact ⟨_, _, h⟩
  | .buf .table => cases h
  | .entry i => exact ⟨_, _, (entryThen_next (k := fun e => copySymbols d Config.symbolBytes e s) h).2⟩

/-- Settles O28: an append and a copy that are done keep the length within the capacity, and one that fails releases the
buffer. -/
theorem lengthStaysWithinCapacity : Obligations.LengthStaysWithinCapacity := by
  intro d e src s t
  refine ⟨fun hb h => ?_, fun hb h => ?_⟩
  · rcases h with h | h
    · obtain ⟨xs, h⟩ := bufAppend_sym_next h
      exact appendSymbols_len_le_cap hb h
    · obtain ⟨n, q, h⟩ := bufCopyFrom_sym_next h
      exact copySymbols_len_le_cap hb h
  · obtain ⟨es, h⟩ := bufAppend_table_next h
    exact appendEntries_len_le_cap hb h

end Sys2Proof.Machine
end

section
/-! The obligations on `START` (45_host_operations.md R111, R112), on the host's accesses (10_state.md R31 to R36,
20_memory.md R40) and on the hardware reset (70_reset_and_hazards.md R140). -/

namespace Sys2Proof.Machine

/-! ### `START` -/

section
variable {s : State}

theorem exec_start_of_busy (hb : s.run = .busy) : exec .start s = .next s := if_pos hb

theorem exec_start_before_boot (hb : s.run ≠ .busy) (h : s.icsWritten = false ∨ s.inLenWritten = false) :
    exec .start s = .refused .startBeforeBoot :=
  (if_neg hb).trans (if_pos (by rcases h with h | h <;> simp [h]))

theorem exec_start_of_booted (hb : s.run ≠ .busy) (hi : s.icsWritten = true) (hl : s.inLenWritten = true) :
    exec .start s = if !s.icsLegal then .refused .illegalInitialCodeSize else .next (started s) :=
  (if_neg hb).trans (if_neg (by simp [hi, hl]))

theorem icsLegal_iff : s.icsLegal = true ↔ 2 ≤ s.hrIcs.toNat ∧ s.hrIcs.toNat ≤ 8 := decide_eq_true_iff

theorem exec_start_illegal (hb : s.run ≠ .busy) (hi : s.icsWritten = true) (hl : s.inLenWritten = true)
    (h : s.hrIcs.toNat < 2 ∨ 8 < s.hrIcs.toNat) : exec .start s = .refused .illegalInitialCodeSize := by
  have hillegal : ¬ s.icsLegal = true := by rw [icsLegal_iff]; omega
  rw [exec_start_of_booted hb hi hl, if_pos (by simpa using hillegal)]

theorem exec_start_starts (hb : s.run ≠ .busy) (hi : s.icsWritten = true) (hl : s.inLenWritten = true)
    (h2 : 2 ≤ s.hrIcs.toNat) (h8 : s.hrIcs.toNat ≤ 8) : exec .start s = .next (started s) := by
  rw [exec_start_of_booted hb hi hl, icsLegal_iff.mpr ⟨h2, h8⟩]
  rfl

/-- If something comes of `START`, it was ignored or a decode has begun, with both registers written and a legal size.
-/
theorem exec_start_next {t : State} (h : exec .start s = .next t) :
    (s.run = .busy ∧ t = s) ∨
      (s.run ≠ .busy ∧ s.icsWritten = true ∧ s.inLenWritten = true ∧ 2 ≤ s.hrIcs.toNat ∧ s.hrIcs.toNat ≤ 8 ∧
        t = started s) := by
  by_cases hb : s.run = .busy
  · rw [exec_start_of_busy hb] at h
    cases h
    exact .inl ⟨hb, rfl⟩
  cases hi : s.icsWritten with
  | false => rw [exec_start_before_boot hb (.inl hi)] at h; cases h
  | true =>
    cases hl : s.inLenWritten with
    | false => rw [exec_start_before_boot hb (.inr hl)] at h; cases h
    | true =>
      by_cases hlegal : 2 ≤ s.hrIcs.toNat ∧ s.hrIcs.toNat ≤ 8
      · rw [exec_start_starts hb hi hl hlegal.1 hlegal.2] at h
        cases h
        exact .inr ⟨hb, rfl, rfl, hlegal.1, hlegal.2, rfl⟩
      · rw [exec_start_illegal hb hi hl (by omega)] at h
        cases h

end

theorem started_table_len (s : State) : (started s).table.len = 2 ^ s.hrIcs.toNat + 2 := by
  rw [← Nat.one_shiftLeft]
  rfl

/-- The slots `START` leaves: the literals, and no value anywhere else (10_state.md R38). -/
theorem started_slot (s : State) (i : Nat) :
    (started s).slot i = if i < 2 ^ s.hrIcs.toNat then [BitVec.ofNat 16 i] else [] := by
  rw [← Nat.one_shiftLeft]
  exact read_literalSlots _ i

/-- The symbol buffers `START` makes. -/
theorem freshSymbols_fresh (cap : Nat) : FreshSymbols cap (Buffer.fresh Config.symbolBytes cap) :=
  ⟨rfl, rfl, rfl, rfl, rfl, fun _ => rfl⟩

/-- Settles O31: what `START` leaves is `started s`. -/
theorem startBeginsADecode : Obligations.StartBeginsADecode := by
  intro s hb hi hl h2 h8
  have hclear : (started s).clear = 2 ^ s.hrIcs.toNat := clear_eq_two_pow (started s)
  have hwidth : s.hrIcs.toNat + 1 ≤ 12 := by omega
  have hmask : (started s).codeMask.toNat = 2 ^ (s.hrIcs.toNat + 1) - 1 := toNat_maskOf hwidth
  refine ⟨started s, exec_start_starts hb hi hl h2 h8, rfl, rfl, hclear, congrArg (· + 1) hclear, rfl, rfl, hmask,
    rfl, rfl, rfl, rfl, started_table_len s, fun i hlt => ?_, fun i hle => ?_, rfl, rfl, rfl, rfl, freshSymbols_fresh _,
    freshSymbols_fresh _, freshSymbols_fresh _, rfl, rfl, rfl, ?_, rfl,
    ⟨rfl, rfl, rfl, rfl, rfl, rfl, rfl⟩, fun _ => rfl⟩
  · rw [started_slot, if_pos hlt]
  · rw [started_slot, if_neg hle.not_gt]
  · rw [statusWord, started_run, started_err]
    decide

/-- Settles O32: the three tests of `START`, in order. -/
theorem startIsIgnoredOrRefused : Obligations.StartIsIgnoredOrRefused := by
  intro s
  exact ⟨exec_start_of_busy, exec_start_before_boot, exec_start_illegal⟩

/-! ### The host's accesses -/

/-- A listed turn of the host is its access. -/
theorem step_of_host_listed {s : State} {a : HostAccess} {rest : List Turn} (h : s.agenda = .host a :: rest) :
    step s = hostAccess a { s with agenda := rest } := by
  simp only [step, turn, h]

section
variable {s : State} {v : Nat}

/-- Bit 0 of what is written to `HR[0]` is the command (10_state.md R32). -/
theorem decodeHostWrite_zero : decodeHostWrite 0 (BitVec.ofNat 32 v) = if v % 2 = 1 then some .start else none := by
  have hbit : (BitVec.ofNat 32 v).getLsbD 0 = decide (v % 2 = 1) := by
    rw [BitVec.getLsbD_ofNat, Nat.testBit_zero]
    rfl
  simp only [decodeHostWrite, hbit, decide_eq_true_eq]

theorem writeReg_command (h : v % 2 = 1) : writeReg 0 v s = exec .start s := by
  simp only [writeReg, decodeHostWrite_zero, if_pos h]

theorem writeReg_no_command (h : v % 2 = 0) : writeReg 0 v s = .next s := by
  simp [writeReg, decodeHostWrite_zero, h]

theorem writeReg_ics (h : s.run ≠ .busy) :
    writeReg 2 v s = .next { s with hrIcs := BitVec.ofNat 4 v, icsWritten := true } := if_neg h

theorem writeReg_inLen (h : s.run ≠ .busy) :
    writeReg 3 v s = .next { s with hrInLen := v % 2 ^ s.params.inAw, inLenWritten := true } := if_neg h

theorem writeReg_of_busy {n : Nat} (hn : n = 2 ∨ n = 3) (h : s.run = .busy) : writeReg n v s = .next s := by
  rcases hn with rfl | rfl <;> exact if_pos h

theorem writeReg_none {n : Nat} (h : 5 ≤ n) : writeReg n v s = .refused .noSuchHostRegister := by
  obtain ⟨m, rfl⟩ := Nat.exists_eq_add_of_le' h
  rfl

/-- The value of a host register that has one to be read (10_state.md R32 to R36). -/
def registerValue (s : State) : Nat → Nat
  | 0 => 0
  | 1 => (statusWord s).toNat
  | 2 => s.hrIcs.toNat
  | 3 => s.hrInLen
  | _ => s.hrOutLen.toNat

theorem readReg_value {n : Nat} (hn : n < 5) (h : ¬ (n = 4 ∧ s.run = .busy)) :
    readReg n s = .next { s with hostData := registerValue s n } := by
  match n with
  | 0 => rfl
  | 1 => rfl
  | 2 => rfl
  | 3 => rfl
  | 4 => exact if_neg fun hb => h ⟨rfl, hb⟩

theorem readReg_none {n : Nat} (h : 5 ≤ n) : readReg n s = .refused .noSuchHostRegister := by
  obtain ⟨m, rfl⟩ := Nat.exists_eq_add_of_le' h
  rfl

end

/-- Settles O33: register by register, the step is `writeReg`. -/
theorem hostWritesFollowTheAccessRights : Obligations.HostWritesFollowTheAccessRights := by
  intro s v rest n ha s0
  have hstep : step s = writeReg n v s0 := step_of_host_listed ha
  rw [hstep]
  refine ⟨fun hn hv => ?_, fun hn hv => ?_, fun hn => ?_, fun hn hb => writeReg_of_busy hn hb, fun hn hb => ?_,
    fun hn hb => ?_, writeReg_none⟩
  · rw [hn, writeReg_command hv]
  · rw [hn, writeReg_no_command hv]
  · rcases hn with rfl | rfl <;> rfl
  · rw [hn]
    exact ⟨_, writeReg_ics hb, BitVec.toNat_ofNat v 4, rfl⟩
  · rw [hn]
    exact ⟨_, writeReg_inLen hb, rfl, rfl⟩

/-- `HR[1]` as a number (10_state.md R33). -/
theorem toNat_statusWord (s : State) :
    (statusWord s).toNat = (runBits s.run).toNat + 16 * (errBits s.err).toNat := by
  have h : ∀ (r : BitVec 2) (e : BitVec 3),
      (r.setWidth 32 ||| (e.setWidth 32 <<< 4)).toNat = r.toNat + 16 * e.toNat := by decide
  exact h _ _

/-- Settles O34: register by register, the step is `readReg`. -/
theorem hostReadsReturnTheRegisters : Obligations.HostReadsReturnTheRegisters := by
  intro s rest n ha s0
  have hstep : step s = readReg n s0 := step_of_host_listed ha
  rw [hstep]
  refine ⟨fun hn hfree => ?_, fun hn hb => ?_, readReg_none⟩
  · refine ⟨_, readReg_value hn hfree, rfl, ?_, ?_, ?_, ?_, ?_⟩
    · rintro rfl
      rfl
    · rintro rfl
      refine (toNat_statusWord s).trans (congrArg₂ (· + 16 * ·) ?_ ?_)
      · cases s.run <;> rfl
      · cases s.err with
        | none => rfl
        | some e => cases e <;> rfl
    · rintro rfl
      rfl
    · rintro rfl
      rfl
    · rintro rfl
      rfl
  · subst hn
    exact ⟨readUnspecified 32 s0, if_pos hb, Nat.mod_lt _ (by decide), rfl⟩

/-- Settles O35: the step is `writeIn`, whose two tests are the two stops. -/
theorem hostWritesInputOnlyWhileNotBusy : Obligations.HostWritesInputOnlyWhileNotBusy := by
  intro s rest a v ha
  have hstep : step s = writeIn a v { s with agenda := rest } := step_of_host_listed ha
  rw [hstep]
  refine ⟨fun hb => if_pos hb, fun hb hlt => ?_, fun hb hle => (if_neg hb).trans (if_neg (Nat.not_lt.mpr hle))⟩
  exact ⟨_, (if_neg hb).trans (if_pos hlt), rfl, fun b => Memory.read_write blankByte s.input a v b⟩

/-- Settles O36: the step is `readOut`, whose tests are the three ranges. -/
theorem hostReadsTheResultAtDone : Obligations.HostReadsTheResultAtDone := by
  intro s rest i ha
  have hstep : step s = readOut i { s with agenda := rest } := step_of_host_listed ha
  rw [hstep]
  refine ⟨fun hcap hdone hlen => ?_, fun hcap hnone => ?_, fun hcap => if_pos hcap⟩
  · exact ⟨_, (if_neg hcap.not_ge).trans (if_pos ⟨hdone, hlen⟩), rfl, rfl⟩
  · have hno : ¬ (s.run = .done ∧ i < s.hrOutLen.toNat) := fun ⟨hdone, hlen⟩ =>
      hnone.elim (· hdone) (Nat.not_le.mpr hlen)
    exact ⟨readUnspecified 16 { s with agenda := rest }, (if_neg hcap.not_ge).trans (if_neg hno),
      Nat.mod_lt _ (by decide), rfl⟩

/-! ### The reset -/

/-- Settles O37: a hardware reset gives every field but three the value it has in `State.reset`, whose table is empty.
-/
theorem hardwareResetLeavesIdle : Obligations.HardwareResetLeavesIdle := by
  refine ⟨fun s rest ha => ⟨hardReset { s with agenda := rest }, step_of_host_listed ha, rfl, rfl, rfl, rfl, rfl,
    fun c => lookup_of_len_le (Nat.zero_le _), ?_, rfl, rfl, rfl, rfl⟩, rfl, rfl, rfl, rfl, rfl,
    fun c => lookup_of_len_le (Nat.zero_le _), by decide, rfl, rfl⟩
  change statusWord State.reset = 0
  decide

/-- Settles O40: the reset state is closed, and no decode runs in it. -/
theorem resetMeetsTheInvariant : Obligations.ResetMeetsTheInvariant :=
  ⟨by decide, by decide, by decide, fun hb => absurd hb (by decide)⟩

end Sys2Proof.Machine
end

section
/-! What a code does in a running decode that meets the invariant (42_code_lookup.md): one case per outcome, each with
the condition it has, and the proof that every code has one of them. -/

namespace Sys2Proof.Machine

/-! ### What the invariant says of the entries -/

/-- The symbol of a literal code is its value (30_encoding.md R57). -/
theorem literalSymbol_eq (c : Code) : literalSymbol c = BitVec.ofNat 16 c.toNat := (BitVec.ofNat_toNat 16 c).symm

section
variable {s : State} {i : Nat}

theorem SlotOk.literal (h : SlotOk s i) (hi : i < s.clear) : s.slot i = [BitVec.ofNat 16 i] := by
  rwa [SlotOk, if_pos hi] at h

theorem SlotOk.grown (h : SlotOk s i) (hi : s.endCode < i) :
    2 ≤ (s.slot i).length ∧ (s.slot i).length ≤ i - s.clear ∧ ∀ v ∈ s.slot i, v.toNat < s.clear := by
  have hc : ¬ i < s.clear := by unfold State.endCode at hi; omega
  rwa [SlotOk, if_neg hc, if_neg hi.not_ge] at h

/-- An index that is no sentinel names a sequence, and no longer a one than its place in the table allows
(10_state.md R37 item 6). -/
theorem SlotOk.entry (h : SlotOk s i) (hc : i ≠ s.clear) (he : i ≠ s.endCode) :
    (∃ x xs, s.slot i = x :: xs) ∧ (s.slot i).length ≤ max 1 (i - s.clear) := by
  rcases Nat.lt_or_gt_of_ne hc with hlt | hgt
  · rw [SlotOk.literal h hlt]
    exact ⟨⟨_, _, rfl⟩, Nat.le_max_left _ _⟩
  · have hend : s.endCode < i := by unfold State.endCode at he ⊢; omega
    obtain ⟨hlow, hhigh, -⟩ := SlotOk.grown h hend
    exact ⟨List.exists_cons_of_length_pos (by omega), hhigh.trans (Nat.le_max_right _ _)⟩

end

/-- `T[prevCode]` (42_code_lookup.md R87 to R89), written as the collation listing writes it. -/
def prevEntry (s : State) : Entry := s.slot ((s.prevCode.map BitVec.toNat).getD 0)

/-- In phases `S` and `T` there is a previous code, it is no sentinel, and its entry is found (10_state.md R17). -/
theorem BusyOk.prevCode_found {s : State} (h : BusyOk s) (hp : s.phase = .streaming ∨ s.phase = .tableFull) :
    ∃ p x xs, s.prevCode = some p ∧ lookup s p = some (x, xs) ∧ prevEntry s = x :: xs ∧ p.toNat ≠ s.clear ∧
      p.toNat ≠ s.endCode := by
  obtain ⟨-, ⟨-, -, -, -, -, -, -, hprev⟩, hslots, -, -⟩ := h
  obtain ⟨hsome, hprev⟩ := hprev hp
  obtain ⟨p, hp⟩ := Option.isSome_iff_exists.mp hsome
  obtain ⟨hlen, hclear, hend, -⟩ := hprev p hp
  obtain ⟨⟨x, xs, hslot⟩, -⟩ := SlotOk.entry (hslots _ hlen) hclear hend
  exact ⟨p, x, xs, hp, lookup_of_slot hlen hslot, by simp [prevEntry, hp, hslot], hclear, hend⟩

/-- Outside phase `T` the table is not full (10_state.md R37 item 3). -/
theorem BusyOk.table_free {s : State} (h : BusyOk s) (hp : s.phase ≠ .tableFull) : s.table.len < 4096 := by
  obtain ⟨-, ⟨-, hw, -, -, hlen, -⟩, -⟩ := h
  exact (hlen hp).trans_le (Nat.pow_le_pow_right (by decide) hw)

theorem BusyOk.table_full {s : State} (h : BusyOk s) (hp : s.phase = .tableFull) : s.table.len = 4096 := by
  obtain ⟨-, ⟨-, -, -, -, -, hfull, -⟩, -⟩ := h
  exact (hfull hp).1

/-- The table has every literal and both sentinels. -/
theorem BusyOk.clear_add_two_le {s : State} (h : BusyOk s) : s.clear + 2 ≤ s.table.len := by
  obtain ⟨-, ⟨-, -, hlen, -⟩, -⟩ := h
  exact hlen

/-! ### The outcomes of a code -/

/-- The sequence the data code `c` resolves to: the entry it names, or in phase `S` the one it is about to make. A
literal is an entry of its own, so it is no case apart. -/
def Resolves (c : Code) (e : Entry) (s : State) : Prop :=
  c.toNat ≠ s.clear ∧ c.toNat ≠ s.endCode ∧
    ((c.toNat < s.table.len ∧ e = s.slot c.toNat) ∨
      (s.phase = .streaming ∧ c.toNat = s.table.len ∧ e = prevEntry s ++ (prevEntry s).take 1))

/-- What the code `c` makes of a running decode: the rules of 42_code_lookup.md, one constructor for each outcome. -/
inductive Effect (c : Code) (s : State) : State → Prop
  | leadingClear (hp : s.phase = .awaitingReset) (hc : c.toNat = s.clear) :
      Effect c s { s with phase := .awaitingFirst }
  | noLeadingClear (hp : s.phase = .awaitingReset) (hc : c.toNat ≠ s.clear) :
      Effect c s (raiseError .expectedInitialClear s)
  | firstLiteral (hp : s.phase = .awaitingFirst) (hc : c.toNat < s.clear) (hroom : s.out.len + 1 ≤ s.params.outCap) :
      Effect c s { afterEmit c [literalSymbol c] s with phase := .streaming }
  | firstOverflow (hp : s.phase = .awaitingFirst) (hc : c.toNat < s.clear) (hfull : s.params.outCap < s.out.len + 1) :
      Effect c s (raiseError .allocationError s)
  | firstEnd (hp : s.phase = .awaitingFirst) (hc : c.toNat = s.endCode) (ha : s.params.endAfterClear = .accept) :
      Effect c s (finishDecode s)
  | firstIllegal (hp : s.phase = .awaitingFirst) (hc : s.clear ≤ c.toNat)
      (he : ¬ (c.toNat = s.endCode ∧ s.params.endAfterClear = .accept)) : Effect c s (raiseError .firstCodeNotLiteral s)
  | ended (hp : s.phase = .streaming ∨ s.phase = .tableFull) (hc : c.toNat = s.endCode) : Effect c s (finishDecode s)
  | cleared (hp : s.phase = .streaming ∨ s.phase = .tableFull) (hc : c.toNat = s.clear) : Effect c s (clearDict s)
  | overflow {e : Entry} (hp : s.phase = .streaming ∨ s.phase = .tableFull) (hr : Resolves c e s)
      (hfull : s.params.outCap < s.out.len + e.length) : Effect c s (raiseError .allocationError s)
  | grown {e : Entry} (hp : s.phase = .streaming) (hr : Resolves c e s)
      (hroom : s.out.len + e.length ≤ s.params.outCap) : Effect c s (afterGrow c e (prevEntry s ++ e.take 1) s)
  | emitted {e : Entry} (hp : s.phase = .tableFull) (hr : Resolves c e s)
      (hroom : s.out.len + e.length ≤ s.params.outCap) : Effect c s (afterEmit c e s)
  | invalid (hp : s.phase = .streaming) (hc : s.table.len < c.toNat) : Effect c s (raiseError .invalidCode s)

section
variable {s : State} {c : Code} {e : Entry}

/-- A data code of phase `S` emits what it resolves to, and adds the previous entry with its first symbol behind it;
or the output is full. -/
theorem exec_resolved_streaming (h : BusyOk s) (hp : s.phase = .streaming) (hr : Resolves c e s) :
    (s.out.len + e.length ≤ s.params.outCap →
      exec (classify s.ctx c) s = .next (afterGrow c e (prevEntry s ++ e.take 1) s)) ∧
    (s.params.outCap < s.out.len + e.length →
      exec (classify s.ctx c) s = .next (raiseError .allocationError s)) := by
  obtain ⟨p, x, xs, hprev, hfound, hentry, -, -⟩ := BusyOk.prevCode_found h (.inl hp)
  have hfree : s.table.len < 4096 := BusyOk.table_free h (by simp [hp])
  have hlen2 := BusyOk.clear_add_two_le h
  obtain ⟨-, -, hslots, -, -⟩ := h
  obtain ⟨hclear, hend, ⟨hlen, rfl⟩ | ⟨-, hlen, rfl⟩⟩ := hr
  · rcases Nat.lt_or_gt_of_ne hclear with hlit | hgt
    · rw [classify_litS (x := s.ctx) hp hlit, SlotOk.literal (hslots _ hlen) hlit, hentry, ← literalSymbol_eq]
      exact ⟨execLitS_fits hp hfree hprev hfound, execLitS_overflow⟩
    · have hgt : s.endCode < c.toNat := by unfold State.endCode at hend ⊢; omega
      obtain ⟨⟨y, ys, hslot⟩, -⟩ := SlotOk.entry (hslots _ hlen) hclear hend
      have hc : lookup s c = some (y, ys) := lookup_of_slot hlen hslot
      rw [classify_refS (x := s.ctx) hp hgt hlen, hslot, hentry]
      exact ⟨execRefS_fits hp hfree hprev hfound hc, execRefS_overflow hc⟩
  · have hgt : s.endCode < c.toNat := by unfold State.endCode; omega
    have hlength : (x :: xs ++ (x :: xs).take 1).length = xs.length + 2 := by simp
    rw [classify_kwkS (x := s.ctx) hp hgt hlen, hentry, hlength]
    exact ⟨execKwkS_fits hp hfree hprev hfound, execKwkS_overflow hprev hfound⟩

/-- A data code of phase `T` emits the entry it names and adds none; or the output is full. -/
theorem exec_resolved_full (h : BusyOk s) (hp : s.phase = .tableFull) (hr : Resolves c e s) :
    (s.out.len + e.length ≤ s.params.outCap → exec (classify s.ctx c) s = .next (afterEmit c e s)) ∧
    (s.params.outCap < s.out.len + e.length →
      exec (classify s.ctx c) s = .next (raiseError .allocationError s)) := by
  obtain ⟨-, -, hslots, -, -⟩ := h
  obtain ⟨hclear, hend, ⟨hlen, rfl⟩ | ⟨hs, -⟩⟩ := hr
  · rcases Nat.lt_or_gt_of_ne hclear with hlit | hgt
    · rw [classify_litT (x := s.ctx) hp hlit, SlotOk.literal (hslots _ hlen) hlit, ← literalSymbol_eq]
      exact ⟨execLitT_fits, execLitT_overflow⟩
    · have hgt : s.endCode < c.toNat := by unfold State.endCode at hend ⊢; omega
      obtain ⟨⟨y, ys, hslot⟩, -⟩ := SlotOk.entry (hslots _ hlen) hclear hend
      have hc : lookup s c = some (y, ys) := lookup_of_slot hlen hslot
      rw [classify_refT (x := s.ctx) hp hgt, hslot]
      exact ⟨execRefT_fits hc, execRefT_overflow hc⟩
  · rw [hp] at hs
    cases hs

/-- Every code completes, with one of the outcomes above. -/
theorem exec_effect (h : BusyOk s) (c : Code) : ∃ t, exec (classify s.ctx c) s = .next t ∧ Effect c s t := by
  have hlen2 := BusyOk.clear_add_two_le h
  cases hp : s.phase with
  | awaitingReset =>
    by_cases hc : c.toNat = s.clear
    · rw [classify_clrR (x := s.ctx) hp hc]
      exact ⟨_, rfl, .leadingClear hp hc⟩
    · rw [classify_illR (x := s.ctx) hp hc]
      exact ⟨_, rfl, .noLeadingClear hp hc⟩
  | awaitingFirst =>
    rcases Nat.lt_or_ge c.toNat s.clear with hc | hc
    · rw [classify_litF (x := s.ctx) hp hc]
      rcases Nat.lt_or_ge s.params.outCap (s.out.len + 1) with hout | hout
      · exact ⟨_, execLitF_overflow hout, .firstOverflow hp hc hout⟩
      · exact ⟨_, execLitF_fits hout, .firstLiteral hp hc hout⟩
    by_cases he : c.toNat = s.endCode
    · cases ha : s.params.endAfterClear with
      | accept =>
        rw [classify_endF (x := s.ctx) hp he ha]
        exact ⟨_, rfl, .firstEnd hp he ha⟩
      | reject =>
        rw [classify_illF_of_end (x := s.ctx) hp he ha]
        exact ⟨_, rfl, .firstIllegal hp hc (by simp [ha])⟩
    · rw [classify_illF (x := s.ctx) hp hc he]
      exact ⟨_, rfl, .firstIllegal hp hc fun hacc => he hacc.1⟩
  | streaming =>
    by_cases hend : c.toNat = s.endCode
    · rw [classify_endS (x := s.ctx) hp hend]
      exact ⟨_, rfl, .ended (.inl hp) hend⟩
    by_cases hclear : c.toNat = s.clear
    · rw [classify_clrS (x := s.ctx) hp hclear]
      exact ⟨_, rfl, .cleared (.inl hp) hclear⟩
    rcases Nat.lt_or_ge s.table.len c.toNat with hgt | hle
    · have he : s.endCode < c.toNat := by unfold State.endCode; omega
      rw [classify_illS (x := s.ctx) hp he hgt]
      exact ⟨_, rfl, .invalid hp hgt⟩
    obtain ⟨e, hr⟩ : ∃ e, Resolves c e s :=
      hle.lt_or_eq.elim (fun hlt => ⟨_, hclear, hend, .inl ⟨hlt, rfl⟩⟩)
        fun heq => ⟨_, hclear, hend, .inr ⟨hp, heq, rfl⟩⟩
    obtain ⟨hfits, hfull⟩ := exec_resolved_streaming h hp hr
    rcases Nat.lt_or_ge s.params.outCap (s.out.len + e.length) with hout | hout
    · exact ⟨_, hfull hout, .overflow (.inl hp) hr hout⟩
    · exact ⟨_, hfits hout, .grown hp hr hout⟩
  | tableFull =>
    by_cases hend : c.toNat = s.endCode
    · rw [classify_endT (x := s.ctx) hp hend]
      exact ⟨_, rfl, .ended (.inr hp) hend⟩
    by_cases hclear : c.toNat = s.clear
    · rw [classify_clrT (x := s.ctx) hp hclear]
      exact ⟨_, rfl, .cleared (.inr hp) hclear⟩
    have hlt : c.toNat < s.table.len := (BusyOk.table_full h hp).symm ▸ c.isLt
    have hr : Resolves c (s.slot c.toNat) s := ⟨hclear, hend, .inl ⟨hlt, rfl⟩⟩
    obtain ⟨hfits, hfull⟩ := exec_resolved_full h hp hr
    rcases Nat.lt_or_ge s.params.outCap (s.out.len + (s.slot c.toNat).length) with hout | hout
    · exact ⟨_, hfull hout, .overflow (.inr hp) hr hout⟩
    · exact ⟨_, hfits hout, .emitted hp hr hout⟩

/-- What comes of a code is one of the outcomes above. -/
theorem effect_of_exec {t : State} (h : BusyOk s) (hexec : exec (classify s.ctx c) s = .next t) : Effect c s t := by
  obtain ⟨t', hexec', heffect⟩ := exec_effect h c
  cases hexec'.symm.trans hexec
  exact heffect

end

end Sys2Proof.Machine
end

section
/-! The invariant of a running decode (10_state.md R37) after each outcome of a code. -/

namespace Sys2Proof.Machine

/-! ### The parts of the invariant, each from what it reads -/

section
variable {s t : State}

/-- A slot is judged by its contents and by `CLEAR` alone. -/
theorem SlotOk.congr {i : Nat} (h : SlotOk s i) (hclear : t.clear = s.clear) (hslot : t.slot i = s.slot i) :
    SlotOk t i := by
  have hend : t.endCode = s.endCode := congrArg (· + 1) hclear
  rwa [SlotOk, hclear, hend, hslot]

theorem clear_of_surroundings (h : SameSurroundings s t) : t.clear = s.clear := by
  obtain ⟨-, -, ⟨hics, -⟩, -⟩ := h
  rw [State.clear, State.clear, hics]

/-- What surrounds the decoder's working state carries the latched constants and the cursor. -/
theorem BusyOk.of_surroundings (h : BusyOk s) (hsur : SameSurroundings s t) (hwidth : WidthOk t)
    (hslots : ∀ i < t.table.len, SlotOk t i) (hout : OutputOk t) : BusyOk t := by
  obtain ⟨hlatch, -, -, hcursor, -⟩ := h
  obtain ⟨⟨-, hrIcs, hrLen, hiw, hlw, -, -⟩, -, ⟨hics, hlen⟩, -, ⟨hbyte, hbit, -, -⟩, -⟩ := hsur
  refine ⟨?_, hwidth, hslots, ?_, hout⟩
  · rw [LatchOk, hics, hlen, hrIcs, hrLen, hiw, hlw]
    exact hlatch
  · rw [CursorOk, State.bitPos, hbyte, hbit, hlen]
    exact hcursor

/-- An output that takes symbols below `CLEAR` within its capacity stays as the invariant has it. -/
theorem OutputOk.of_emitted {e : List Symbol} (h : OutputOk s) (hem : Emitted e s t) (hsur : SameSurroundings s t)
    (hphase : t.phase ≠ .awaitingReset) (hroom : s.out.len + e.length ≤ s.params.outCap)
    (hsym : ∀ v ∈ e, v.toNat < s.clear) (hcap : t.table.cap = s.table.cap)
    (hfixed : t.table.isFixed = s.table.isFixed) : OutputOk t := by
  obtain ⟨-, hocap, hofixed, -, hold, htcap, htfixed⟩ := h
  obtain ⟨hlen, ⟨-, hecap, -, hefixed⟩, hinside, houtside⟩ := hem
  have hclear := clear_of_surroundings hsur
  obtain ⟨⟨hparams, -⟩, -⟩ := hsur
  rw [OutputOk, hlen, hparams, hecap, hefixed, hclear, hcap, hfixed]
  refine ⟨hroom, hocap, hofixed, fun hr => absurd hr hphase, fun i hi => ?_, htcap, htfixed⟩
  rcases Nat.lt_or_ge i s.out.len with hlt | hge
  · rw [houtside i (.inl hlt)]
    exact hold i hlt
  · obtain ⟨k, rfl⟩ := Nat.exists_eq_add_of_le hge
    have hk : k < e.length := Nat.lt_of_add_lt_add_left hi
    rw [hinside k hk]
    exact hsym _ (List.getElem_mem hk)

/-- The previous code is in order where its entry is the sequence that was cached with it. -/
theorem PrevOk.of_remembered {c : Code} {e : Entry} (h : Remembered c e s t) (hlen : c.toNat < t.table.len)
    (hclear : c.toNat ≠ t.clear) (hend : c.toNat ≠ t.endCode) (hslot : t.slot c.toNat = e) : PrevOk t := by
  obtain ⟨hprev, hseq, -⟩ := h
  refine ⟨by rw [hprev]; rfl, fun p hp => ?_⟩
  rw [hprev] at hp
  cases hp
  exact ⟨hlen, hclear, hend, hseq.trans hslot.symm⟩

end

/-! ### What a data code resolves to -/

section
variable {s : State} {c : Code} {e : Entry}

/-- `T[prevCode]` has a symbol, is short enough to be extended by one, and is made of symbols below `CLEAR`. -/
theorem BusyOk.prevEntry_bounds (h : BusyOk s) (hp : s.phase = .streaming ∨ s.phase = .tableFull) :
    1 ≤ (prevEntry s).length ∧ (prevEntry s).length + 1 ≤ s.table.len - s.clear ∧
      ∀ v ∈ prevEntry s, v.toNat < s.clear := by
  obtain ⟨p, x, xs, -, hfound, hentry, hclear, hend⟩ := BusyOk.prevCode_found h hp
  have hlen2 := BusyOk.clear_add_two_le h
  obtain ⟨-, -, hslots, -, -⟩ := h
  obtain ⟨hlen, hslot⟩ := lookup_some hfound
  rw [← hslot] at hentry
  obtain ⟨-, hbound⟩ := SlotOk.entry (hslots _ hlen) hclear hend
  rw [hentry]
  refine ⟨by simp [hslot], ?_, SlotOk.symbol_lt_clear (hslots _ hlen)⟩
  omega

/-- What a data code resolves to is made of symbols below `CLEAR` (10_state.md R23). -/
theorem Resolves.symbol_lt_clear (h : BusyOk s) (hr : Resolves c e s) : ∀ v ∈ e, v.toNat < s.clear := by
  obtain ⟨-, -, ⟨hlen, rfl⟩ | ⟨hp, -, rfl⟩⟩ := hr
  · obtain ⟨-, -, hslots, -, -⟩ := h
    exact SlotOk.symbol_lt_clear (hslots _ hlen)
  · obtain ⟨-, -, hsym⟩ := BusyOk.prevEntry_bounds h (.inl hp)
    intro v hv
    rcases List.mem_append.mp hv with hv | hv
    · exact hsym v hv
    · exact hsym v (List.mem_of_mem_take hv)

/-- What a data code resolves to has a first symbol. -/
theorem Resolves.take_one (h : BusyOk s) (hr : Resolves c e s) : ∃ x, e.take 1 = [x] ∧ x.toNat < s.clear := by
  have hsym := Resolves.symbol_lt_clear h hr
  obtain ⟨x, xs, rfl⟩ : ∃ x xs, e = x :: xs := by
    obtain ⟨hclear, hend, ⟨hlen, rfl⟩ | ⟨hp, -, rfl⟩⟩ := hr
    · obtain ⟨-, -, hslots, -, -⟩ := h
      exact (SlotOk.entry (hslots _ hlen) hclear hend).1
    · obtain ⟨-, x, xs, -, -, hentry, -, -⟩ := BusyOk.prevCode_found h (.inl hp)
      rw [hentry]
      exact ⟨_, _, rfl⟩
  exact ⟨x, rfl, hsym x (by simp)⟩

/-- A code below the end of the table names the entry it resolves to. -/
theorem Resolves.slot_of_lt (hr : Resolves c e s) (hlen : c.toNat < s.table.len) : s.slot c.toNat = e := by
  obtain ⟨-, -, ⟨-, he⟩ | ⟨-, heq, -⟩⟩ := hr
  · exact he.symm
  · exact absurd hlen heq.not_lt

/-- A code at the end of the table names the entry it makes. -/
theorem Resolves.new_of_eq (h : BusyOk s) (hr : Resolves c e s) (hlen : c.toNat = s.table.len) :
    prevEntry s ++ e.take 1 = e := by
  obtain ⟨-, -, ⟨hlt, -⟩ | ⟨hp, -, rfl⟩⟩ := hr
  · exact absurd hlen hlt.ne
  · obtain ⟨-, x, xs, -, -, hentry, -, -⟩ := BusyOk.prevCode_found h (.inl hp)
    rw [hentry]
    rfl

theorem Resolves.le_len (hr : Resolves c e s) : c.toNat ≤ s.table.len := by
  obtain ⟨-, -, ⟨hlt, -⟩ | ⟨-, heq, -⟩⟩ := hr
  · exact hlt.le
  · exact heq.le

end

/-! ### Each outcome that goes on keeps the invariant -/

section
variable {s : State} {c : Code} {e : Entry}

/-- The leading clear moves between the two phases of an untouched dictionary. -/
theorem busyOk_leadingClear (h : BusyOk s) (hp : s.phase = .awaitingReset) :
    BusyOk { s with phase := .awaitingFirst } := by
  obtain ⟨-, ⟨hw1, hw2, hl1, hl2, hfree, -, hfresh, -⟩, hslots, -, ⟨ho1, ho2, ho3, -, ho5⟩⟩ := id h
  refine BusyOk.of_surroundings h (sameSurroundings_setPhase s .awaitingFirst) ?_ hslots ⟨ho1, ho2, ho3, nofun, ho5⟩
  refine ⟨hw1, hw2, hl1, hl2, fun _ => hfree (by simp [hp]), nofun, fun _ => hfresh (.inl hp), ?_⟩
  exact fun hst => hst.elim nofun nofun

/-- A code that adds no entry, whose sequence is an entry already: the dictionary stays, and the code becomes the
previous one. -/
theorem BusyOk.of_kept_table {t : State} (h : BusyOk s) (hem : Emitted e s t) (hrem : Remembered c e s t)
    (hsur : SameSurroundings s t) (htable : t.table = s.table) (hcw : t.codeWidth = s.codeWidth)
    (hphase : t.phase = .streaming ∧ s.phase ≠ .tableFull ∨ t.phase = .tableFull ∧ s.phase = .tableFull)
    (hlen : c.toNat < s.table.len) (hcclear : c.toNat ≠ s.clear) (hcend : c.toNat ≠ s.endCode)
    (hslot : s.slot c.toNat = e) (hroom : s.out.len + e.length ≤ s.params.outCap) : BusyOk t := by
  have hclear := clear_of_surroundings hsur
  have hend : t.endCode = s.endCode := congrArg (· + 1) hclear
  have hslots : ∀ i, t.slot i = s.slot i := fun i => by rw [State.slot, State.slot, htable]
  obtain ⟨-, -, ⟨hics, -⟩, -⟩ := id hsur
  have hstart : t.startWidth = s.startWidth := congrArg (· + 1) hics
  obtain ⟨-, ⟨hw1, hw2, hl1, hl2, hfree, hfull, -, -⟩, hold, -, hout⟩ := id h
  have hprev : PrevOk t :=
    PrevOk.of_remembered hrem (by rwa [htable]) (by rwa [hclear]) (by rwa [hend]) ((hslots _).trans hslot)
  have hwidth : WidthOk t := by
    rw [WidthOk, hclear, hstart, htable, hcw]
    refine ⟨hw1, hw2, hl1, hl2, fun hne => ?_, fun heq => ?_, fun hfresh => ?_, fun _ => hprev⟩
    · rcases hphase with ⟨-, hs⟩ | ⟨ht, -⟩
      · exact hfree hs
      · exact absurd ht hne
    · rcases hphase with ⟨ht, -⟩ | ⟨-, hs⟩
      · simp [ht] at heq
      · exact hfull hs
    · rcases hphase with ⟨ht, -⟩ | ⟨ht, -⟩ <;> simp [ht] at hfresh
  have hnew : ∀ i < t.table.len, SlotOk t i := fun i hi =>
    SlotOk.congr (hold i (by rwa [htable] at hi)) hclear (hslots i)
  have hsym : ∀ v ∈ e, v.toNat < s.clear := hslot ▸ SlotOk.symbol_lt_clear (hold _ hlen)
  have hphase : t.phase ≠ .awaitingReset := by
    rcases hphase with ⟨ht, -⟩ | ⟨ht, -⟩ <;> simp [ht]
  exact BusyOk.of_surroundings h hsur hwidth hnew
    (OutputOk.of_emitted hout hem hsur hphase hroom hsym (by rw [htable]) (by rw [htable]))

/-- The first literal fills no slot: it is an entry already, and the previous code from here on. -/
theorem busyOk_firstLiteral (h : BusyOk s) (hp : s.phase = .awaitingFirst) (hc : c.toNat < s.clear)
    (hroom : s.out.len + 1 ≤ s.params.outCap) :
    BusyOk { afterEmit c [literalSymbol c] s with phase := .streaming } := by
  obtain ⟨hemit, hrem, -, -, hsur⟩ := afterEmit_does c [literalSymbol c] s
  have hlen2 := BusyOk.clear_add_two_le h
  obtain ⟨-, -, hslots, -, -⟩ := id h
  have hlit := SlotOk.literal (hslots c.toNat (by omega)) hc
  rw [← literalSymbol_eq] at hlit
  exact BusyOk.of_kept_table h hemit hrem hsur rfl rfl (.inl ⟨rfl, by simp [hp]⟩) (by omega) (by omega)
    (by unfold State.endCode; omega) hlit hroom

/-- A clear in mid-stream leaves the dictionary as `START` made it. -/
theorem busyOk_cleared (h : BusyOk s) : BusyOk (clearDict s) := by
  have hlen2 := BusyOk.clear_add_two_le h
  obtain ⟨⟨h2, h8, hlatch⟩, ⟨hw1, hw2, -, hl2, -⟩, hslots, -, ⟨ho1, ho2, ho3, -, ho5⟩⟩ := id h
  have hfree : s.clear + 2 < 2 ^ (s.ics + 1) := by
    have hpow : 2 ^ 2 ≤ 2 ^ s.ics := Nat.pow_le_pow_right (by decide) h2
    rw [clear_eq_two_pow, Nat.pow_succ]
    omega
  refine BusyOk.of_surroundings h (sameSurroundings_clearDict s)
    ⟨Nat.le_refl _, hw1.trans hw2, Nat.le_refl _, hlen2.trans hl2, fun _ => hfree, nofun,
      fun _ => ⟨rfl, rfl, rfl⟩, fun hst => hst.elim nofun nofun⟩ (fun i hi => ?_) ⟨ho1, ho2, ho3, nofun, ho5⟩
  exact SlotOk.congr (hslots i (lt_of_lt_of_le hi hlen2)) rfl rfl

/-- A code of the full table touches the previous code and the output only. -/
theorem busyOk_emitted (h : BusyOk s) (hp : s.phase = .tableFull) (hr : Resolves c e s)
    (hroom : s.out.len + e.length ≤ s.params.outCap) : BusyOk (afterEmit c e s) := by
  obtain ⟨hemit, hrem, -, -, hsur⟩ := afterEmit_does c e s
  have hlt : c.toNat < s.table.len := (BusyOk.table_full h hp).symm ▸ c.isLt
  obtain ⟨hclear, hend, -⟩ := id hr
  exact BusyOk.of_kept_table h hemit hrem hsur rfl rfl (.inr ⟨hp, hp⟩) hlt hclear hend
    (Resolves.slot_of_lt hr hlt) hroom

/-- The slots after a data code of phase `S`. -/
theorem slot_afterGrow (c : Code) (e new : Entry) (s : State) (i : Nat) :
    (afterGrow c e new s).slot i = if i = s.table.len then new else s.slot i := by
  obtain ⟨-, ⟨-, -, hnew, hold⟩, -⟩ := afterGrow_does c e new s
  split
  · next hi => rw [hi, hnew]
  · next hi => exact hold i hi

/-- The width rule leaves the phase, or enters phase `T`. -/
theorem phase_of_widthStepped {t : State} (h : WidthStepped s t) : t.phase = s.phase ∨ t.phase = .tableFull := by
  unfold WidthStepped at h
  split at h
  · split at h
    · exact .inl h.2
    · exact .inr h.2
  · exact .inl h.2

/-- The width rule keeps the table shorter than the codes can name, until it is full. -/
theorem widthOk_grown {t : State} (h : BusyOk s) (hp : s.phase = .streaming) (hlen : t.table.len = s.table.len + 1)
    (hwidth : WidthStepped s t) (hics : t.ics = s.ics) (hprev : PrevOk t) : WidthOk t := by
  have hclear : t.clear = s.clear := by rw [State.clear, State.clear, hics]
  have hstart : t.startWidth = s.startWidth := congrArg (· + 1) hics
  obtain ⟨-, ⟨hw1, hw2, hl1, -, hfree, -⟩, -⟩ := h
  have hfree : s.table.len < 2 ^ s.codeWidth := hfree (by simp [hp])
  have hpow : 2 ^ s.codeWidth ≤ 2 ^ 12 := Nat.pow_le_pow_right (by decide) hw2
  have hnofresh : ¬ (t.phase = .awaitingReset ∨ t.phase = .awaitingFirst) := by
    rcases phase_of_widthStepped hwidth with hph | hph <;> simp [hph, hp]
  unfold WidthStepped at hwidth
  rw [hlen] at hwidth
  rw [WidthOk, hlen, hclear, hstart]
  split at hwidth
  · next hpower =>
    split at hwidth
    · next hw =>
      obtain ⟨hcw, hph⟩ := hwidth
      rw [hp] at hph
      refine ⟨by omega, by omega, by omega, by omega, fun _ => ?_, ?_, (absurd · hnofresh), fun _ => hprev⟩
      · rw [hcw, Nat.pow_succ]
        omega
      · simp [hph]
    · next hw =>
      obtain ⟨hcw, hph⟩ := hwidth
      have hw12 : s.codeWidth = 12 := by omega
      rw [hw12] at hpower
      exact ⟨by omega, by omega, by omega, by omega, fun hne => absurd hph hne, fun _ => ⟨hpower, hcw.trans hw12⟩,
        (absurd · hnofresh), fun _ => hprev⟩
  · next hpower =>
    obtain ⟨hcw, hph⟩ := hwidth
    rw [hp] at hph
    rw [hcw]
    refine ⟨hw1, hw2, by omega, by omega, fun _ => by omega, ?_, (absurd · hnofresh), fun _ => hprev⟩
    simp [hph]

/-- After a data code of phase `S` its slot holds what it resolved to, whether the slot is old or new. -/
theorem slot_code_grown (h : BusyOk s) (hr : Resolves c e s) :
    (afterGrow c e (prevEntry s ++ e.take 1) s).slot c.toNat = e := by
  rw [slot_afterGrow]
  split
  · next heq => exact Resolves.new_of_eq h hr heq
  · next hne => exact Resolves.slot_of_lt hr (lt_of_le_of_ne (Resolves.le_len hr) hne)

/-- The new entry is one longer than the previous one and made of symbols below `CLEAR` (10_state.md R37 item 6,
43_dictionary_grow.md R101, R102); the old slots stay. -/
theorem slotOk_grown (h : BusyOk s) (hp : s.phase = .streaming) (hr : Resolves c e s) {i : Nat}
    (hi : i < s.table.len + 1) : SlotOk (afterGrow c e (prevEntry s ++ e.take 1) s) i := by
  obtain ⟨-, -, -, -, -, hsur⟩ := afterGrow_does c e (prevEntry s ++ e.take 1) s
  have hclear := clear_of_surroundings hsur
  have hend : (afterGrow c e (prevEntry s ++ e.take 1) s).endCode = s.endCode := congrArg (· + 1) hclear
  by_cases heq : i = s.table.len
  · obtain ⟨hlow, hhigh, hprevsym⟩ := BusyOk.prevEntry_bounds h (.inl hp)
    obtain ⟨x, hx, hxsym⟩ := Resolves.take_one h hr
    have hlen2 := BusyOk.clear_add_two_le h
    have hi1 : ¬ i < s.clear := by omega
    have hi2 : ¬ i ≤ s.endCode := by unfold State.endCode; omega
    rw [SlotOk, slot_afterGrow, if_pos heq, hclear, hend, if_neg hi1, if_neg hi2, hx, List.length_append,
      List.length_singleton]
    refine ⟨by omega, by omega, fun v hv => ?_⟩
    rcases List.mem_append.mp hv with hv | hv
    · exact hprevsym v hv
    · obtain rfl := List.mem_singleton.mp hv
      exact hxsym
  · obtain ⟨-, -, hslots, -, -⟩ := h
    exact SlotOk.congr (hslots i (by omega)) hclear (by rw [slot_afterGrow, if_neg heq])

/-- A data code of phase `S` keeps the invariant, the new entry and the new width included. -/
theorem busyOk_grown (h : BusyOk s) (hp : s.phase = .streaming) (hr : Resolves c e s)
    (hroom : s.out.len + e.length ≤ s.params.outCap) : BusyOk (afterGrow c e (prevEntry s ++ e.take 1) s) := by
  obtain ⟨hemit, ⟨hlen, ⟨-, hcap, -, hfixed⟩, -, -⟩, hwidth, hrem, -, hsur⟩ :=
    afterGrow_does c e (prevEntry s ++ e.take 1) s
  have hclear := clear_of_surroundings hsur
  have hend : (afterGrow c e (prevEntry s ++ e.take 1) s).endCode = s.endCode := congrArg (· + 1) hclear
  obtain ⟨hcclear, hcend, -⟩ := id hr
  have hprev : PrevOk (afterGrow c e (prevEntry s ++ e.take 1) s) :=
    PrevOk.of_remembered hrem (by rw [hlen]; exact Nat.lt_succ_of_le (Resolves.le_len hr)) (by rwa [hclear])
      (by rwa [hend]) (slot_code_grown h hr)
  obtain ⟨-, -, ⟨hics, -⟩, -⟩ := id hsur
  have hphase : (afterGrow c e (prevEntry s ++ e.take 1) s).phase ≠ .awaitingReset := by
    rcases phase_of_widthStepped hwidth with hph | hph <;> simp [hph, hp]
  obtain ⟨-, -, -, -, hout⟩ := id h
  exact BusyOk.of_surroundings h hsur (widthOk_grown h hp hlen hwidth hics hprev)
    (fun i hi => slotOk_grown h hp hr (by rwa [hlen] at hi))
    (OutputOk.of_emitted hout hemit hsur hphase hroom (Resolves.symbol_lt_clear h hr) hcap hfixed)

end

end Sys2Proof.Machine
end

section
/-! The obligations on the invariant (10_state.md R37): every move keeps it, and from it no move of the core gets
stuck. -/

namespace Sys2Proof.Machine

section
variable {s t : State}

/-! ### The moves of the core -/

/-- An outcome after which the decode goes on keeps the invariant of a running decode. -/
theorem Effect.keeps_busyOk {c : Code} (h : BusyOk s) (heffect : Effect c s t) (hb : t.run = .busy) : BusyOk t := by
  cases heffect with
  | leadingClear hp hc => exact busyOk_leadingClear h hp
  | firstLiteral hp hc hroom => exact busyOk_firstLiteral h hp hc hroom
  | cleared hp hc => exact busyOk_cleared h
  | grown hp hr hroom => exact busyOk_grown h hp hr hroom
  | emitted hp hr hroom => exact busyOk_emitted h hp hr hroom
  | noLeadingClear | firstOverflow | firstIllegal | overflow | invalid => cases hb
  | firstEnd | ended => cases hb

/-- The status of a running decode is judged by what surrounds its working state. -/
theorem StatusOk.of_surroundings (h : StatusOk s) (hb : s.run = .busy) (hsur : SameSurroundings s t) : StatusOk t := by
  obtain ⟨herr, hzero, -, -, hlen⟩ := h
  obtain ⟨⟨hparams, -, hrLen, -⟩, -, -, ⟨hrun, herr', hout⟩, -⟩ := hsur
  rw [StatusOk, hrun, herr', hout, hrLen, hparams]
  exact ⟨herr, hzero, by simp [hb], by simp [hb], hlen⟩

theorem inv_raiseError (h : Inv s) (e : DecodeError) : Inv (raiseError e s) := by
  obtain ⟨hparams, hstores, ⟨-, -, -, -, hlen⟩, -⟩ := h
  exact ⟨hparams, storesOk_raiseError hstores e, ⟨⟨fun _ => rfl, fun _ => rfl⟩, fun _ => rfl, nofun, nofun, hlen⟩,
    nofun⟩

/-- `OUT_LEN` fits its register, because the output is within `OUT_CAP` (10_state.md R36). -/
theorem out_len_fits (h : Inv s) (hb : s.run = .busy) :
    (BitVec.ofNat 32 s.out.len).toNat = s.out.len ∧ s.out.len ≤ s.params.outCap := by
  obtain ⟨⟨-, -, hcap, -⟩, -, -, hok⟩ := h
  obtain ⟨-, -, -, -, ⟨hout, -⟩⟩ := hok hb
  exact ⟨Nat.mod_eq_of_lt (hout.trans_lt hcap), hout⟩

theorem inv_finishDecode (h : Inv s) (hb : s.run = .busy) : Inv (finishDecode s) := by
  have hout := out_len_fits h hb
  obtain ⟨hparams, hstores, ⟨-, -, -, -, hlen⟩, -⟩ := h
  exact ⟨hparams, storesOk_finishDecode hstores, ⟨⟨nofun, nofun⟩, fun hne => absurd rfl hne, fun _ => hout, nofun,
    hlen⟩, nofun⟩

/-- A fetch that is not truncated leaves the cursor inside the input. -/
theorem inv_fetched (h : Inv s) (hb : s.run = .busy) (ht : s.truncated = false) : Inv (fetched s) := by
  obtain ⟨hparams, hstores, hstatus, hok⟩ := h
  obtain ⟨hlatch, hwidth, hslots, -, hout⟩ := hok hb
  refine ⟨hparams, hstores, hstatus, fun _ => ⟨hlatch, hwidth, hslots, ⟨Nat.mod_lt _ (by decide), ?_⟩, hout⟩⟩
  rw [fetched_bitPos]
  exact (truncated_eq_false_iff s).mp ht

/-- From the invariant a code step completes: it is truncated, or it is an outcome of the code it fetches. -/
theorem codeStep_effect (h : Inv s) (hb : s.run = .busy) :
    (s.truncated = true ∧ codeStep s = .next (raiseError .truncatedStream s)) ∨
      (s.truncated = false ∧ ∃ t, codeStep s = .next t ∧ Effect (fetched s).codeReg (fetched s) t) := by
  rcases codeStep_cases s with htrunc | ⟨hfetch, hstep⟩
  · exact .inl htrunc
  · obtain ⟨-, -, -, hok⟩ := inv_fetched h hb hfetch
    rw [hstep]
    exact .inr ⟨hfetch, exec_effect (hok hb) _⟩

theorem inv_classified {c : Code} (h : Inv s) (hb : s.run = .busy) (hexec : exec (classify s.ctx c) s = .next t) :
    Inv t := by
  rcases classified_surroundings hexec with ⟨e, rfl⟩ | rfl | ⟨hsur, hkeep⟩
  · exact inv_raiseError h e
  · exact inv_finishDecode h hb
  · obtain ⟨hparams, hstores, hstatus, hok⟩ := h
    have hstatus' := StatusOk.of_surroundings hstatus hb hsur
    obtain ⟨⟨hparams', -⟩, -⟩ := hsur
    exact ⟨hparams' ▸ hparams, hkeep hstores, hstatus', Effect.keeps_busyOk (hok hb) (effect_of_exec (hok hb) hexec)⟩

theorem inv_codeStep (h : Inv s) (hb : s.run = .busy) (hstep : codeStep s = .next t) : Inv t := by
  rcases codeStep_cases s with ⟨-, htrunc⟩ | ⟨hfetch, hexec⟩
  · cases htrunc.symm.trans hstep
    exact inv_raiseError h _
  · exact inv_classified (inv_fetched h hb hfetch) hb (hexec.symm.trans hstep)

theorem inv_coreTurn (h : Inv s) (hstep : coreTurn s = .next t) : Inv t := by
  unfold coreTurn at hstep
  split at hstep
  · next hb => exact inv_codeStep h hb hstep
  · cases hstep
    exact h

/-! ### The moves of the host -/

/-- A decode begins as the invariant has it (10_state.md R38). -/
theorem busyOk_started (hi : s.icsWritten = true) (hl : s.inLenWritten = true) (h2 : 2 ≤ s.hrIcs.toNat)
    (h8 : s.hrIcs.toNat ≤ 8) : BusyOk (started s) := by
  have hclear : (started s).clear = 2 ^ s.hrIcs.toNat := clear_eq_two_pow (started s)
  have hlen : (started s).table.len = (started s).clear + 2 := by rw [started_table_len, hclear]
  have hlow : 2 ^ 2 ≤ 2 ^ s.hrIcs.toNat := Nat.pow_le_pow_right (by decide) h2
  have hhigh : 2 ^ s.hrIcs.toNat ≤ 2 ^ 8 := Nat.pow_le_pow_right (by decide) h8
  have hfree : (started s).table.len < 2 ^ (s.hrIcs.toNat + 1) := by
    rw [hlen, hclear, Nat.pow_succ]
    omega
  refine ⟨⟨h2, h8, rfl, rfl, hi, hl⟩, ⟨Nat.le_refl _, by rw [started_codeWidth]; omega, hlen.ge, by omega,
    fun _ => hfree, nofun, fun _ => ⟨hlen, rfl, rfl⟩, fun hst => hst.elim nofun nofun⟩, fun i hi => ?_,
    ⟨Nat.zero_lt_succ 7, Nat.zero_le _⟩, ⟨Nat.zero_le _, rfl, rfl, fun _ => rfl, nofun, rfl, rfl⟩⟩
  rw [SlotOk, started_slot, ← hclear]
  split
  · rfl
  · next hge =>
    have hend : i ≤ (started s).endCode := by unfold State.endCode; omega
    rw [if_pos hend]

theorem inv_start (h : Inv s) (hexec : exec .start s = .next t) : Inv t := by
  rcases exec_start_next hexec with ⟨-, rfl⟩ | ⟨-, hi, hl, h2, h8, rfl⟩
  · exact h
  · obtain ⟨hparams, hstores, ⟨-, -, -, -, hlen⟩, -⟩ := h
    exact ⟨hparams, storesOk_started hstores, ⟨⟨nofun, nofun⟩, fun _ => rfl, nofun, nofun, hlen⟩,
      fun _ => busyOk_started hi hl h2 h8⟩

theorem inv_writeReg {n v : Nat} (h : Inv s) (hstep : writeReg n v s = .next t) : Inv t := by
  match n with
  | 0 =>
    rcases Nat.mod_two_eq_zero_or_one v with hv | hv
    · rw [writeReg_no_command hv] at hstep
      cases hstep
      exact h
    · rw [writeReg_command hv] at hstep
      exact inv_start h hstep
  | 1 | 4 =>
    cases hstep
    exact h
  | 2 =>
    by_cases hb : s.run = .busy
    · rw [writeReg_of_busy (.inl rfl) hb] at hstep
      cases hstep
      exact h
    · rw [writeReg_ics hb] at hstep
      cases hstep
      obtain ⟨hparams, hstores, hstatus, -⟩ := h
      exact ⟨hparams, hstores, hstatus, (absurd · hb)⟩
  | 3 =>
    by_cases hb : s.run = .busy
    · rw [writeReg_of_busy (.inr rfl) hb] at hstep
      cases hstep
      exact h
    · rw [writeReg_inLen hb] at hstep
      cases hstep
      obtain ⟨hparams, hstores, ⟨herr, hzero, hdone, hidle, -⟩, -⟩ := h
      exact ⟨hparams, hstores, ⟨herr, hzero, hdone, hidle, Nat.mod_lt _ (Nat.two_pow_pos _)⟩, (absurd · hb)⟩
  | _ + 5 => cases hstep

/-- Neither what the host read nor the counter of free values is part of the invariant. -/
theorem inv_setHostData (h : Inv s) (d k : Nat) : Inv { s with hostData := d, freeCtr := k } := h

theorem inv_readReg {n : Nat} (h : Inv s) (hstep : readReg n s = .next t) : Inv t := by
  rcases Nat.lt_or_ge n 5 with hn | hn
  · by_cases hb : n = 4 ∧ s.run = .busy
    · obtain ⟨rfl, hb⟩ := hb
      have hread : readReg 4 s = .next (readUnspecified 32 s) := if_pos hb
      cases hread.symm.trans hstep
      exact inv_setHostData h _ _
    · cases (readReg_value hn hb).symm.trans hstep
      exact inv_setHostData h _ _
  · cases (readReg_none hn).symm.trans hstep

theorem inv_writeIn {a : Nat} {v : Byte} (h : Inv s) (hstep : writeIn a v s = .next t) : Inv t := by
  unfold writeIn at hstep
  split at hstep
  · cases hstep
  next hb =>
  split at hstep
  · cases hstep
    obtain ⟨hparams, ⟨hinput, hstores⟩, hstatus, -⟩ := h
    exact ⟨hparams, ⟨Memory.wf_write _ _ _ _ hinput, hstores⟩, hstatus, (absurd · hb)⟩
  · cases hstep

theorem inv_readOut {i : Nat} (h : Inv s) (hstep : readOut i s = .next t) : Inv t := by
  unfold readOut at hstep
  split at hstep
  · cases hstep
  split at hstep
  · cases hstep
    exact inv_setHostData h _ _
  · cases hstep
    exact inv_setHostData h _ _

/-- A hardware reset gives the state of `resetMeetsTheInvariant`, with the machine's own parameters. -/
theorem inv_hardReset (h : Inv s) : Inv (hardReset s) := by
  obtain ⟨-, hstores, ⟨herr, hzero, hdone, hidle, -⟩, -⟩ := resetMeetsTheInvariant
  obtain ⟨hparams, -⟩ := h
  exact ⟨hparams, hstores, ⟨herr, hzero, nofun, hidle, Nat.two_pow_pos _⟩, nofun⟩

theorem inv_hostAccess {a : HostAccess} (h : Inv s) (hstep : hostAccess a s = .next t) : Inv t := by
  cases a with
  | writeReg n v => exact inv_writeReg h hstep
  | readReg n => exact inv_readReg h hstep
  | writeIn i v => exact inv_writeIn h hstep
  | readOut i => exact inv_readOut h hstep
  | hardReset =>
    cases hstep
    exact inv_hardReset h

/-- The turns to come are no part of the invariant. -/
theorem inv_setAgenda (h : Inv s) (a : List Turn) : Inv { s with agenda := a } := h

end

/-- Settles O41: the move is the core's or one access of the host, and each of them keeps the invariant. -/
theorem everyStepKeepsTheInvariant : Obligations.EveryStepKeepsTheInvariant := by
  intro s t h hstep
  cases ha : s.agenda with
  | nil =>
    rw [step_of_nothing_listed ha] at hstep
    exact inv_coreTurn h hstep
  | cons turn rest =>
    cases turn with
    | core =>
      rw [step_of_core_listed ha] at hstep
      exact inv_coreTurn (inv_setAgenda h rest) hstep
    | host a =>
      rw [step_of_host_listed ha] at hstep
      exact inv_hostAccess (inv_setAgenda h rest) hstep

/-- From the invariant the core's move completes. -/
theorem coreTurn_completes {s : State} (h : Inv s) : ∃ t, coreTurn s = .next t := by
  by_cases hb : s.run = .busy
  · have hturn : coreTurn s = codeStep s := if_pos hb
    rw [hturn]
    rcases codeStep_effect h hb with ⟨-, htrunc⟩ | ⟨-, t, hstep, -⟩
    · exact ⟨_, htrunc⟩
    · exact ⟨t, hstep⟩
  · exact ⟨s, coreTurn_of_not_busy hb⟩

/-- Settles O42: a code step is truncated or one of the outcomes of `Effect`, none of which is a stop. -/
theorem coreNeverGetsStuck : Obligations.CoreNeverGetsStuck := by
  intro s rest h ha
  rcases ha with ha | ha
  · rw [step_of_nothing_listed ha]
    exact coreTurn_completes h
  · rw [step_of_core_listed ha]
    exact coreTurn_completes (inv_setAgenda h rest)

end Sys2Proof.Machine
end

section
/-! The obligations on a step of the core that goes on: what it leaves, and how the table, the output and the phase move
(10_state.md R16, R20, R24; 20_memory.md R41, R42; 43_dictionary_grow.md R100), and the end of every decode
(41_bit_unpacker.md R78). -/

namespace Sys2Proof.Machine

section
variable {s t : State}

/-! ### The step of a core with nothing listed -/

/-- Everything a step of the core can be: rest, a truncated fetch, or the action of the fetched code. -/
theorem step_next (ha : s.agenda = []) (h : step s = .next t) :
    (s.run ≠ .busy ∧ t = s) ∨ (s.run = .busy ∧ t = raiseError .truncatedStream s) ∨
      (s.run = .busy ∧ s.truncated = false ∧
        exec (classify (fetched s).ctx (fetched s).codeReg) (fetched s) = .next t) := by
  rw [step_of_nothing_listed ha] at h
  by_cases hb : s.run = .busy
  · have hturn : coreTurn s = codeStep s := if_pos hb
    rw [hturn] at h
    rcases codeStep_cases s with ⟨-, htrunc⟩ | ⟨hfetch, hexec⟩
    · cases htrunc.symm.trans h
      exact .inr (.inl ⟨hb, rfl⟩)
    · exact .inr (.inr ⟨hb, hfetch, hexec.symm.trans h⟩)
  · cases (coreTurn_of_not_busy hb).symm.trans h
    exact .inl ⟨hb, rfl⟩

/-- A step after which the decode goes on is the action of the fetched code. -/
theorem exec_of_step_busy (ha : s.agenda = []) (h : step s = .next t) (hb : t.run = .busy) :
    s.truncated = false ∧ exec (classify (fetched s).ctx (fetched s).codeReg) (fetched s) = .next t := by
  rcases step_next ha h with ⟨hidle, rfl⟩ | ⟨-, rfl⟩ | ⟨-, hfetch, hexec⟩
  · exact absurd hb hidle
  · cases hb
  · exact ⟨hfetch, hexec⟩

/-- Under the invariant it is one of the outcomes of that code, from a state the fetch leaves in order. -/
theorem effect_of_step_busy (h : Inv s) (hs : s.run = .busy) (ha : s.agenda = []) (hstep : step s = .next t)
    (hb : t.run = .busy) : BusyOk (fetched s) ∧ Effect (fetched s).codeReg (fetched s) t := by
  obtain ⟨hfetch, hexec⟩ := exec_of_step_busy ha hstep hb
  obtain ⟨-, -, -, hok⟩ := inv_fetched h hs hfetch
  exact ⟨hok hs, effect_of_exec (hok hs) hexec⟩

/-- Settles O47: an error and an end leave the host's registers and `IN`, and so does every code that goes on, because
they surround the decoder's working state. -/
theorem coreNeverWritesItsInput : Obligations.CoreNeverWritesItsInput := by
  intro s t ha hstep
  rcases step_next ha hstep with ⟨-, rfl⟩ | ⟨-, rfl⟩ | ⟨-, -, hexec⟩
  · exact ⟨⟨rfl, rfl, rfl, rfl, rfl, rfl, rfl⟩, fun _ => rfl⟩
  · obtain ⟨-, -, -, -, -, -, -, hhost, hinput⟩ := endedInError_raiseError .truncatedStream s
    exact ⟨hhost, hinput⟩
  · rcases classified_surroundings hexec with ⟨e, rfl⟩ | rfl | ⟨⟨hhost, hinput, -⟩, -⟩
    · obtain ⟨-, -, -, -, -, -, -, hhost, hinput⟩ := endedInError_raiseError e (fetched s)
      exact ⟨hhost, hinput⟩
    · obtain ⟨-, -, -, -, -, -, -, hhost, hinput⟩ := endedWell_finishDecode (fetched s)
      exact ⟨hhost, hinput⟩
    · exact ⟨hhost, hinput⟩

/-! ### The output and the table -/

/-- The output after a data code. -/
theorem outSeq_afterEmit (c : Code) (e : Entry) (s : State) : (afterEmit c e s).outSeq = s.outSeq ++ e := by
  simp [afterEmit]

theorem outSeq_afterGrow (c : Code) (e new : Entry) (s : State) : (afterGrow c e new s).outSeq = s.outSeq ++ e := by
  simp [afterGrow]

@[simp] theorem length_outSeq (s : State) : s.outSeq.length = s.out.len := Buffer.length_seq _ _

/-- An outcome that goes on appends to the output what the code resolves to, or nothing. -/
theorem Effect.outSeq {c : Code} (h : BusyOk s) (heffect : Effect c s t) (hb : t.run = .busy) :
    ∃ xs, t.outSeq = s.outSeq ++ xs ∧ s.out.len + xs.length ≤ s.params.outCap ∧ ∀ v ∈ xs, v.toNat < s.clear := by
  obtain ⟨-, -, hslots, -, ⟨hcap, -⟩⟩ := id h
  have hlen2 := BusyOk.clear_add_two_le h
  cases heffect with
  | leadingClear | cleared => exact ⟨[], (List.append_nil _).symm, hcap, nofun⟩
  | firstLiteral hp hc hroom =>
    have hlit := SlotOk.literal (hslots c.toNat (by omega)) hc
    rw [← literalSymbol_eq] at hlit
    exact ⟨_, outSeq_afterEmit c _ s, hroom, hlit ▸ SlotOk.symbol_lt_clear (hslots c.toNat (by omega))⟩
  | grown hp hr hroom => exact ⟨_, outSeq_afterGrow c _ _ s, hroom, Resolves.symbol_lt_clear h hr⟩
  | emitted hp hr hroom => exact ⟨_, outSeq_afterEmit c _ s, hroom, Resolves.symbol_lt_clear h hr⟩
  | noLeadingClear | firstOverflow | firstIllegal | overflow | invalid => cases hb
  | firstEnd | ended => cases hb

/-- Settles O48: a fetch does not touch the output, and each outcome that goes on appends to it within `OUT_CAP`. -/
theorem outputIsOnlyAppendedTo : Obligations.OutputIsOnlyAppendedTo := by
  intro s t h hs ha hstep hb
  obtain ⟨hok, heffect⟩ := effect_of_step_busy h hs ha hstep hb
  obtain ⟨xs, hseq, hroom, hsym⟩ := Effect.outSeq hok heffect hb
  rw [fetched_outSeq] at hseq
  refine ⟨xs, hseq, ?_, hsym⟩
  rw [hseq, List.length_append, length_outSeq]
  exact hroom

/-- An outcome that goes on leaves every slot that is part of the table before and after; the table is as it was, one
entry longer, or truncated. -/
theorem Effect.table {c : Code} (heffect : Effect c s t) (hb : t.run = .busy) :
    (∀ i < s.table.len, t.slot i = s.slot i) ∧
      (t.table.len = s.table.len ∨ t.table.len = s.table.len + 1 ∨ t.table.len = s.clear + 2) := by
  cases heffect with
  | leadingClear | firstLiteral | emitted => exact ⟨fun _ _ => rfl, .inl rfl⟩
  | cleared => exact ⟨fun _ _ => rfl, .inr (.inr rfl)⟩
  | @grown e hp hr hroom =>
    refine ⟨fun i hi => ?_, .inr (.inl ?_)⟩
    · rw [slot_afterGrow, if_neg hi.ne]
    · obtain ⟨-, ⟨hlen, -⟩, -⟩ := afterGrow_does c e (prevEntry s ++ e.take 1) s
      exact hlen
  | noLeadingClear | firstOverflow | firstIllegal | overflow | invalid => cases hb
  | firstEnd | ended => cases hb

/-- Settles O49: a fetch does not touch the table, and of the outcomes that go on one writes a slot, behind the end. -/
theorem entriesAreNeverModified : Obligations.EntriesAreNeverModified := by
  intro s t h hs ha hstep hb
  obtain ⟨-, heffect⟩ := effect_of_step_busy h hs ha hstep hb
  obtain ⟨hslots, hlen⟩ := Effect.table heffect hb
  exact ⟨fun i hi _ => hslots i hi, hlen⟩

/-! ### The phase -/

/-- Settles O50: in phase `T` a code that goes on is a clear or emits only. -/
theorem fullTableIsLeftByClearOnly : Obligations.FullTableIsLeftByClearOnly := by
  intro s t hfull ha hstep hb
  obtain ⟨-, hexec⟩ := exec_of_step_busy ha hstep hb
  rcases classified_next hexec with ⟨e, rfl⟩ | rfl | ⟨hp, -⟩ | ⟨hp, -⟩ | ⟨-, hc, rfl⟩ | ⟨hp, -⟩ |
    ⟨-, -, -, e, -, rfl, -⟩
  · cases hb
  · cases hb
  · cases hfull.symm.trans hp
  · cases hfull.symm.trans hp
  · exact .inr ⟨rfl, hc, rfl, rfl⟩
  · cases hfull.symm.trans hp
  · exact .inl ⟨hfull, rfl, rfl⟩

/-- The width rule enters phase `T` at the last power of the width only. -/
theorem len_of_enters_full (h : WidthStepped s t) (ht : t.phase = .tableFull) (hs : s.phase ≠ .tableFull) :
    t.table.len = 2 ^ s.codeWidth ∧ 12 ≤ s.codeWidth := by
  unfold WidthStepped at h
  split at h
  · next hpower =>
    split at h
    · exact absurd (h.2.symm.trans ht) hs
    · next hw => exact ⟨hpower, Nat.not_lt.mp hw⟩
  · exact absurd (h.2.symm.trans ht) hs

/-- Settles O51: each code that goes on belongs to one phase, and the width rule alone enters phase `T`. -/
theorem phaseMovesAsTheTableSays : Obligations.PhaseMovesAsTheTableSays := by
  intro s t _ ha hstep hb
  obtain ⟨-, hexec⟩ := exec_of_step_busy ha hstep hb
  rcases classified_next hexec with ⟨e, rfl⟩ | rfl | ⟨hp, -, rfl⟩ | ⟨hp, -, -, rfl⟩ | ⟨hp, -, rfl⟩ |
    ⟨hp, -, -, -, e, x, ⟨p, q, qs, -, -, -, -, -, rfl⟩, -⟩ | ⟨hp, -, -, e, -, rfl, -⟩
  · cases hb
  · cases hb
  · replace hp : s.phase = .awaitingReset := hp
    simp [hp]
  · replace hp : s.phase = .awaitingFirst := hp
    simp [hp]
  · replace hp : s.phase = .streaming ∨ s.phase = .tableFull := hp
    rcases hp with hp | hp <;> simp [hp]
  · replace hp : s.phase = .streaming := hp
    obtain ⟨-, -, hwidth, -⟩ := afterGrow_does (fetched s).codeReg e (q :: qs ++ [x]) (fetched s)
    have hmove := phase_of_widthStepped hwidth
    rw [fetched_phase, hp] at hmove
    refine ⟨by simp [hp], by simp [hp], fun _ => hmove.imp_right .inl, by simp [hp], fun ht hs => ?_⟩
    exact len_of_enters_full hwidth ht hs
  · replace hp : s.phase = .tableFull := hp
    simp [hp, afterEmit]

/-! ### The end of every decode -/

/-- A step after which the decode goes on leaves everything outside the working state as the fetch left it. -/
theorem surroundings_of_step_busy (ha : s.agenda = []) (hstep : step s = .next t) (hb : t.run = .busy) :
    SameSurroundings (fetched s) t := by
  obtain ⟨-, hexec⟩ := exec_of_step_busy ha hstep hb
  rcases classified_surroundings hexec with ⟨e, rfl⟩ | rfl | ⟨hsur, -⟩
  · cases hb
  · cases hb
  · exact hsur

/-- The bits that remain (41_bit_unpacker.md R78). -/
def State.bitsLeft (s : State) : Nat := 8 * s.inLen - s.bitPos

/-- A step after which the decode goes on consumes at least three bits (41_bit_unpacker.md R78, 10_state.md R12). -/
theorem bitsLeft_of_step_busy (h : Inv s) (hs : s.run = .busy) (ha : s.agenda = []) (hstep : step s = .next t)
    (hb : t.run = .busy) : t.bitsLeft + 3 ≤ s.bitsLeft := by
  obtain ⟨hfetch, -⟩ := exec_of_step_busy ha hstep hb
  obtain ⟨-, -, ⟨-, hlen⟩, -, ⟨hbyte, hbit, -⟩, -⟩ := surroundings_of_step_busy ha hstep hb
  have hpos : t.bitPos = s.bitPos + s.codeWidth := by
    rw [← fetched_bitPos, State.bitPos, State.bitPos, hbyte, hbit]
  have hroom := (truncated_eq_false_iff s).mp hfetch
  obtain ⟨-, -, -, hok⟩ := h
  obtain ⟨⟨h2, -⟩, ⟨hwidth, -⟩, -⟩ := hok hs
  unfold State.startWidth at hwidth
  rw [State.bitsLeft, State.bitsLeft, hlen, hpos, fetched_inLen]
  omega

/-- A step of the core leaves nothing listed where nothing was. -/
theorem agenda_of_step (ha : s.agenda = []) (hstep : step s = .next t) : t.agenda = [] := by
  obtain ⟨⟨-, -, -, -, -, hagenda, -⟩, -⟩ := coreNeverWritesItsInput s t ha hstep
  exact hagenda.trans ha

/-- A decode with fewer than `3 * n` bits left has ended after `n` steps. -/
theorem run_ends {n : Nat} (h : Inv s) (hs : s.run = .busy) (ha : s.agenda = []) (hn : s.bitsLeft < 3 * n) :
    ∃ t, Host.Core.run Sys2Proof.core n s = .next t ∧ t.run ≠ .busy := by
  induction n generalizing s with
  | zero => exact absurd hn (Nat.not_lt_zero _)
  | succ n ih =>
    obtain ⟨t, hstep⟩ := coreNeverGetsStuck s [] h (.inl ha)
    have ht := agenda_of_step ha hstep
    rw [run_of_next hstep]
    by_cases hb : t.run = .busy
    · have hless := bitsLeft_of_step_busy h hs ha hstep hb
      exact ih (everyStepKeepsTheInvariant s t h hstep) hb ht (by omega)
    · exact ⟨t, run_of_not_busy ht hb n, hb⟩

end

/-- Settles O43: each step that goes on takes three of the bits that remain. -/
theorem everyDecodeEnds : Obligations.EveryDecodeEnds := by
  intro s h hs ha
  have hn : s.bitsLeft < 3 * (s.bitsLeft / 3 + 1) := by omega
  obtain ⟨t, hrun, hend⟩ := run_ends h hs ha hn
  exact ⟨s.bitsLeft / 3 + 1, t, Nat.le_refl _, hrun, hend⟩

end Sys2Proof.Machine
end

section
/-! The collation listing of 45_host_operations.md: what its turn does, case by case, and what it reads of a state. -/

namespace Sys2Proof.Machine

/-! ### A turn of the listing -/

section
variable {d : ListingInput} {l : Listing} {c : Nat} {e : Entry}

theorem act_awaitingReset (hp : l.phase = .awaitingReset) :
    d.act l c =
      if c ≠ 2 ^ d.ics then .raised .expectedInitialClear else .goOn { l with phase := .awaitingFirst } := by
  simp only [ListingInput.act, hp]

theorem act_awaitingFirst (hp : l.phase = .awaitingFirst) :
    d.act l c =
      if c < 2 ^ d.ics then
        d.emit l [BitVec.ofNat 16 c] fun l => .goOn { l with prev := some c, phase := .streaming }
      else if c = 2 ^ d.ics + 1 ∧ d.endAfterClear = .accept then .returned l.out
      else .raised .firstCodeNotLiteral := by
  simp only [ListingInput.act, hp]

theorem act_end (hp : l.phase = .streaming ∨ l.phase = .tableFull) (hc : c = 2 ^ d.ics + 1) :
    d.act l c = .returned l.out := by
  rcases hp with hp | hp <;> simp only [ListingInput.act, hp, if_pos hc]

theorem act_clear (hp : l.phase = .streaming ∨ l.phase = .tableFull) (hc : c = 2 ^ d.ics) :
    d.act l c = .goOn { l with
      table := l.table.take (2 ^ d.ics + 2), width := d.ics + 1, prev := none, phase := .awaitingFirst } := by
  have hend : c ≠ 2 ^ d.ics + 1 := by omega
  rcases hp with hp | hp <;> simp only [ListingInput.act, hp, if_neg hend, if_pos hc]

/-- A code below the end of the table stands for the entry it names. -/
theorem act_entry (hp : l.phase = .streaming ∨ l.phase = .tableFull) (hclear : c ≠ 2 ^ d.ics)
    (hend : c ≠ 2 ^ d.ics + 1) (hc : c < l.table.length) : d.act l c = d.data l c (l.table.getD c []) := by
  rcases hp with hp | hp <;> simp only [ListingInput.act, hp, if_neg hend, if_neg hclear, if_pos hc]

/-- A code at the end of the table stands for the entry it makes. -/
theorem act_new (hp : l.phase = .streaming) (hclear : c ≠ 2 ^ d.ics) (hend : c ≠ 2 ^ d.ics + 1)
    (hc : c = l.table.length) :
    d.act l c =
      d.data l c (l.table.getD (l.prev.getD 0) [] ++ (l.table.getD (l.prev.getD 0) []).take 1) := by
  simp only [ListingInput.act, hp, if_neg hend, if_neg hclear, if_neg hc.not_lt, if_pos hc]

theorem act_invalid (hp : l.phase = .streaming) (hclear : c ≠ 2 ^ d.ics) (hend : c ≠ 2 ^ d.ics + 1)
    (hc : l.table.length < c) : d.act l c = .raised .invalidCode := by
  simp only [ListingInput.act, hp, if_neg hend, if_neg hclear, if_neg hc.not_gt, if_neg hc.ne']

theorem listing_emit_fits {k : Listing → ListingEnd} (h : l.out.length + e.length ≤ d.outCap) :
    d.emit l e k = k { l with out := l.out ++ e } := if_neg h.not_gt

theorem listing_emit_overflow {k : Listing → ListingEnd} (h : d.outCap < l.out.length + e.length) :
    d.emit l e k = .raised .allocationError := if_pos h

theorem data_overflow (h : d.outCap < l.out.length + e.length) : d.data l c e = .raised .allocationError :=
  listing_emit_overflow h

/-- In phase `T` the sequence is emitted and the code remembered. -/
theorem data_full (hp : l.phase = .tableFull) (h : l.out.length + e.length ≤ d.outCap) :
    d.data l c e = .goOn { l with out := l.out ++ e, prev := some c } := by
  rw [ListingInput.data, listing_emit_fits h]
  simp [hp]

/-- In phase `S` the table grows too, and the width rule is applied. -/
theorem data_streaming (hp : l.phase = .streaming) (h : l.out.length + e.length ≤ d.outCap) :
    d.data l c e =
      let grown : Listing :=
        { l with
          out := l.out ++ e, prev := some c, table := l.table ++ [l.table.getD (l.prev.getD 0) [] ++ e.take 1] }
      if l.table.length + 1 = 2 ^ l.width then
        if l.width < 12 then .goOn { grown with width := l.width + 1 } else .goOn { grown with phase := .tableFull }
      else .goOn grown := by
  rw [ListingInput.data, listing_emit_fits h]
  simp [hp]

end

/-! ### The listing's variables in a state -/

section
variable (s : State)

@[simp] theorem length_listing_table : s.listing.table.length = s.table.len := by simp [State.listing]

theorem length_listing_out : s.listing.out.length = s.out.len := length_outSeq s

/-- The table of the listing holds the slots of the state. -/
theorem getD_listing_table {i : Nat} (h : i < s.table.len) : s.listing.table.getD i [] = s.slot i := by
  simp [State.listing, h]

/-- `CLEAR` of the listing. -/
theorem listingInput_clear : 2 ^ s.listingInput.ics = s.clear := (clear_eq_two_pow s).symm

theorem listing_fetched : (fetched s).listing = { s.listing with pos := s.bitPos + s.codeWidth } := by
  rw [← fetched_bitPos]
  rfl

theorem listingInput_fetched : (fetched s).listingInput = s.listingInput := rfl

/-- Truncating the table is truncating the list. -/
theorem listing_table_take {n : Nat} (h : n ≤ s.table.len) :
    s.listing.table.take n = (List.range n).map s.slot := by
  rw [State.listing, ← List.map_take, List.take_range, Nat.min_eq_left h]

variable (c : Code) (e new : Entry)

theorem listing_afterEmit :
    (afterEmit c e s).listing = { s.listing with out := s.listing.out ++ e, prev := some c.toNat } := by
  have hout : (afterEmit c e s).listing.out = s.listing.out ++ e := outSeq_afterEmit c e s
  rw [← hout]
  rfl

/-- Adding an entry is appending to the list. -/
theorem listing_table_afterGrow : (afterGrow c e new s).listing.table = s.listing.table ++ [new] := by
  obtain ⟨-, ⟨hlen, -⟩, -⟩ := afterGrow_does c e new s
  have hold : (List.range s.table.len).map (afterGrow c e new s).slot = (List.range s.table.len).map s.slot := by
    refine List.map_congr_left fun i hi => ?_
    rw [slot_afterGrow, if_neg (List.mem_range.mp hi).ne]
  rw [State.listing, State.listing, hlen, List.range_succ, List.map_append, hold, List.map_singleton, slot_afterGrow,
    if_pos rfl]

@[simp] theorem afterGrow_bitPos : (afterGrow c e new s).bitPos = s.bitPos := by simp [afterGrow]

theorem listing_afterGrow :
    (afterGrow c e new s).listing =
      { pos := s.bitPos
        width := (afterGrow c e new s).codeWidth
        phase := (afterGrow c e new s).phase
        table := s.listing.table ++ [new]
        prev := some c.toNat
        out := s.listing.out ++ e } := by
  have hout : (afterGrow c e new s).outSeq = s.listing.out ++ e := outSeq_afterGrow c e new s
  rw [← hout, ← afterGrow_bitPos s c e new, ← listing_table_afterGrow s c e]
  rfl

end

end Sys2Proof.Machine
end

section
/-! The obligations that compare the machine with the collation listing (45_host_operations.md R114, R117). -/

namespace Sys2Proof.Machine

section
variable {s t : State}

/-! ### The action of a code and the listing's tests -/

/-- Bit `k` of the whole input is bit `k mod 8` of byte `k div 8` (20_memory.md R44). -/
theorem testBit_number {k : Nat} (hk : k < 8 * s.inLen) :
    s.listingInput.number.testBit k = (s.inByte (k / 8)).getLsbD (k % 8) := by
  have hbyte : k / 8 < s.inLen := by omega
  rw [State.listingInput, testBit_littleEndian]
  simp [hbyte]

/-- The code the listing shifts out of the whole input is the code the fetch assembles (20_memory.md R44,
41_bit_unpacker.md R74). -/
theorem listing_code (ho : s.bitOff < 8) (hw : s.codeWidth ≤ 12) (hbits : s.bitPos + s.codeWidth ≤ 8 * s.inLen) :
    (s.listingInput.number >>> s.bitPos) &&& ((1 <<< s.codeWidth) - 1) = (fetched s).codeReg.toNat := by
  apply Nat.eq_of_testBit_eq
  intro j
  rw [Nat.testBit_and, Nat.testBit_shiftRight, Nat.one_shiftLeft, Nat.testBit_two_pow_sub_one, BitVec.testBit_toNat]
  rcases Nat.lt_or_ge j s.codeWidth with hj | hj
  · have hbyte : (s.bitPos + j) / 8 = s.byteIdx + (s.bitOff + j) / 8 := by unfold State.bitPos; omega
    have hbit : (s.bitPos + j) % 8 = (s.bitOff + j) % 8 := by unfold State.bitPos; omega
    rw [getLsbD_fetched_codeReg ho hw hj, testBit_number (by omega), hbyte, hbit]
    simp [hj]
  · rw [getLsbD_fetched_codeReg_of_ge hj]
    simp [Nat.not_lt.mpr hj]

/-- A turn of the listing is truncated where the fetch is. -/
theorem turn_of_truncated (h : s.truncated = true) : s.listingInput.turn s.listing = .raised .truncatedStream :=
  if_pos ((truncated_iff s).mp h)

/-- Else it is the listing's tests on the fetched code, after the fetch. -/
theorem turn_of_fetched (h : Inv s) (hb : s.run = .busy) (hfetch : s.truncated = false) :
    s.listingInput.turn s.listing =
      (fetched s).listingInput.act (fetched s).listing (fetched s).codeReg.toNat := by
  have hbits := (truncated_eq_false_iff s).mp hfetch
  obtain ⟨-, -, -, hok⟩ := h
  obtain ⟨-, ⟨-, hw, -⟩, -, ⟨ho, -⟩, -⟩ := hok hb
  rw [listing_fetched, listingInput_fetched, ← listing_code ho hw hbits]
  exact if_neg (Nat.not_lt.mpr hbits)

theorem shows_raised (e : DecodeError) (s : State) : Shows (raiseError e s) (.raised e) := ⟨rfl, rfl, rfl⟩

/-- The host finds at `DONE` what the listing returns. -/
theorem shows_returned (h : Inv s) (hb : s.run = .busy) : Shows (finishDecode s) (.returned s.listing.out) := by
  obtain ⟨hlen, -⟩ := out_len_fits h hb
  exact ⟨rfl, rfl, hlen.trans (length_listing_out s).symm, rfl⟩

/-- The listing's previous entry is the machine's. -/
theorem getD_listing_prev (h : BusyOk s) (hp : s.phase = .streaming ∨ s.phase = .tableFull) :
    s.listing.table.getD (s.listing.prev.getD 0) [] = prevEntry s := by
  obtain ⟨p, x, xs, hprev, hfound, -⟩ := BusyOk.prevCode_found h hp
  obtain ⟨hlen, -⟩ := lookup_some hfound
  refine getD_listing_table s ?_
  simpa [State.listing, hprev] using hlen

/-- The listing's tests take a data code to the sequence it resolves to. -/
theorem act_of_resolves {c : Code} {e : Entry} (h : BusyOk s) (hp : s.phase = .streaming ∨ s.phase = .tableFull)
    (hr : Resolves c e s) : s.listingInput.act s.listing c.toNat = s.listingInput.data s.listing c.toNat e := by
  obtain ⟨hclear, hend, hcase⟩ := hr
  rw [← listingInput_clear] at hclear
  rw [State.endCode, ← listingInput_clear] at hend
  rcases hcase with ⟨hlen, rfl⟩ | ⟨hs, hlen, rfl⟩
  · rw [act_entry (l := s.listing) hp hclear hend (by rwa [length_listing_table]), getD_listing_table s hlen]
  · rw [act_new (l := s.listing) hs hclear hend (by rwa [length_listing_table]), getD_listing_prev h hp]

/-- The listing's width rule is the machine's (43_dictionary_grow.md R98). -/
theorem data_grown {c : Code} {e : Entry} (h : BusyOk s) (hp : s.phase = .streaming)
    (hroom : s.out.len + e.length ≤ s.params.outCap) :
    s.listingInput.data s.listing c.toNat e =
      .goOn (afterGrow c e (prevEntry s ++ e.take 1) s).listing := by
  obtain ⟨-, ⟨hlen, -⟩, hwidth, -⟩ := afterGrow_does c e (prevEntry s ++ e.take 1) s
  rw [data_streaming (l := s.listing) hp (by rwa [length_listing_out]), getD_listing_prev h (.inl hp),
    length_listing_table, listing_afterGrow]
  unfold WidthStepped at hwidth
  rw [hlen] at hwidth
  change (if s.table.len + 1 = 2 ^ s.codeWidth then if s.codeWidth < 12 then _ else _ else _) = _
  split at hwidth
  · next hpower =>
    rw [if_pos hpower]
    split at hwidth
    · next hw =>
      rw [if_pos hw, hwidth.1, hwidth.2]
      rfl
    · next hw =>
      rw [if_neg hw, hwidth.1, hwidth.2]
      rfl
  · next hpower =>
    rw [if_neg hpower, hwidth.1, hwidth.2]
    rfl

/-- Each outcome of a code is the outcome of the listing's tests on it. -/
theorem shows_of_effect {c : Code} (h : Inv s) (hb : s.run = .busy) (heffect : Effect c s t) :
    Shows t (s.listingInput.act s.listing c.toNat) := by
  have hclear := listingInput_clear s
  have hreturn := shows_returned h hb
  obtain ⟨-, -, -, hok⟩ := h
  replace hok := hok hb
  have hlen2 := BusyOk.clear_add_two_le hok
  cases heffect with
  | leadingClear hp hc =>
    rw [act_awaitingReset (l := s.listing) hp, hclear, if_neg (not_not.mpr hc)]
    exact ⟨hb, rfl⟩
  | noLeadingClear hp hc =>
    rw [act_awaitingReset (l := s.listing) hp, hclear, if_pos hc]
    exact shows_raised _ s
  | firstLiteral hp hc hroom =>
    rw [← length_listing_out] at hroom
    rw [act_awaitingFirst (l := s.listing) hp, hclear, if_pos hc, listing_emit_fits hroom, ← literalSymbol_eq]
    exact ⟨hb, congrArg (fun l : Listing => { l with phase := .streaming }) (listing_afterEmit s c [literalSymbol c])⟩
  | firstOverflow hp hc hfull =>
    rw [← length_listing_out] at hfull
    rw [act_awaitingFirst (l := s.listing) hp, hclear, if_pos hc, listing_emit_overflow hfull]
    exact shows_raised _ s
  | firstEnd hp hc ha =>
    have hge : ¬ c.toNat < s.clear := by rw [hc]; exact Nat.not_lt.mpr s.clear.le_succ
    rw [act_awaitingFirst (l := s.listing) hp, hclear, if_neg hge, if_pos ⟨hc, ha⟩]
    exact hreturn
  | firstIllegal hp hc he =>
    replace he : ¬ (c.toNat = s.clear + 1 ∧ s.listingInput.endAfterClear = .accept) := he
    rw [act_awaitingFirst (l := s.listing) hp, hclear, if_neg hc.not_gt, if_neg he]
    exact shows_raised _ s
  | ended hp hc =>
    rw [act_end (l := s.listing) hp (by rw [hclear]; exact hc)]
    exact hreturn
  | cleared hp hc =>
    rw [act_clear (l := s.listing) hp (by rw [hclear]; exact hc), hclear, listing_table_take s hlen2]
    exact ⟨hb, rfl⟩
  | overflow hp hr hfull =>
    rw [act_of_resolves hok hp hr, data_overflow (by rwa [length_listing_out])]
    exact shows_raised _ s
  | grown hp hr hroom =>
    rw [act_of_resolves hok (.inl hp) hr, data_grown hok hp hroom]
    exact ⟨by simp [afterGrow, hb], rfl⟩
  | emitted hp hr hroom =>
    rw [act_of_resolves hok (.inr hp) hr, data_full (l := s.listing) hp (by rwa [length_listing_out])]
    exact ⟨hb, listing_afterEmit _ _ _⟩
  | invalid hp hc =>
    rw [act_invalid (l := s.listing) hp (by omega) (by omega) (by rwa [length_listing_table])]
    exact shows_raised _ s

/-- Under the invariant a code step and a turn of the listing have the same outcome. -/
theorem codeStep_shows (h : Inv s) (hb : s.run = .busy) :
    ∃ t, codeStep s = .next t ∧ Shows t (s.listingInput.turn s.listing) := by
  rcases codeStep_effect h hb with ⟨htrunc, hstep⟩ | ⟨hfetch, t, hstep, heffect⟩
  · rw [turn_of_truncated htrunc]
    exact ⟨_, hstep, shows_raised _ s⟩
  · rw [turn_of_fetched h hb hfetch]
    exact ⟨t, hstep, shows_of_effect (inv_fetched h hb hfetch) hb heffect⟩

end

/-- Settles O44: with nothing listed the step is a code step, and `codeStep_shows` compares it. -/
theorem stepFollowsTheListing : Obligations.StepFollowsTheListing := by
  intro s h hb ha
  rw [step_of_busy ha hb]
  exact codeStep_shows h hb

/-! ### The whole decode and the whole loop -/

section
variable {s t : State}

/-- What a decode is given stays while it goes on. -/
theorem listingInput_of_step_busy (ha : s.agenda = []) (hstep : step s = .next t) (hb : t.run = .busy) :
    t.listingInput = s.listingInput := by
  obtain ⟨⟨hparams, -⟩, hinput, ⟨hics, hlen⟩, -⟩ := surroundings_of_step_busy ha hstep hb
  have hin : t.inByte = s.inByte := funext hinput
  rw [State.listingInput, State.listingInput, hparams, hin, hics, hlen]
  rfl

/-- Whatever the listing's loop has come to after `n` turns, the machine shows after `n` steps. -/
theorem run_shows (n : Nat) (h : Inv s) (hb : s.run = .busy) (ha : s.agenda = []) :
    ∃ t, Host.Core.run Sys2Proof.core n s = .next t ∧ Shows t (s.listingInput.turns n s.listing) := by
  induction n generalizing s with
  | zero => exact ⟨s, rfl, hb, rfl⟩
  | succ n ih =>
    obtain ⟨t, hstep, hshows⟩ := stepFollowsTheListing s h hb ha
    have hta := agenda_of_step ha hstep
    rw [run_of_next hstep, ListingInput.turns]
    cases hturn : s.listingInput.turn s.listing with
    | goOn l =>
      rw [hturn] at hshows
      obtain ⟨htb, rfl⟩ := hshows
      have hin := listingInput_of_step_busy ha hstep htb
      obtain ⟨u, hrun, hu⟩ := ih (everyStepKeepsTheInvariant s t h hstep) htb hta
      exact ⟨u, hrun, by rwa [hin] at hu⟩
    | returned q =>
      rw [hturn] at hshows
      exact ⟨t, run_of_not_busy hta (by simp [hshows.1]) n, hshows⟩
    | raised e =>
      rw [hturn] at hshows
      exact ⟨t, run_of_not_busy hta (by simp [hshows.1]) n, hshows⟩

/-- `START` leaves the variables of the listing as its first line sets them. -/
theorem listing_started (s : State) : (started s).listing = (started s).listingInput.begin := by
  have hlit : (List.range (2 ^ s.hrIcs.toNat)).map (started s).slot =
      (List.range (2 ^ s.hrIcs.toNat)).map fun i => [BitVec.ofNat 16 i] := by
    refine List.map_congr_left fun i hi => ?_
    rw [started_slot, if_pos (List.mem_range.mp hi)]
  have htable : (List.range (started s).table.len).map (started s).slot =
      ((List.range (2 ^ s.hrIcs.toNat)).map fun i => [BitVec.ofNat 16 i]) ++ [[], []] := by
    rw [started_table_len, List.range_succ, List.range_succ, List.map_append, List.map_append, hlit]
    simp [started_slot]
  rw [State.listing, htable]
  rfl

/-- All of the input is left when a decode begins. -/
theorem bitsLeft_started (s : State) : (started s).bitsLeft = 8 * s.hrInLen := rfl

/-- A decode that has begun ends within a third of its bits, and one more step, and shows what the listing comes to. -/
theorem started_shows (h : Inv s) (hexec : exec .start s = .next (started s)) (ha : s.agenda = []) :
    ∃ t, Host.Core.run Sys2Proof.core (8 * s.hrInLen / 3 + 1) (started s) = .next t ∧ t.run ≠ .busy ∧
      Shows t ((started s).listingInput.turns (8 * s.hrInLen / 3 + 1) (started s).listingInput.begin) := by
  have hinv : Inv (started s) := inv_start h hexec
  have hbits : (started s).bitsLeft < 3 * (8 * s.hrInLen / 3 + 1) := by rw [bitsLeft_started]; omega
  obtain ⟨t, hrun, hend⟩ := run_ends hinv rfl ha hbits
  obtain ⟨t', hrun', hshows⟩ := run_shows (8 * s.hrInLen / 3 + 1) hinv rfl ha
  cases hrun.symm.trans hrun'
  exact ⟨t, hrun, hend, by rwa [listing_started] at hshows⟩

end

/-- Settles O45: the steps of the run and the turns of the loop have the same outcomes, one by one. -/
theorem decodeFollowsTheListing : Obligations.DecodeFollowsTheListing := by
  intro s h hb ha hi hl h2 h8
  have hexec := exec_start_starts hb hi hl h2 h8
  obtain ⟨t, hrun, hend, hshows⟩ := started_shows h hexec ha
  exact ⟨started s, t, hexec, hrun, hend, hshows⟩

/-! ### Two machines with the same arguments -/

/-- No code the machine executes from here on reaches past the first `limit` bytes of `IN`. -/
def ReachesBelow (limit : Nat) (u : State) : Prop :=
  ∀ k v, Host.Core.run Sys2Proof.core k u = .next v → v.run = .busy → v.bitPos + v.codeWidth ≤ 8 * v.inLen →
    v.byteIdx + (v.bitOff + v.codeWidth + 7) / 8 ≤ limit

/-- What is executed after a step is executed from the state before it. -/
theorem ReachesBelow.of_step {limit : Nat} {s t : State} (h : ReachesBelow limit s) (hstep : step s = .next t) :
    ReachesBelow limit t := fun k v hrun =>
  h (k + 1) v (by rw [run_of_next hstep, hrun])

/-- Two inputs of a decode that differ in bits at or above `limit` bytes, or behind the input, only. -/
def ListingInput.AgreesBelow (limit : Nat) (d d' : ListingInput) : Prop :=
  d' = { d with number := d'.number } ∧
    ∀ k, k < 8 * d.inLen → k < 8 * limit → d'.number.testBit k = d.number.testBit k

/-- The listing's tests do not read the input. -/
theorem act_number (d : ListingInput) (m : Nat) (l : Listing) (c : Nat) :
    ListingInput.act { d with number := m } l c = d.act l c := rfl

/-- Where the next code lies below the limit, one turn of the listing does the same on both inputs. -/
theorem turn_of_agreesBelow {limit : Nat} {d d' : ListingInput} {l : Listing} (h : d.AgreesBelow limit d')
    (hreach : l.pos + l.width ≤ 8 * d.inLen → l.pos + l.width ≤ 8 * limit) : d'.turn l = d.turn l := by
  obtain ⟨hd, hbits⟩ := h
  rw [hd]
  rcases Nat.lt_or_ge (8 * d.inLen) (l.pos + l.width) with hshort | hlong
  · exact (if_pos hshort).trans (if_pos hshort).symm
  · have hcode : (d'.number >>> l.pos) &&& ((1 <<< l.width) - 1) = (d.number >>> l.pos) &&& ((1 <<< l.width) - 1) := by
      apply Nat.eq_of_testBit_eq
      intro j
      rw [Nat.testBit_and, Nat.testBit_and, Nat.one_shiftLeft, Nat.testBit_two_pow_sub_one, Nat.testBit_shiftRight,
        Nat.testBit_shiftRight]
      rcases Nat.lt_or_ge j l.width with hj | hj
      · have hlimit := hreach hlong
        rw [hbits (l.pos + j) (by omega) (by omega)]
      · simp [Nat.not_lt.mpr hj]
    rw [ListingInput.turn, ListingInput.turn, if_neg hlong.not_gt, if_neg hlong.not_gt, act_number, hcode]

/-- Where no code reaches past the limit, the listing's whole loop does the same on both inputs: the machine that runs
beside it has its position. -/
theorem turns_of_agreesBelow {limit : Nat} {s : State} {d' : ListingInput} (n : Nat) (h : Inv s) (hb : s.run = .busy)
    (ha : s.agenda = []) (hd : s.listingInput.AgreesBelow limit d') (hreach : ReachesBelow limit s) :
    d'.turns n s.listing = s.listingInput.turns n s.listing := by
  induction n generalizing s with
  | zero => rfl
  | succ n ih =>
    have hpos : s.bitPos + s.codeWidth ≤ 8 * s.inLen → s.bitPos + s.codeWidth ≤ 8 * limit := by
      intro hlong
      have hbytes := hreach 0 s rfl hb hlong
      unfold State.bitPos
      omega
    obtain ⟨t, hstep, hshows⟩ := stepFollowsTheListing s h hb ha
    rw [ListingInput.turns, ListingInput.turns, turn_of_agreesBelow (l := s.listing) hd hpos]
    cases hturn : s.listingInput.turn s.listing with
    | goOn l =>
      rw [hturn] at hshows
      obtain ⟨htb, rfl⟩ := hshows
      have hin := listingInput_of_step_busy ha hstep htb
      rw [← hin] at hd ⊢
      exact ih (everyStepKeepsTheInvariant s t h hstep) htb (agenda_of_step ha hstep) hd (hreach.of_step hstep)
    | returned q => rfl
    | raised e => rfl

/-- Two machines that agree on the arguments and on the bytes below the limit give their listings inputs that agree. -/
theorem agreesBelow_started {limit : Nat} {s1 s2 : State} (hics : s2.hrIcs = s1.hrIcs) (hlen : s2.hrInLen = s1.hrInLen)
    (hcap : s2.params.outCap = s1.params.outCap) (hend : s2.params.endAfterClear = s1.params.endAfterClear)
    (hbytes : ∀ a, a < s1.hrInLen → a < limit → s2.inByte a = s1.inByte a) :
    (started s1).listingInput.AgreesBelow limit (started s2).listingInput := by
  refine ⟨?_, fun k hk hlimit => ?_⟩
  · rw [State.listingInput, State.listingInput, started_ics, started_ics, started_inLen, started_inLen, started_params,
      started_params, hics, hlen, hcap, hend]
  · replace hk : k < 8 * s1.hrInLen := hk
    have hk2 : k < 8 * (started s2).inLen := by rw [started_inLen, hlen]; exact hk
    rw [testBit_number hk2, testBit_number (s := started s1) hk, started_inByte, started_inByte,
      hbytes _ (by omega) (by omega)]

/-- Two ended machines that show the same outcome are the same to the host. -/
theorem Shows.same {t1 t2 : State} {r : ListingEnd} (h1 : Shows t1 r) (h2 : Shows t2 r) (hend : t1.run ≠ .busy) :
    t2.run = t1.run ∧ t2.err = t1.err ∧ t2.hrOutLen = t1.hrOutLen ∧ (t1.run = .done → t2.outSeq = t1.outSeq) := by
  cases r with
  | goOn l => exact absurd h1.1 hend
  | returned q =>
    obtain ⟨hrun1, herr1, hlen1, hseq1⟩ := h1
    obtain ⟨hrun2, herr2, hlen2, hseq2⟩ := h2
    exact ⟨hrun2.trans hrun1.symm, herr2.trans herr1.symm, BitVec.eq_of_toNat_eq (hlen2.trans hlen1.symm),
      fun _ => hseq2.trans hseq1.symm⟩
  | raised e =>
    obtain ⟨hrun1, herr1, hlen1⟩ := h1
    obtain ⟨hrun2, herr2, hlen2⟩ := h2
    refine ⟨hrun2.trans hrun1.symm, herr2.trans herr1.symm, hlen2.trans hlen1.symm, fun hdone => ?_⟩
    rw [hrun1] at hdone
    cases hdone

/-- Settles O46: both machines show what their listing comes to, and the two listings, on inputs that agree where they
are read, come to the same. -/
theorem outcomeDependsOnTheArgumentsOnly : Obligations.OutcomeDependsOnTheArgumentsOnly := by
  intro s1 s2 u1 limit hinv1 hinv2 hb1 hb2 ha1 ha2 hi2 hl2 hics hlen hcap hend hexec1 hreach hbytes
  obtain ⟨hbusy, -⟩ | ⟨-, -, -, h2, h8, rfl⟩ := exec_start_next hexec1
  · exact absurd hbusy hb1
  have hexec2 : exec .start s2 = .next (started s2) :=
    exec_start_starts hb2 hi2 hl2 (by rwa [hics]) (by rwa [hics])
  obtain ⟨t1, hrun1, hend1, hshows1⟩ := started_shows hinv1 hexec1 ha1
  obtain ⟨t2, hrun2, -, hshows2⟩ := started_shows hinv2 hexec2 ha2
  have hd := agreesBelow_started hics hlen hcap hend hbytes
  have hbegin : (started s2).listingInput.begin = (started s1).listing := by
    rw [listing_started, ListingInput.begin, ListingInput.begin, hd.1]
  rw [hbegin, hlen, turns_of_agreesBelow _ (inv_start hinv1 hexec1) rfl ha1 hd hreach, listing_started] at hshows2
  rw [hlen] at hrun2
  exact ⟨started s2, t1, t2, hexec2, hrun1, hrun2, hend1, Shows.same hshows1 hshows2 hend1⟩

end Sys2Proof.Machine
end
